-- ==== Sys2Proof/Word.lean ====
section
/-! DEFINITION. The two widths of the block: the byte that every stored register, ring slot and serial datum is, and the
32-bit value that one register transaction carries (00_scope.md R9, 10_state.md R49). -/

namespace Sys2Proof

/-- A byte, `v[7:0]` (R9). -/
abbrev Byte := BitVec 8

/-- The value of one register transaction, `v[31:0]` (R9, R60). -/
abbrev Word := BitVec 32

end Sys2Proof
end

