-- ==== Sys2Proof/Machine/Kinds.lean ====
section
/-! DEFINITION. The finite kinds and the plain data that requests, events, logs and answers are made of. No state and no
meaning: only what there is to name (00_scope.md R8, 10_state.md R29, R33, R40, R51, 30_encoding.md R80, 60_exceptions.md R240). -/

namespace Sys2Proof.Machine

/-- The eight registers of the window, and what `select` answers for every other offset (R41, R86). -/
inductive Register where
  | data | intEnable | fifoControl | lineControl | divisorLow | divisorHigh | lineStatus | modeSelect
  | reserved
  deriving DecidableEq, Repr

/-- The six kinds of agent (R8); an ordinary context carries its own number. -/
inductive Agent where
  | host (c : Nat)
  | irq
  | lineTx
  | lineRx
  | envAttach
  | envCancel
  deriving DecidableEq, Repr

/-- A request as it arrives on one of the two interfaces, undecoded (R80). Register interface: the bytes of the request in
the order `95_test_vectors.md` writes them, `w` and `k` first, then `wdata` from bit 31 down (R81). Operation interface: the
4-bit code and its operands in the order of R82. -/
inductive Request where
  | reg (bytes : List Byte)
  | op (code : BitVec 4) (operands : List Nat)
  deriving DecidableEq, Repr

/-- One turn of one agent. The list of turns still to come is plain data in State; the spec fixes no order (R8, R253). -/
inductive Event where
  /-- agent `a` issues a request; `on` is the handle a register request is on (R226), which its 40 bits do not carry (R81, log 36); an
  operation request names its handle itself -/
  | request (a : Agent) (on : Nat) (r : Request)
  /-- HOST(c) takes the next step of the attach, line_configure, detach or transmit call it is inside -/
  | resume (c : Nat)
  /-- HOST(c) takes step D2 of its blocking read (R201) -/
  | dequeue (c : Nat)
  /-- HOST(c) takes step D3 of its blocking read (R201) -/
  | interrupted (c : Nat)
  /-- HOST(c) takes the lock as a step of its own, the finer grain of D2 (R201) -/
  | lock (c : Nat)
  /-- HOST(c) tests, loads, stores and unlocks, the finer grain of D2 (R201) -/
  | takeLocked (c : Nat)
  /-- IRQ is invoked, step E1 still to come (R174, R250) -/
  | irqEnter
  /-- IRQ takes its next step: E1, E2 or E3 (R173) -/
  | irqStep
  /-- LINE_TX takes its step (R156) -/
  | lineTx
  /-- LINE_RX takes its step (R180) -/
  | lineRx
  /-- ENV_ATTACH decides whether the window and the interrupt line are available (R221) -/
  | envAttach (window irq : Bool)
  deriving DecidableEq, Repr, Inhabited

/-- The lifecycle state of the ControllerHandle (R40). -/
inductive Life where
  | detached | attaching | attached | tornDown
  deriving DecidableEq, Repr

/-- The position of the interrupt context (R33). `entered` is the model's own: invoked, with E1 still to come (log 23). -/
inductive IrqPhase where
  | idle
  | entered
  | got (b : Byte)
  | stored (next : Nat)
  deriving DecidableEq, Repr

/-- The phase of a consumer record (R29). -/
inductive ConsumerPhase where
  | waiting | taking
  deriving DecidableEq, Repr

/-- The record of one context inside `read_one_byte` (R29). -/
structure Consumer where
  ctx : Nat
  phase : ConsumerPhase
  cancelReq : Bool
  deriving DecidableEq, Repr

/-- One value that `write_index` has had, with the contexts that the signal of its publication woke (R71, R177, log 21). -/
structure Publication where
  value : Nat
  woke : List Nat
  deriving DecidableEq, Repr

/-- `cons_lock`: the lock of the dequeue critical section (R29, R73). -/
inductive ConsLock where
  | free
  | held (c : Nat)
  deriving DecidableEq, Repr

/-- The phase of a transmit call (R32). -/
inductive TxPhase where
  | poll | put
  deriving DecidableEq, Repr

/-- The PendingWrite of one `transmit_bytes` call in progress (R28, R32). `tx_len` is the length of `txBuf`. -/
structure PendingWrite where
  ctx : Nat
  handle : Nat
  txBuf : List Byte
  txIdx : Nat
  txPhase : TxPhase
  txPolls : Nat
  txDup : Bool
  deriving DecidableEq, Repr

/-- The line of `attach` that its context performs next, after A1 (R220, R11): the two tests of A2, the seven lines of A3, A4 with its
writes counted by `cfg_step` (R31), A5, and the two lines of A6. -/
inductive AttachLine where
  | testWindow
  | testIrq
  | makeHandle
  | setArguments
  | setDivisor
  | emptyRing
  | emptyContexts
  | emptyLogs
  | setAttaching
  | configure
  | register
  | setAttached
  | giveHandle
  deriving DecidableEq, Repr

/-- An `attach` in progress: where it is, its arguments, and the handle it has made, 0 before there is one (R220). -/
structure AttachCall where
  line : AttachLine
  base : Nat
  clockHz : Nat
  irqLine : Nat
  made : Nat
  deriving DecidableEq, Repr

/-- Which of the operations that take several steps, other than transmit and read, a context is inside (log 15, 19, 25). -/
inductive CallKind where
  | attach (a : AttachCall)
  | lineConfigure (h : Nat)
  | detach (h : Nat)
  deriving DecidableEq, Repr

/-- A context inside such an operation. -/
structure HostCall where
  ctx : Nat
  kind : CallKind
  deriving DecidableEq, Repr

/-- One entry of `txn_log`, the total order of register transactions (R51, R64, R100, R101). -/
inductive Txn where
  | read (k : Nat) (r : Register)
  | write (k : Nat) (r : Register) (v : Word)
  deriving DecidableEq, Repr

/-- One entry of `poll_log` (R51, R151): a status poll with the masked value it saw, or a byte handed to DATA. -/
inductive PollEntry where
  | poll (thre : Word)
  | put (b : Byte)
  deriving DecidableEq, Repr

/-- The sub-cause of an `AttachError` (R240). -/
inductive AttachCause where
  | badArgument | windowUnavailable | irqUnavailable
  deriving DecidableEq, Repr

/-- What an operation gives its caller: a result, or one of the error outcomes that are delivered to a caller (R240).
`ReceiveOverflow` is delivered to nobody, so it is none of these (R243). -/
inductive Answer where
  | rdata (v : Word)
  | handle (h : Nat)
  | attachError (cause : AttachCause)
  | count (n : Nat)
  | transmitFault (idx : Nat)
  | byte (b : Byte)
  | interruptedError
  | lossCount (v : Word)
  deriving DecidableEq, Repr

end Sys2Proof.Machine
end

