-- ==== Sys2Proof/Config.lean ====
section
/-! DEFINITION. What an implementation fixes (the parameters of 00_scope.md R6, with the constraints of R7, R86 and R119) and the
free values: opaque constants without a body, so that nothing can be proved of them that does not hold of every value. -/

namespace Sys2Proof

/-- `OVERFLOW_POLICY`: one-valued, drop newest; any other value is refused by the type (R6, R179). -/
inductive OverflowPolicy where
  | dropNewest
  deriving DecidableEq, Repr

/-- The OPEN and decided parameters of R6. `BASE` and `CLOCK_HZ` are arguments of `attach` and stand in the handle. -/
structure Config where
  kData : Nat
  kIer : Nat
  kFcr : Nat
  kLcr : Nat
  kLsr : Nat
  kDll : Nat
  kDlh : Nat
  kMdr : Nat
  lcrDlab : Byte
  lcrWlen8 : Byte
  lsrThre : Byte
  lsrDr : Byte
  ierRdi : Byte
  fcrClearRcvr : Byte
  fcrClearXmit : Byte
  mdrDisable : Byte
  mdrNormal : Byte
  ringSlots : Nat
  rxHwDepth : Nat
  addrWidth : Nat
  rxIrqEnabled : Bool
  /-- `none` is `INF` -/
  txPollLimit : Option Nat
  nlDup : Bool
  nl : Byte
  overflowPolicy : OverflowPolicy
  deriving DecidableEq, Repr

namespace Config

/-- `BAUD`, fixed (R6). -/
abbrev baud : Nat := 115200

/-- `OVERSAMPLE`, fixed (R6). -/
abbrev oversample : Nat := 16

/-- `REG_STRIDE`, fixed (R6). -/
abbrev regStride : Nat := 4

/-- The defaults of R6, which the spec uses in its worked examples; `RX_HW_DEPTH` has none there (log 2). -/
def default : Config where
  kData := 0
  kIer := 1
  kFcr := 2
  kLcr := 3
  kLsr := 5
  kDll := 0
  kDlh := 1
  kMdr := 8
  lcrDlab := 0x80
  lcrWlen8 := 0x03
  lsrThre := 0x20
  lsrDr := 0x01
  ierRdi := 0x01
  fcrClearRcvr := 0x02
  fcrClearXmit := 0x04
  mdrDisable := 0x07
  mdrNormal := 0x00
  ringSlots := 32
  rxHwDepth := 16
  addrWidth := 32
  rxIrqEnabled := true
  txPollLimit := none
  nlDup := false
  nl := 0x0A
  overflowPolicy := .dropNewest

/-- The eight offsets of the register map (R41). -/
def offsets (cfg : Config) : List Nat :=
  [cfg.kData, cfg.kIer, cfg.kFcr, cfg.kLcr, cfg.kLsr, cfg.kDll, cfg.kDlh, cfg.kMdr]

/-- Exactly one bit set (R119). -/
def oneBit (m : Byte) : Bool := m != 0 && (m &&& (m - 1)) == 0

/-- The offsets make `select` well defined and fit the 7-bit field (R86, R81). -/
def offsetsOk (cfg : Config) : Bool :=
  decide ([cfg.kFcr, cfg.kLcr, cfg.kLsr, cfg.kMdr, cfg.kData, cfg.kIer].Nodup) &&
  cfg.kDll != cfg.kDlh && cfg.kDll != cfg.kLcr && cfg.kDlh != cfg.kLcr &&
  cfg.offsets.all (fun k => decide (k < 128))

/-- The masks and named values obey R119. -/
def masksOk (cfg : Config) : Bool :=
  oneBit cfg.lcrDlab && oneBit cfg.lsrThre && oneBit cfg.lsrDr && oneBit cfg.ierRdi &&
  oneBit cfg.fcrClearRcvr && oneBit cfg.fcrClearXmit &&
  cfg.lsrThre != cfg.lsrDr && cfg.fcrClearRcvr != cfg.fcrClearXmit &&
  (cfg.lcrWlen8 &&& cfg.lcrDlab) == 0 && cfg.mdrDisable != cfg.mdrNormal

/-- The sizes and bounds obey R6 and R7. -/
def boundsOk (cfg : Config) : Bool :=
  decide (2 ≤ cfg.ringSlots) && decide (1 ≤ cfg.rxHwDepth) &&
  (match cfg.txPollLimit with | none => true | some l => decide (1 ≤ l))

/-- The constraints on the parameters (R7, R86, R119). -/
def wf (cfg : Config) : Bool := cfg.offsetsOk && cfg.masksOk && cfg.boundsOk

/-- `any32()` of R10: the n-th 32-bit draw (log 5). -/
opaque any32 : Nat → Word

/-- `any8()` of R10: the n-th 8-bit draw (log 5). -/
opaque any8 : Nat → Byte

/-- What slot `i` of the ring holds when handle `h` is attached, before anything is stored in it: unspecified (R21, log 6). -/
opaque slotAtAttach : Nat → Nat → Byte

/-- Which of the admitted older values a load returns: the producer's of `read_index`, a consumer's of `write_index` (R71, log 21). -/
opaque staleness : Nat → Nat

/-- Which agent moves next where State lists no event to come: any (R8, R253, log 7). -/
opaque schedule : Nat → Machine.Event

end Config

end Sys2Proof
end

