-- ==== Sys2Proof/Syntax.lean ====
section
/-! DEFINITION. The closed list of the block's operations: one constructor per row of the operation map
(30_encoding.md R87, R82, R91), sixteen register transactions and eight block-level operations. -/

namespace Sys2Proof

/-- An operation with its operands. A read transaction carries no operand (its `wdata` is ignored, R81); a write carries
the 32-bit `wdata`; a block-level operation carries the operands of R82. -/
inductive Instr where
  | rdData
  | wrData (v : Word)
  | rdIer
  | wrIer (v : Word)
  | rdFcr
  | wrFcr (v : Word)
  | rdLcr
  | wrLcr (v : Word)
  | rdDll
  | wrDll (v : Word)
  | rdLsr
  | wrLsr (v : Word)
  | rdMdr
  | wrMdr (v : Word)
  | rdDlh
  | wrDlh (v : Word)
  | attach (base clockHz irqLine : Nat)
  | detach (h : Nat)
  | lineConfigure (h : Nat)
  | transmitBytes (h : Nat) (buf : List Byte)
  | onReceiveInterrupt (h : Nat)
  | readOneByte (h : Nat)
  | cancel (h c : Nat)
  | readLossCounter (h : Nat)
  deriving DecidableEq, Repr

end Sys2Proof
end

