-- ==== Sys2Proof/WellFormed.lean ====
section
/-! DEFINITION. What an operation's operands must satisfy beyond their shape: the constraints of 00_scope.md R7 on the arguments of
`attach`. An `attach` that breaks one is decoded and run like any other: A1 or A2 turns it away (45_lifecycle.md R220, log 18). -/

namespace Sys2Proof

/-- Every register of the map has its byte address below `2^ADDR_WIDTH`, computed without wrap (R7, R83). -/
def windowFits (cfg : Config) (base : Nat) : Bool :=
  cfg.offsets.all fun k => decide (base + Config.regStride * k < 2 ^ cfg.addrWidth)

/-- The operand checks: an aligned base, a positive clock, a window inside the address space (R7). Every other operation's operands are
right by their type and by decoding. -/
def wellFormed (cfg : Config) : Instr → Bool
  | .attach base clockHz _ => base % 4 == 0 && decide (1 ≤ clockHz) && windowFits cfg base
  | .rdData | .rdIer | .rdFcr | .rdLcr | .rdDll | .rdLsr | .rdMdr | .rdDlh => true
  | .wrData _ | .wrIer _ | .wrFcr _ | .wrLcr _ | .wrDll _ | .wrLsr _ | .wrMdr _ | .wrDlh _ => true
  | .detach _ | .lineConfigure _ | .transmitBytes _ _ | .onReceiveInterrupt _ | .readOneByte _ => true
  | .cancel _ _ | .readLossCounter _ => true

end Sys2Proof
end

