-- ==== Sys2Proof/Decode.lean ====
section
/-! DEFINITION. From a request to an operation and back. Register requests: the five bytes of format REG (30_encoding.md R81)
and the selection by the latch bit (R86). Block-level operations: the 4-bit code and its operands (R82). Everything else is
rejected by name (R88). -/

namespace Sys2Proof

open Sys2Proof.Machine (Register Request)

/-- Why a request is no operation. -/
inductive DecodeReject where
  /-- a register request that is not exactly 40 bits: sub-word or mixed width (R62, R92) -/
  | badLength
  /-- an offset that selects no register (R88 (a)) -/
  | reservedOffset
  /-- an operation code from 1000 to 1111 (R88 (c)) -/
  | reservedOpCode
  /-- operands that are not those of the operation, such as a byte count or a deadline on a read (R82, R5 (i)) -/
  | badOperands
  deriving DecidableEq, Repr

/-- The register an offset reaches under the latch bit (R86). -/
def select (cfg : Config) (k : Nat) (dlab : Bool) : Register :=
  if dlab = true ∧ k = cfg.kDll then .divisorLow
  else if dlab = true ∧ k = cfg.kDlh then .divisorHigh
  else if k = cfg.kFcr then .fifoControl
  else if k = cfg.kLcr then .lineControl
  else if k = cfg.kLsr then .lineStatus
  else if k = cfg.kMdr then .modeSelect
  else if dlab = false ∧ k = cfg.kData then .data
  else if dlab = false ∧ k = cfg.kIer then .intEnable
  else .reserved

/-- The read transaction of a register (R87). -/
def readInstr : Register → Option Instr
  | .data => some .rdData
  | .intEnable => some .rdIer
  | .fifoControl => some .rdFcr
  | .lineControl => some .rdLcr
  | .divisorLow => some .rdDll
  | .divisorHigh => some .rdDlh
  | .lineStatus => some .rdLsr
  | .modeSelect => some .rdMdr
  | .reserved => none

/-- The write transaction of a register (R87). -/
def writeInstr (v : Word) : Register → Option Instr
  | .data => some (.wrData v)
  | .intEnable => some (.wrIer v)
  | .fifoControl => some (.wrFcr v)
  | .lineControl => some (.wrLcr v)
  | .divisorLow => some (.wrDll v)
  | .divisorHigh => some (.wrDlh v)
  | .lineStatus => some (.wrLsr v)
  | .modeSelect => some (.wrMdr v)
  | .reserved => none

/-- Bit 39 of a register request: `w`, 1 for a write (R81). -/
def requestIsWrite (wk : Byte) : Bool := wk.msb

/-- Bits 38 to 32 of a register request: the offset `k` (R81). -/
def requestOffset (wk : Byte) : Nat := (wk.extractLsb' 0 7).toNat

/-- Bits 31 to 0 of a register request: `wdata` (R81). -/
def requestData (d3 d2 d1 d0 : Byte) : Word := d3 ++ d2 ++ d1 ++ d0

/-- A register request, decoded under the latch bit of that instant (R81, R86, R87). The `wdata` of a read is ignored (R88 (e)). -/
def decodeReg (cfg : Config) (dlab : Bool) : List Byte → Except DecodeReject Instr
  | [wk, d3, d2, d1, d0] =>
    let r := select cfg (requestOffset wk) dlab
    match (if requestIsWrite wk then writeInstr (requestData d3 d2 d1 d0) r else readInstr r) with
    | some i => .ok i
    | none => .error .reservedOffset
  | _ => .error .badLength

/-- The bytes of a transmit buffer, given as `tx_len` operands each below 256 (R82, R150). -/
def decodeBuffer (len : Nat) (operands : List Nat) : Option (List Byte) :=
  if operands.length = len ∧ operands.all (fun n => decide (n < 256)) = true then
    some (operands.map (BitVec.ofNat 8))
  else none

/-- A block-level request (R82): its code, then exactly the operands of the operation, in the table's order. -/
def decodeOp (code : BitVec 4) (operands : List Nat) : Except DecodeReject Instr :=
  match code.toNat with
  | 0 => match operands with
    | [base, clockHz, irqLine] => .ok (.attach base clockHz irqLine)
    | _ => .error .badOperands
  | 1 => match operands with
    | [h] => .ok (.detach h)
    | _ => .error .badOperands
  | 2 => match operands with
    | [h] => .ok (.lineConfigure h)
    | _ => .error .badOperands
  | 3 => match operands with
    | h :: len :: bytes => match decodeBuffer len bytes with
      | some buf => .ok (.transmitBytes h buf)
      | none => .error .badOperands
    | _ => .error .badOperands
  | 4 => match operands with
    | [h] => .ok (.onReceiveInterrupt h)
    | _ => .error .badOperands
  | 5 => match operands with
    | [h] => .ok (.readOneByte h)
    | _ => .error .badOperands
  | 6 => match operands with
    | [h, c] => .ok (.cancel h c)
    | _ => .error .badOperands
  | 7 => match operands with
    | [h] => .ok (.readLossCounter h)
    | _ => .error .badOperands
  | _ => .error .reservedOpCode

/-- A request of either interface; which of the two it came on tells its format (R80). -/
def decodeRequest (cfg : Config) (dlab : Bool) : Request → Except DecodeReject Instr
  | .reg bytes => decodeReg cfg dlab bytes
  | .op code operands => decodeOp code operands

/-- The five bytes of a register request (R81). -/
def regRequest (w : Bool) (k : Nat) (v : Word) : Request :=
  .reg [BitVec.ofBool w ++ BitVec.ofNat 7 k,
    v.extractLsb' 24 8, v.extractLsb' 16 8, v.extractLsb' 8 8, v.extractLsb' 0 8]

/-- `read_register(k)`: `wdata` is zero (R81). -/
def readRequest (k : Nat) : Request := regRequest false k 0

/-- `write_register(k, v)` (R81). -/
def writeRequest (k : Nat) (v : Word) : Request := regRequest true k v

/-- The request of an operation; a mnemonic stands for the call with that register's offset parameter (R82, R87, R89). -/
def encode (cfg : Config) : Instr → Request
  | .rdData => readRequest cfg.kData
  | .wrData v => writeRequest cfg.kData v
  | .rdIer => readRequest cfg.kIer
  | .wrIer v => writeRequest cfg.kIer v
  | .rdFcr => readRequest cfg.kFcr
  | .wrFcr v => writeRequest cfg.kFcr v
  | .rdLcr => readRequest cfg.kLcr
  | .wrLcr v => writeRequest cfg.kLcr v
  | .rdDll => readRequest cfg.kDll
  | .wrDll v => writeRequest cfg.kDll v
  | .rdLsr => readRequest cfg.kLsr
  | .wrLsr v => writeRequest cfg.kLsr v
  | .rdMdr => readRequest cfg.kMdr
  | .wrMdr v => writeRequest cfg.kMdr v
  | .rdDlh => readRequest cfg.kDlh
  | .wrDlh v => writeRequest cfg.kDlh v
  | .attach base clockHz irqLine => .op 0 [base, clockHz, irqLine]
  | .detach h => .op 1 [h]
  | .lineConfigure h => .op 2 [h]
  | .transmitBytes h buf => .op 3 (h :: buf.length :: buf.map BitVec.toNat)
  | .onReceiveInterrupt h => .op 4 [h]
  | .readOneByte h => .op 5 [h]
  | .cancel h c => .op 6 [h, c]
  | .readLossCounter h => .op 7 [h]

/-- The register an operation reaches through the window, with its offset; none for a block-level operation (R87). -/
def registerOf (cfg : Config) : Instr → Option (Register × Nat)
  | .rdData | .wrData _ => some (.data, cfg.kData)
  | .rdIer | .wrIer _ => some (.intEnable, cfg.kIer)
  | .rdFcr | .wrFcr _ => some (.fifoControl, cfg.kFcr)
  | .rdLcr | .wrLcr _ => some (.lineControl, cfg.kLcr)
  | .rdDll | .wrDll _ => some (.divisorLow, cfg.kDll)
  | .rdDlh | .wrDlh _ => some (.divisorHigh, cfg.kDlh)
  | .rdLsr | .wrLsr _ => some (.lineStatus, cfg.kLsr)
  | .rdMdr | .wrMdr _ => some (.modeSelect, cfg.kMdr)
  | .attach _ _ _ | .detach _ | .lineConfigure _ | .transmitBytes _ _ | .onReceiveInterrupt _ => none
  | .readOneByte _ | .cancel _ _ | .readLossCounter _ => none

/-- The operation is reached by its own offset under this latch bit: the key's bit 8 is as its row wants it (R87). -/
def reachable (cfg : Config) (dlab : Bool) (i : Instr) : Bool :=
  match registerOf cfg i with
  | some (r, k) => decide (select cfg k dlab = r)
  | none => true

/-- The operation is a `read_register`, whose request carries a `wdata` that is ignored (R81). -/
def isRegisterRead : Instr → Bool
  | .rdData | .rdIer | .rdFcr | .rdLcr | .rdDll | .rdLsr | .rdMdr | .rdDlh => true
  | .wrData _ | .wrIer _ | .wrFcr _ | .wrLcr _ | .wrDll _ | .wrLsr _ | .wrMdr _ | .wrDlh _ => false
  | .attach _ _ _ | .detach _ | .lineConfigure _ | .transmitBytes _ _ | .onReceiveInterrupt _ => false
  | .readOneByte _ | .cancel _ _ | .readLossCounter _ => false

/-- How many operands an operation code takes when they are all zero: `tx_len` zero means no bytes follow (R82). -/
def zeroOperands (code : BitVec 4) : List Nat :=
  match code.toNat with
  | 0 => [0, 0, 0]
  | 3 => [0, 0]
  | 6 => [0, 0]
  | _ => [0]

/-- The request that a word of the operation table stands for (log 10). A register row's word is the decode key
`dlab, w, k[6:0]` (R87), whose low eight bits are the request's first byte, with `wdata` zero. An operation row's word is the
4-bit code (R82), with every operand zero. The two formats are told apart by the interface (R80), here by the row's width. -/
def tableRequest (nbits w : Nat) : Request :=
  if nbits ≤ 8 ∧ w < 8 then .op (BitVec.ofNat 4 w) (zeroOperands (BitVec.ofNat 4 w))
  else .reg [BitVec.ofNat 8 w, 0, 0, 0, 0]

/-- Bit 8 of the decode key: the latch bit (R87). -/
def tableLatch (w : Nat) : Bool := w.testBit 8

/-- The operation the decoder reads from a word of the operation table, under the default offsets the table is written for (R91). -/
def decodeTableWord (nbits w : Nat) : Option Instr :=
  match decodeRequest Config.default (tableLatch w) (tableRequest nbits w) with
  | .ok i => some i
  | .error _ => none

end Sys2Proof
end

