-- ==== Sys2Proof/Machine/State.lean ====
section
/-! DEFINITION. All the state of the block (10_state.md R20 to R51), as plain data, with the reasons a step can stop and the
state after power-on (R52, R270). Grouped as the spec groups it: device registers, ring, handle, positions of the sequences,
serial streams, observation, and the model's own scheduling data. -/

namespace Sys2Proof.Machine

/-- The stored device registers and hardware queues (R25, R26, R41 to R48). -/
structure Device where
  /-- the transmit holding register, `none` when empty (R25) -/
  thr : Option Byte
  /-- the hardware receive FIFO, oldest first (R26) -/
  rxHw : List Byte
  /-- LINE_CONTROL (R45) -/
  lcr : Byte
  /-- DIVISOR_LOW (R46) -/
  dll : Byte
  /-- DIVISOR_HIGH (R46) -/
  dlh : Byte
  /-- MODE_SELECT (R48) -/
  mdr : Byte
  /-- INT_ENABLE (R43) -/
  ier : Byte
  deriving DecidableEq, Repr

/-- The slots of the ring that hold a stored byte, as cells in rising order of their index (R21, R61 (a)). -/
abbrev Memory := List Host.Cell

/-- The ring buffer (R21 to R24), what the producer may still see of `read_index`, and what a consumer may still see of `write_index`
(R71). -/
structure Ring where
  buf : Memory
  writeIndex : Nat
  readIndex : Nat
  /-- the loss counter, `LOSS_WIDTH` = 32 bits (R24) -/
  loss : Word
  /-- the model's own: the values `read_index` has had since the producer's previous load of it, oldest first (R71, log 21) -/
  readSeen : List Nat
  /-- the model's own: the values `write_index` has had since attach, oldest first (R71, log 21) -/
  published : List Publication
  deriving DecidableEq, Repr

/-- The ControllerHandle (R27) with its lifecycle (R40) and the position of line configuration (R31). `id` is the model's own
number of the handle: 0 where none has been made (log 14). -/
structure Handle where
  id : Nat
  base : Nat
  clockHz : Nat
  irqLine : Nat
  divisor : Nat
  life : Life
  handlerRegistered : Bool
  cfgStep : Nat
  deriving DecidableEq, Repr

/-- The two byte streams on the serial line (R50). -/
structure SerialLine where
  txLine : List Byte
  rxLine : List Byte
  deriving DecidableEq, Repr

/-- The events kept for observation (R51). -/
structure Observed where
  wakeCount : Nat
  pollLog : List PollEntry
  txnLog : List Txn
  deriving DecidableEq, Repr

/-- What ENV_ATTACH answers when it is asked (R221, log 16). -/
structure Environment where
  windowAvail : Bool
  irqAvail : Bool
  deriving DecidableEq, Repr

/-- The model's own scheduling data: the events still to come, the agent whose step it is, the handle its register request is on, and
the counter that free values are applied to (log 5, 7, 13, 36). -/
structure Scheduling where
  inputs : List Event
  agent : Agent
  handle : Nat
  draws : Nat
  deriving DecidableEq, Repr

/-- The machine. -/
structure State where
  cfg : Config
  dev : Device
  ring : Ring
  hdl : Handle
  irqPhase : IrqPhase
  cons : List Consumer
  consLock : ConsLock
  writes : List PendingWrite
  calls : List HostCall
  line : SerialLine
  obs : Observed
  answers : List (Agent × Answer)
  env : Environment
  sched : Scheduling
  deriving DecidableEq, Repr

/-- Why the machine stops in a fault state (R247). -/
inductive Fault where
  /-- `TX_OVERRUN`: raised by a DATA write while the holding register is occupied (R103), by a host transaction or by a transmit
  call. Safe: the source does not say whether the byte is lost or overwrites. -/
  | txOverrun
  deriving DecidableEq, Repr

/-- Why a request has no meaning (R248). Every refusal is safe: the hardware may go on where the model stops. -/
inductive Refusal where
  /-- Raised by `exec` for an operation that has no meaning yet, under its mnemonic. Safe. -/
  | notModelled (mnemonic : String)
  /-- Raised by the step for a register request that is not 40 bits (R62, U15). Safe. -/
  | badLength
  /-- Raised by the step, and by a transaction, for an offset that selects no register (R88 (a), R118 (a)). Safe. -/
  | reservedOffset
  /-- Raised by the step for an operation code from 1000 to 1111 (R88 (c)). Safe. -/
  | reservedOpCode
  /-- Raised by the step for operands that are not those of the operation (R82, R5 (i), U18). Safe. -/
  | badOperands
  /-- Raised by every transaction and operation on a handle whose lifecycle does not admit it (R118 (b), R226), and by a host's on one
  that `attach` has not returned yet (R272, R274). Safe. -/
  | notAttached
  /-- Raised by a write of LINE_STATUS (R113, R118 (c)). Safe. -/
  | readOnlyLineStatus
  /-- Raised by a write of FIFO_CONTROL with a bit that is not named (R107, R118 (d)). Safe. -/
  | unnamedFifoBit
  /-- Raised by a write of INT_ENABLE with a bit other than the receive enable (R105, R118 (e)). Safe. -/
  | unnamedEnableBit
  /-- Raised by a write of LINE_CONTROL with a value the source does not describe (R109, R118 (f)). Safe. -/
  | undescribedLineFormat
  /-- Raised by LINE_CONFIGURE on a handle that is not ATTACHING or whose sequence has started (R137). Safe. -/
  | alreadyConfigured
  /-- Raised by DETACH while a reader is suspended or a transmit is in progress (R224, U16). Safe. -/
  | notQuiet
  /-- Raised by ON_RECEIVE_INTERRUPT where the invocation is not enabled (R250, R225). Safe. -/
  | interruptNotEnabled
  /-- Raised by an operation issued from a context of the wrong kind (R150, R173, R209, R254). Safe. -/
  | wrongContext
  /-- Raised by an operation issued by a context that is still inside a call (R209, R256). Safe. -/
  | contextBusy
  deriving DecidableEq, Repr

/-- What one step of an operation gives. -/
abbrev Result := Host.Outcome State Fault Refusal

/-- What a shared operation that also yields a value gives. -/
abbrev Yield (α : Type) := Host.Outcome (α × State) Fault Refusal

/-- Append to `txn_log` (R64). -/
def State.logTxn (s : State) (t : Txn) : State :=
  { s with obs := { s.obs with txnLog := s.obs.txnLog ++ [t] } }

/-- Append to `poll_log` (R51). -/
def State.logPoll (s : State) (e : PollEntry) : State :=
  { s with obs := { s.obs with pollLog := s.obs.pollLog ++ [e] } }

/-- Give an agent the result of its operation (log 12). -/
def State.reply (s : State) (a : Agent) (ans : Answer) : State :=
  { s with answers := s.answers ++ [(a, ans)] }

/-- The ring of a new handle: empty, its slots free (R21, R220). Neither side can still see a cursor of an earlier handle's ring: both
lists of older values start with attach's own 0, which is the model's choice (R71, R222, log 21). -/
def emptyRing : Ring :=
  { buf := [], writeIndex := 0, readIndex := 0, loss := 0, readSeen := [0], published := [{ value := 0, woke := [] }] }

/-- One free value has been drawn (log 5). -/
def State.drew (s : State) : State :=
  { s with sched := { s.sched with draws := s.sched.draws + 1 } }

/-- Power-on (R52, R270). Fixed by the spec: DETACHED, no handler registered, `tx_line` and the logs empty. Every other value is
named by the log (2, 3, 4, 16); the unlisted ring slots are free (log 6). -/
def State.reset : State where
  cfg := Config.default
  dev := { thr := none, rxHw := [], lcr := 0, dll := 0, dlh := 0, mdr := 0, ier := 0 }
  ring := emptyRing
  hdl := { id := 0, base := 0, clockHz := 0, irqLine := 0, divisor := 0, life := .detached,
           handlerRegistered := false, cfgStep := 0 }
  irqPhase := .idle
  cons := []
  consLock := .free
  writes := []
  calls := []
  line := { txLine := [], rxLine := [] }
  obs := { wakeCount := 0, pollLog := [], txnLog := [] }
  answers := []
  env := { windowAvail := true, irqAvail := true }
  sched := { inputs := [], agent := .host 0, handle := 0, draws := 0 }

end Sys2Proof.Machine
end

