-- ==== Sys2Proof/Machine/Operands.lean ====
section
/-! DEFINITION. Operand forms: how a byte becomes the value of a transaction and back, how addresses and the divisor's bytes are
assembled, and what is read out of an answer (00_scope.md R10, 30_encoding.md R83 to R85, 41_line_configuration.md R130). -/

namespace Sys2Proof.Machine

/-- `zext_32(b)` (R10). -/
def zext32 (b : Byte) : Word := b.setWidth 32

/-- `low8(v)` (R10): what a register keeps of a written value (R49). -/
def low8 (v : Word) : Byte := v.setWidth 8

/-- The byte address of offset `k`, computed without wrap (R60, R83). -/
def byteAddr (base k : Nat) : Nat := base + Config.regStride * k

/-- The baud divisor, in unbounded integers (R130, R131). -/
def baudDivisor (clockHz : Nat) : Nat := clockHz / Config.oversample / Config.baud

/-- The divisor's low byte, `divisor mod 256` (R84). -/
def divisorLow (divisor : Nat) : Byte := BitVec.ofNat 8 (divisor % 256)

/-- The divisor's high byte, `(divisor div 256) mod 256` (R84). -/
def divisorHigh (divisor : Nat) : Byte := BitVec.ofNat 8 (divisor / 256 % 256)

/-- The part of a LINE_STATUS value the transmit path may look at (R85, R151). -/
def threField (cfg : Config) (v : Word) : Word := v &&& zext32 cfg.lsrThre

/-- The transmit-ready test (R85). -/
def transmitReady (cfg : Config) (v : Word) : Bool := threField cfg v != 0

/-- The numeric code of an answer's outcome (R240); `ReceiveOverflow`, code 3, is delivered to nobody. -/
def outcomeCode : Answer → Nat
  | .attachError _ => 1
  | .transmitFault _ => 2
  | .interruptedError => 4
  | .rdata _ | .handle _ | .count _ | .byte _ | .lossCount _ => 0

/-- The numeric sub-cause of an `AttachError` (R240). -/
def attachCauseCode : AttachCause → Nat
  | .badArgument => 1
  | .windowUnavailable => 2
  | .irqUnavailable => 3

end Sys2Proof.Machine
end

