-- ==== Sys2Proof/Machine/Flags.lean ====
section
/-! DEFINITION. The derived flags and predicates of the state: none of them is stored (10_state.md R34 to R39, R45, R46,
41_line_configuration.md R138, 44_blocking_read.md R200). -/

namespace Sys2Proof.Machine

/-- The latch-enable bit, `(lcr & LCR_DLAB) != 0` (R45, R86). -/
def dlab (s : State) : Bool := (s.dev.lcr &&& s.cfg.lcrDlab) != 0

/-- THRE: the holding register is empty (R34). -/
def thre (s : State) : Bool := s.dev.thr.isNone

/-- DR: a received byte waits (R35). -/
def dataReady (s : State) : Bool := !s.dev.rxHw.isEmpty

/-- The level of the receive interrupt request (R39, R249). -/
def irqLevel (s : State) : Bool := (s.dev.ier &&& s.cfg.ierRdi) != 0 && dataReady s

/-- The ring is empty (R36). -/
def ringEmpty (s : State) : Bool := decide (s.ring.writeIndex = s.ring.readIndex)

/-- The WaitCondition's predicate (R200). -/
def notEmpty (s : State) : Bool := !ringEmpty s

/-- `(x + 1) mod N`, exact for every N (R171). -/
def cursorNext (n x : Nat) : Nat := (x + 1) % n

/-- The ring is full (R37). -/
def ringFull (s : State) : Bool := decide (cursorNext s.cfg.ringSlots s.ring.writeIndex = s.ring.readIndex)

/-- How many bytes lie from cursor `r` up to cursor `w`, `(w - r) mod N` (R38). -/
def cursorDistance (n r w : Nat) : Nat := (w + n - r) % n

/-- The number of bytes held (R38). -/
def ringCount (s : State) : Nat := cursorDistance s.cfg.ringSlots s.ring.readIndex s.ring.writeIndex

/-- The 16-bit programmed divisor `{dlh, dll}` (R46). -/
def programmedDivisor (s : State) : Nat := s.dev.dlh.toNat * 256 + s.dev.dll.toNat

/-- Line configuration has run and nothing has undone it (R138). -/
def lineConfigured (s : State) : Bool :=
  s.dev.mdr == s.cfg.mdrNormal && s.dev.lcr == s.cfg.lcrWlen8 &&
  decide (programmedDivisor s = s.hdl.divisor % 65536) &&
  decide (1 ≤ s.hdl.divisor) && decide (s.hdl.divisor ≤ 65535) &&
  (!s.cfg.rxIrqEnabled || (s.dev.ier &&& s.cfg.ierRdi) != 0)

/-- A ControllerHandle exists that has not been torn down (R222). -/
def handleLive (s : State) : Bool := s.hdl.life == .attaching || s.hdl.life == .attached

/-- The lifecycle state of the handle numbered `h`: an older handle has been torn down, a later one does not exist yet (R40, log 14). -/
def lifeOf (h : Nat) (s : State) : Life :=
  if h = s.hdl.id then s.hdl.life else if h < s.hdl.id then .tornDown else .detached

/-- The precondition of a transaction on handle `h`: ATTACHING or ATTACHED (R100). -/
def windowOpen (h : Nat) (s : State) : Bool := lifeOf h s == .attaching || lifeOf h s == .attached

/-- The invocation of the handler is enabled (R250). The handler is registered only from step A5 of attach on (R220). -/
def canInvoke (s : State) : Bool :=
  irqLevel s && s.hdl.handlerRegistered && handleLive s && decide (s.irqPhase = .idle)

/-- The lines at which an `attach` holds the register window: from A2's first test that passes until the handle is ATTACHED, which then
holds it (R220, R221). -/
def AttachLine.holdsWindow : AttachLine → Bool
  | .testWindow | .giveHandle => false
  | .testIrq | .makeHandle | .setArguments | .setDivisor | .emptyRing | .emptyContexts | .emptyLogs => true
  | .setAttaching | .configure | .register | .setAttached => true

/-- The lines at which an `attach` is making a handle: A3 to A6's first line (R220). -/
def AttachLine.makesHandle : AttachLine → Bool
  | .testWindow | .testIrq | .giveHandle => false
  | .makeHandle | .setArguments | .setDivisor | .emptyRing | .emptyContexts | .emptyLogs => true
  | .setAttaching | .configure | .register | .setAttached => true

/-- The `attach` a call is, if it is one. -/
def attachOf (k : HostCall) : Option AttachCall :=
  match k.kind with
  | .attach a => some a
  | .lineConfigure _ | .detach _ => none

/-- The window at `base` is held by the live handle (R222), or by another `attach` that has acquired it (R220, R221). -/
def windowHeld (base : Nat) (s : State) : Bool :=
  (handleLive s && s.hdl.base == base) ||
  s.calls.any fun k => (attachOf k).any fun a => a.line.holdsWindow && a.base == base

/-- The one device has its one handle: a live one, or one that an `attach` is making (R222, N4, log 17). -/
def deviceOwned (s : State) : Bool :=
  handleLive s || s.calls.any fun k => (attachOf k).any fun a => a.line.makesHandle

/-- An `attach` has made the handle numbered `h` ATTACHED and has still to return it (R220 A6). -/
def notYetReturned (h : Nat) (s : State) : Bool :=
  s.calls.any fun k => (attachOf k).any fun a => a.line == .giveHandle && a.made == h

/-- A host may use the handle numbered `h`: it is ATTACHED (R226) and `attach` has returned it (R272, R274 item 8). -/
def usable (h : Nat) (s : State) : Bool := lifeOf h s == .attached && !notYetReturned h s

/-- The ring gives its bytes to readers: its handle is ATTACHED. A torn-down handle's bytes are discarded with it (R223, log 25). -/
def ringServed (s : State) : Bool := s.hdl.life == .attached

/-- The contexts that a signal wakes: every consumer in phase WAITING (R177). -/
def waitingContexts (s : State) : List Nat :=
  (s.cons.filter fun r => r.phase == .waiting).map Consumer.ctx

/-- The values of `write_index` that context `c` may still see, oldest first: from the last publication whose signal woke it on, and
every one since attach where none has (R71, R68, log 21). -/
def sinceWake (c : Nat) : List Publication → List Nat
  | [] => []
  | p :: rest =>
    if rest.any (fun q => q.woke.contains c) then sinceWake c rest else p.value :: rest.map Publication.value

/-- Line configuration is complete: W9 done, or W8 where W9 is skipped (R31, R135). -/
def configureDone (s : State) : Bool := decide ((if s.cfg.rxIrqEnabled then 9 else 8) ≤ s.hdl.cfgStep)

/-- Context `c` is inside a call (R209, R256). -/
def busy (c : Nat) (s : State) : Bool :=
  s.cons.any (fun r => r.ctx == c) || s.writes.any (fun w => w.ctx == c) || s.calls.any (fun k => k.ctx == c)

/-- The record of a context inside `read_one_byte` (R29). -/
def consumerOf (c : Nat) (s : State) : Option Consumer := s.cons.find? (fun r => r.ctx == c)

end Sys2Proof.Machine
end

