-- ==== Sys2Proof/Machine/Ops.lean ====
section
/-! DEFINITION. The operations every meaning is built from: sequencing, the ring's slots, the contexts, the answers, free draws,
the device registers' own reads and writes (40_register_access.md R102 to R117) with the two generic transactions that dispatch
to them (R100, R101), and the entry to and return from the interrupt handler (60_exceptions.md R250, R252). -/

namespace Sys2Proof.Machine

/-- Go on with what an operation yields; a fault or refusal ends the step. -/
def andThen {α β : Type} (o : Host.Outcome α Fault Refusal) (f : α → Host.Outcome β Fault Refusal) :
    Host.Outcome β Fault Refusal :=
  match o with
  | .next a => f a
  | .fault r => .fault r
  | .refused r => .refused r

/-! ## The slots of the ring (R21, R61) -/

/-- Canonical form: the cells' addresses rise strictly. No byte stands for an unlisted cell, so a listed cell never equals what an
unlisted one reads as (log 6). -/
def Memory.wf : Memory → Bool
  | [] => true
  | [_] => true
  | (a, _) :: (b, y) :: rest => decide (a < b) && Memory.wf ((b, y) :: rest)

/-- The byte stored at an address; none where nothing has been stored since attach. -/
def Memory.read (a : Nat) : Memory → Option Byte
  | [] => none
  | (x, b) :: rest => if x = a then some b else Memory.read a rest

/-- Store a byte at an address, keeping the canonical form. -/
def Memory.write (a : Nat) (b : Byte) : Memory → Memory
  | [] => [(a, b)]
  | (x, y) :: rest =>
    if a < x then (a, b) :: (x, y) :: rest
    else if a = x then (a, b) :: rest
    else (x, y) :: Memory.write a b rest

/-- The content of slot `i`: the stored byte, or the unspecified byte the slot holds since attach (R21). -/
def slotContent (s : State) (i : Nat) : Byte :=
  (Memory.read i s.ring.buf).getD (Config.slotAtAttach s.hdl.id i)

/-! ## Contexts and handles -/

/-- The step of an ordinary context that is not inside a call (R209, R254, R256). -/
def asHost (s : State) (f : Nat → Result) : Result :=
  match s.sched.agent with
  | .host c => if busy c s then .refused .contextBusy else f c
  | .irq | .lineTx | .lineRx | .envAttach | .envCancel => .refused .wrongContext

/-- Go on only where a host may use handle `h`: ATTACHED and returned by `attach` (R226, R272). -/
def onAttached (h : Nat) (s : State) (r : Result) : Result :=
  if usable h s = true then r else .refused .notAttached

/-- The context's call is over (R256). -/
def endCall (c : Nat) (s : State) : State :=
  { s with calls := s.calls.filter (fun k => k.ctx != c) }

/-- The context's call becomes `k` (R220). -/
def setCall (c : Nat) (k : CallKind) (s : State) : State :=
  { s with calls := s.calls.map (fun x => if x.ctx = c then { x with kind := k } else x) }

/-- The context's PendingWrite is gone (R28). -/
def endWrite (c : Nat) (s : State) : State :=
  { s with writes := s.writes.filter (fun w => w.ctx != c) }

/-- The context's PendingWrite becomes `w` (R32). -/
def setWrite (c : Nat) (w : PendingWrite) (s : State) : State :=
  { s with writes := s.writes.map (fun x => if x.ctx = c then w else x) }

/-- The context's consumer record is gone (R201). -/
def endConsumer (c : Nat) (s : State) : State :=
  { s with cons := s.cons.filter (fun r => r.ctx != c) }

/-- The context's consumer record changes its phase (R29). -/
def setPhase (c : Nat) (p : ConsumerPhase) (s : State) : State :=
  { s with cons := s.cons.map (fun r => if r.ctx = c then { r with phase := p } else r) }

/-! ## Free values (R10, R15) -/

/-- `any32()`: a fresh 32-bit draw. -/
def drawWord (s : State) : Word × State := (Config.any32 s.sched.draws, s.drew)

/-- `any8()`: a fresh 8-bit draw. -/
def drawByte (s : State) : Byte × State := (Config.any8 s.sched.draws, s.drew)

/-! ## The registers' own reads and writes -/

/-- RD_DATA: the oldest received byte, removed; a draw where there is none (R102). -/
def readData (s : State) : Yield Word :=
  match s.dev.rxHw with
  | b :: rest => .next (zext32 b, { s with dev := { s.dev with rxHw := rest } })
  | [] => .next (drawWord s)

/-- WR_DATA: loads the holding register; a fault where it is occupied (R103). -/
def writeData (v : Word) (s : State) : Result :=
  match s.dev.thr with
  | none => .next { s with dev := { s.dev with thr := some (low8 v) } }
  | some _ => .fault .txOverrun

/-- RD_IER (R104). -/
def readIntEnable (s : State) : Yield Word := .next (zext32 s.dev.ier, s)

/-- WR_IER: refused with any bit but the receive enable (R105). -/
def writeIntEnable (v : Word) (s : State) : Result :=
  if (low8 v &&& ~~~ s.cfg.ierRdi) ≠ 0 then .refused .unnamedEnableBit
  else .next { s with dev := { s.dev with ier := low8 v } }

/-- RD_FCR: a draw, no state change (R106). -/
def readFifoControl (s : State) : Yield Word := .next (drawWord s)

/-- WR_FCR: pulses the clear bits, stores nothing; refused with a bit that is not named (R107). -/
def writeFifoControl (v : Word) (s : State) : Result :=
  if (low8 v &&& ~~~ (s.cfg.fcrClearRcvr ||| s.cfg.fcrClearXmit)) ≠ 0 then .refused .unnamedFifoBit
  else .next { s with dev := { s.dev with
    rxHw := if (low8 v &&& s.cfg.fcrClearRcvr) ≠ 0 then [] else s.dev.rxHw
    thr := if (low8 v &&& s.cfg.fcrClearXmit) ≠ 0 then none else s.dev.thr } }

/-- RD_LCR (R108). -/
def readLineControl (s : State) : Yield Word := .next (zext32 s.dev.lcr, s)

/-- WR_LCR: refused with a value the source does not describe (R109). -/
def writeLineControl (v : Word) (s : State) : Result :=
  if low8 v = 0 ∨ low8 v = s.cfg.lcrDlab ∨ low8 v = s.cfg.lcrWlen8 then
    .next { s with dev := { s.dev with lcr := low8 v } }
  else .refused .undescribedLineFormat

/-- RD_DLL (R110). -/
def readDivisorLow (s : State) : Yield Word := .next (zext32 s.dev.dll, s)

/-- WR_DLL (R111). -/
def writeDivisorLow (v : Word) (s : State) : Result :=
  .next { s with dev := { s.dev with dll := low8 v } }

/-- The named bits of LINE_STATUS over the draw `u` (R112). -/
def lineStatusValue (u : Word) (s : State) : Word :=
  (u &&& ~~~ (zext32 s.cfg.lsrThre ||| zext32 s.cfg.lsrDr))
    ||| (if thre s then zext32 s.cfg.lsrThre else 0)
    ||| (if dataReady s then zext32 s.cfg.lsrDr else 0)

/-- RD_LSR: the two named bits, every other bit drawn afresh (R112). -/
def readLineStatus (s : State) : Yield Word :=
  .next (lineStatusValue (drawWord s).1 s, (drawWord s).2)

/-- WR_LSR: refused, the register is read-only (R113). -/
def writeLineStatus (_v : Word) (_s : State) : Result := .refused .readOnlyLineStatus

/-- RD_MDR (R114). -/
def readModeSelect (s : State) : Yield Word := .next (zext32 s.dev.mdr, s)

/-- WR_MDR: any value is stored (R115). -/
def writeModeSelect (v : Word) (s : State) : Result :=
  .next { s with dev := { s.dev with mdr := low8 v } }

/-- RD_DLH (R116). -/
def readDivisorHigh (s : State) : Yield Word := .next (zext32 s.dev.dlh, s)

/-- WR_DLH (R117). -/
def writeDivisorHigh (v : Word) (s : State) : Result :=
  .next { s with dev := { s.dev with dlh := low8 v } }

/-! ## The two generic transactions -/

/-- The dispatch of `read_register` (R100). -/
def readRegister (r : Register) (s : State) : Yield Word :=
  match r with
  | .data => readData s
  | .intEnable => readIntEnable s
  | .fifoControl => readFifoControl s
  | .lineControl => readLineControl s
  | .divisorLow => readDivisorLow s
  | .divisorHigh => readDivisorHigh s
  | .lineStatus => readLineStatus s
  | .modeSelect => readModeSelect s
  | .reserved => .refused .reservedOffset

/-- The dispatch of `write_register` (R101). -/
def writeRegister (r : Register) (v : Word) (s : State) : Result :=
  match r with
  | .data => writeData v s
  | .intEnable => writeIntEnable v s
  | .fifoControl => writeFifoControl v s
  | .lineControl => writeLineControl v s
  | .divisorLow => writeDivisorLow v s
  | .divisorHigh => writeDivisorHigh v s
  | .lineStatus => writeLineStatus v s
  | .modeSelect => writeModeSelect v s
  | .reserved => .refused .reservedOffset

/-- `RegRead(k)` on handle `h`: select, log, dispatch, all in one step (R100). -/
def regRead (h k : Nat) (s : State) : Yield Word :=
  if windowOpen h s then
    readRegister (select s.cfg k (dlab s)) (s.logTxn (.read k (select s.cfg k (dlab s))))
  else .refused .notAttached

/-- `RegWrite(k, v)` on handle `h` (R101). -/
def regWrite (h k : Nat) (v : Word) (s : State) : Result :=
  if windowOpen h s then
    writeRegister (select s.cfg k (dlab s)) v (s.logTxn (.write k (select s.cfg k (dlab s)) v))
  else .refused .notAttached

/-- A `read_register` request by an ordinary context, admitted while the handle it is on is usable, answered by `rdata`
(R81, R226, R288). R81's 40 bits carry no handle: the one a request is on comes with its turn, which is the model's choice (log 36). -/
def hostRead (k : Nat) (s : State) : Result :=
  asHost s fun c => onAttached s.sched.handle s <|
    andThen (regRead s.sched.handle k s) fun (v, t) => .next (t.reply (.host c) (.rdata v))

/-- A `write_register` request by an ordinary context, on the handle that comes with its turn (log 36); it has no answer
(R81, R226, R288). -/
def hostWrite (k : Nat) (v : Word) (s : State) : Result :=
  asHost s fun _ => onAttached s.sched.handle s <| regWrite s.sched.handle k v s

/-! ## Interrupt entry and return -/

/-- Take the receive interrupt (R250): the one registered callback is entered, nothing is saved by the block and there is no vector;
step E1 comes next (R173). -/
def enterHandler (s : State) : State := { s with irqPhase := .entered }

/-- The handler returns (R252): there is nothing for the block to restore. -/
def leaveHandler (s : State) : State := { s with irqPhase := .idle }

end Sys2Proof.Machine
end

