-- ==== Sys2Proof/Machine/BlockingRead.lean ====
section
/-! DEFINITION. The consumer side (44_blocking_read.md): READ_ONE_BYTE with its steps D1, D2 and D3, CANCEL, READ_LOSS_COUNTER. -/

namespace Sys2Proof.Machine

/-- READ_ONE_BYTE h, step D1 (R201): the context, which has no record, is suspended. -/
def execReadOneByte (h : Nat) (s : State) : Result :=
  asHost s fun c => onAttached h s <|
    .next { s with cons := s.cons ++ [{ ctx := c, phase := .waiting, cancelReq := false }] }

/-- Load the slot, advance `read_index`, release the lock, end the call, return the byte (R201 D2, R70). -/
def takeByte (c : Nat) (s : State) : State :=
  let r := cursorNext s.cfg.ringSlots s.ring.readIndex
  let t := endConsumer c { s with
    ring := { s.ring with readIndex := r, readSeen := s.ring.readSeen ++ [r] }
    consLock := .free }
  t.reply (.host c) (.byte (slotContent s s.ring.readIndex))

/-- The context waits and the lock is free. A torn-down handle has no byte to give (R201, R223, log 25). -/
def mayTest (c : Nat) (s : State) : Bool :=
  (consumerOf c s).any (fun r => r.phase == .waiting) && s.consLock == .free && ringServed s

/-- The guard of D2 (R201): the context waits, the lock is free, and the ring is not empty by the true cursors (R202, R285). -/
def dequeueEnabled (c : Nat) (s : State) : Bool := mayTest c s && notEmpty s

/-- D2 (R201); no step where its guard is false. -/
def dequeueStep (c : Nat) (s : State) : State := if dequeueEnabled c s then takeByte c s else s

/-- D3 (R201, R204): the cancelled call ends with `InterruptedError` and touches nothing but its own record. -/
def interruptedStep (c : Nat) (s : State) : State :=
  if (consumerOf c s).any (fun r => r.phase == .waiting && r.cancelReq) then
    (endConsumer c s).reply (.host c) .interruptedError
  else s

/-- What a consumer's unlocked load of `write_index` returns: any value it has had since the last wake that consumer received (R71). -/
def observedWrite (c : Nat) (s : State) : Nat :=
  let seen := sinceWake c s.ring.published
  seen.getD (Config.staleness s.sched.draws % seen.length) s.ring.writeIndex

/-- The finer grain of D2 (R201, log 22): the unlocked test, and the lock where that finds the ring not empty, by a `write_index` that may
be an older one (R71); else the consumer stays suspended. -/
def lockStep (c : Nat) (s : State) : State :=
  if mayTest c s then
    if observedWrite c s = s.ring.readIndex then s.drew else setPhase c .taking { s.drew with consLock := .held c }
  else s

/-- The finer grain of D2 (R201, log 22): under the lock the predicate is tested again; the byte is taken, or the consumer goes back to
WAITING with the lock released. On a torn-down handle the test fails: there is no byte to give (R223, log 25). -/
def takeLockedStep (c : Nat) (s : State) : State :=
  if (consumerOf c s).any (fun r => r.phase == .taking) && s.consLock == .held c then
    if notEmpty s && ringServed s then takeByte c s else setPhase c .waiting { s with consLock := .free }
  else s

/-- Mark the record of context `c`, if it has one (R204). -/
def markCancelled (c : Nat) (s : State) : State :=
  { s with cons := s.cons.map (fun r => if r.ctx = c then { r with cancelReq := true } else r) }

/-- CANCEL h c: issued by ENV_CANCEL or by an ordinary context that is not itself suspended (R204, R225, R254, log 34). -/
def execCancel (h c : Nat) (s : State) : Result :=
  match s.sched.agent with
  | .envCancel => onAttached h s <| .next (markCancelled c s)
  | .host _ => asHost s fun _ => onAttached h s <| .next (markCancelled c s)
  | .irq | .lineTx | .lineRx | .envAttach => .refused .wrongContext

/-- READ_LOSS_COUNTER h (R208). -/
def execReadLossCounter (h : Nat) (s : State) : Result :=
  asHost s fun c => onAttached h s <| .next (s.reply (.host c) (.lossCount s.ring.loss))

end Sys2Proof.Machine
end

