-- ==== Sys2Proof/Machine/LineConfig.lean ====
section
/-! DEFINITION. Line configuration (41_line_configuration.md): the register writes W1 to W9, one a step, and the operation
LINE_CONFIGURE, which performs W1 at the request and the others as later steps of its context. -/

namespace Sys2Proof.Machine

/-- Write `W(i+1)` of R132: the offset and the byte. Plain writes of the whole register (R133). -/
def configureWrite (cfg : Config) (divisor i : Nat) : Option (Nat × Byte) :=
  match i with
  | 0 => some (cfg.kMdr, cfg.mdrDisable)
  | 1 => some (cfg.kLcr, 0)
  | 2 => some (cfg.kLcr, cfg.lcrDlab)
  | 3 => some (cfg.kDll, divisorLow divisor)
  | 4 => some (cfg.kDlh, divisorHigh divisor)
  | 5 => some (cfg.kLcr, cfg.lcrWlen8)
  | 6 => some (cfg.kFcr, cfg.fcrClearRcvr ||| cfg.fcrClearXmit)
  | 7 => some (cfg.kMdr, cfg.mdrNormal)
  | 8 => some (cfg.kIer, cfg.ierRdi)
  | _ => none

/-- The next write of the sequence; `cfg_step` counts the writes done (R31, R132). -/
def lineConfigureStep (s : State) : Result :=
  match configureWrite s.cfg s.hdl.divisor s.hdl.cfgStep with
  | some (k, b) =>
    andThen (regWrite s.hdl.id k (zext32 b) s) fun t =>
      .next { t with hdl := { t.hdl with cfgStep := t.hdl.cfgStep + 1 } }
  | none => .next s

/-- A later step of a context inside LINE_CONFIGURE on handle `h`: the next write; the call ends with the last one, and where that
handle's sequence is already over (R132, log 19). -/
def resumeLineConfigure (c h : Nat) (s : State) : Result :=
  if configureDone s = true ∨ h ≠ s.hdl.id then .next (endCall c s)
  else andThen (lineConfigureStep s) fun t =>
    .next (if configureDone t then endCall c t else t)

/-- LINE_CONFIGURE h: refused unless the handle is ATTACHING and the sequence has not started (R132, R137). -/
def execLineConfigure (h : Nat) (s : State) : Result :=
  asHost s fun c =>
    if lifeOf h s = .attaching ∧ s.hdl.cfgStep = 0 then
      andThen (lineConfigureStep s) fun t =>
        .next { t with calls := t.calls ++ [{ ctx := c, kind := .lineConfigure h }] }
    else .refused .alreadyConfigured

end Sys2Proof.Machine
end

