-- ==== Sys2Proof/Machine/Lifecycle.lean ====
section
/-! DEFINITION. Attach and detach (45_lifecycle.md). ATTACH performs A1 at the request and every later line of R220 as a step of its
context (00_scope.md R11, log 15); DETACH performs T1 at the request and T2 as a later step. -/

namespace Sys2Proof.Machine

/-- An attach whose arguments A1 has passed: A2 comes next, no handle is made yet (R220). -/
def startAttach (base clockHz irqLine : Nat) : AttachCall :=
  { line := .testWindow, base := base, clockHz := clockHz, irqLine := irqLine, made := 0 }

/-- ATTACH base clockHz irqLine, line A1 (R220, R221): bad arguments are answered at once; else the context is inside the call, A2 to
come. -/
def execAttach (base clockHz irqLine : Nat) (s : State) : Result :=
  asHost s fun c =>
    if base % 4 ≠ 0 ∨ clockHz < 1 then .next (s.reply (.host c) (.attachError .badArgument))
    else .next { s with calls := s.calls ++ [{ ctx := c, kind := .attach (startAttach base clockHz irqLine) }] }

/-- The attempt ends with an `AttachError`; what the call had acquired is released with it (R221). -/
def failAttach (c : Nat) (cause : AttachCause) (s : State) : State :=
  (endCall c s).reply (.host c) (.attachError cause)

/-- The attach goes on to the line `l`. -/
def toLine (c : Nat) (a : AttachCall) (l : AttachLine) (s : State) : State :=
  setCall c (.attach { a with line := l }) s

/-- A2, first line (R220): the window is unavailable where ENV_ATTACH says so, where it is held (R222), and where it does not lie in the
address space (R7, log 18); else it is acquired. -/
def attachTestWindow (c : Nat) (a : AttachCall) (s : State) : State :=
  if s.env.windowAvail = false ∨ windowHeld a.base s = true ∨ windowFits s.cfg a.base = false then
    failAttach c .windowUnavailable s
  else toLine c a .testIrq s

/-- A2, second line (R220): an unavailable interrupt line releases the window. Where both are available and the one device has its
handle already, no second one is made: the window of the device is not available (R222, N4, log 17). -/
def attachTestIrq (c : Nat) (a : AttachCall) (s : State) : State :=
  if s.env.irqAvail = false then failAttach c .irqUnavailable s
  else if deviceOwned s = true then failAttach c .windowUnavailable s
  else toLine c a .makeHandle s

/-- A3, `h <- new ControllerHandle` (R220): the next number, DETACHED, no handler registered, nothing configured; its other fields come
with the next lines (log 14, log 35). -/
def attachMakeHandle (c : Nat) (a : AttachCall) (s : State) : State :=
  toLine c { a with made := s.hdl.id + 1 } .setArguments { s with
    hdl := { id := s.hdl.id + 1, base := 0, clockHz := 0, irqLine := 0, divisor := 0, life := .detached,
             handlerRegistered := false, cfgStep := 0 } }

/-- A3, the handle's base, clock and interrupt line (R220, R27). -/
def attachSetArguments (c : Nat) (a : AttachCall) (s : State) : State :=
  toLine c a .setDivisor { s with hdl := { s.hdl with base := a.base, clockHz := a.clockHz, irqLine := a.irqLine } }

/-- A3, the handle's divisor (R220, R130). -/
def attachSetDivisor (c : Nat) (a : AttachCall) (s : State) : State :=
  toLine c a .emptyRing { s with hdl := { s.hdl with divisor := baudDivisor a.clockHz } }

/-- A3, the ring empty, its slots free, `loss` 0 (R220, R21). -/
def attachEmptyRing (c : Nat) (a : AttachCall) (s : State) : State :=
  toLine c a .emptyContexts { s with ring := emptyRing }

/-- A3, no consumer, the lock free, the handler idle, `cfg_step` 0 (R220). -/
def attachEmptyContexts (c : Nat) (a : AttachCall) (s : State) : State :=
  toLine c a .emptyLogs { s with
    cons := []
    consLock := .free
    irqPhase := .idle
    hdl := { s.hdl with cfgStep := 0 } }

/-- A3, `wake_count` 0 and the logs empty, `tx_line` among them (R220, R52, R257, log 27). -/
def attachEmptyLogs (c : Nat) (a : AttachCall) (s : State) : State :=
  toLine c a .setAttaching { s with
    obs := { wakeCount := 0, pollLog := [], txnLog := [] }
    line := { s.line with txLine := [] } }

/-- A3, its last line: the handle is ATTACHING (R220). -/
def attachSetAttaching (c : Nat) (a : AttachCall) (s : State) : State :=
  toLine c a .configure { s with hdl := { s.hdl with life := .attaching } }

/-- A4 (R220): the next write of line configuration; A5 comes after the last one (R135). Where the sequence is over already the step
only goes on (log 19). -/
def attachConfigure (c : Nat) (a : AttachCall) (s : State) : Result :=
  if configureDone s then .next (toLine c a .register s)
  else andThen (lineConfigureStep s) fun t => .next (if configureDone t then toLine c a .register t else t)

/-- A5 (R220): the handler is registered where interrupt-driven receive is enabled (R135). -/
def attachRegister (c : Nat) (a : AttachCall) (s : State) : State :=
  toLine c a .setAttached { s with
    hdl := { s.hdl with handlerRegistered := s.hdl.handlerRegistered || s.cfg.rxIrqEnabled } }

/-- A6, first line: the handle is ATTACHED (R220); no host may use it before the next line returns it (R272, R274). -/
def attachSetAttached (c : Nat) (a : AttachCall) (s : State) : State :=
  toLine c a .giveHandle { s with hdl := { s.hdl with life := .attached } }

/-- A6, `return h` (R220): the caller gets the handle this call has made. -/
def attachGiveHandle (c : Nat) (a : AttachCall) (s : State) : State :=
  (endCall c s).reply (.host c) (.handle a.made)

/-- The next line of a context inside `attach` (R220, R11). -/
def resumeAttach (c : Nat) (a : AttachCall) (s : State) : Result :=
  match a.line with
  | .testWindow => .next (attachTestWindow c a s)
  | .testIrq => .next (attachTestIrq c a s)
  | .makeHandle => .next (attachMakeHandle c a s)
  | .setArguments => .next (attachSetArguments c a s)
  | .setDivisor => .next (attachSetDivisor c a s)
  | .emptyRing => .next (attachEmptyRing c a s)
  | .emptyContexts => .next (attachEmptyContexts c a s)
  | .emptyLogs => .next (attachEmptyLogs c a s)
  | .setAttaching => .next (attachSetAttaching c a s)
  | .configure => attachConfigure c a s
  | .register => .next (attachRegister c a s)
  | .setAttached => .next (attachSetAttached c a s)
  | .giveHandle => .next (attachGiveHandle c a s)

/-- DETACH h (R223): refused unless the readers and writers are quiet (R224); then T1, the handler is unregistered. -/
def execDetach (h : Nat) (s : State) : Result :=
  asHost s fun c => onAttached h s <|
    if s.cons.isEmpty && !s.writes.any (fun w => w.handle == h) then
      .next { s with
        hdl := { s.hdl with handlerRegistered := false }
        calls := s.calls ++ [{ ctx := c, kind := .detach h }] }
    else .refused .notQuiet

/-- T2 (R223): the handle is TORN_DOWN, and nothing else is written: no register, no cursor, no slot. The bytes still in the ring are
discarded with the handle: no reader is given one any more (`ringServed`), and the next attach starts its ring (log 25). -/
def tearDown (s : State) : State := { s with hdl := { s.hdl with life := .tornDown } }

/-- The later step of a context inside `detach`: T2 once no invocation is in progress, no step before (R223). -/
def resumeDetach (c h : Nat) (s : State) : State :=
  if s.irqPhase = .idle then endCall c (if h = s.hdl.id then tearDown s else s) else s

end Sys2Proof.Machine
end

