-- ==== Sys2Proof/Machine/Receive.lean ====
section
/-! DEFINITION. The receive side (43_receive_buffer.md): the operation ON_RECEIVE_INTERRUPT with its steps E1, E2 and E3, and the
step of LINE_RX. -/

namespace Sys2Proof.Machine

/-- E1 (R173, R174): exactly one read at DATA's offset, whatever it reaches under the latch bit (R277). -/
def handlerRead (s : State) : Result :=
  andThen (regRead s.hdl.id s.cfg.kData s) fun (v, t) => .next { t with irqPhase := .got (low8 v) }

/-- What the producer's load of `read_index` returns: any value it has had since the producer's previous load (R71). -/
def observedRead (s : State) : Nat :=
  s.ring.readSeen.getD (Config.staleness s.sched.draws % s.ring.readSeen.length) s.ring.readIndex

/-- E2 with the observed `read_index` (R173): full drops and counts (R176), not full stores at `write_index` (R175). The producer
has now loaded `read_index`, so nothing older can be seen again (R71). -/
def handlerStore (rObs : Nat) (b : Byte) (s : State) : State :=
  if cursorNext s.cfg.ringSlots s.ring.writeIndex = rObs then
    leaveHandler { s with ring := { s.ring with loss := s.ring.loss + 1, readSeen := [s.ring.readIndex] } }
  else
    { s with
      ring := { s.ring with buf := Memory.write s.ring.writeIndex b s.ring.buf, readSeen := [s.ring.readIndex] }
      irqPhase := .stored (cursorNext s.cfg.ringSlots s.ring.writeIndex) }

/-- E3 (R177): publish, signal, return. Every waiting consumer receives the signal, and sees nothing older from then on (R68, R71). -/
def handlerPublish (next : Nat) (s : State) : State :=
  leaveHandler { s with
    ring := { s.ring with
      writeIndex := next
      published := s.ring.published ++ [{ value := next, woke := waitingContexts s }] }
    obs := { s.obs with wakeCount := s.obs.wakeCount + 1 } }

/-- ON_RECEIVE_INTERRUPT h: by the interrupt context only, when the invocation is enabled (R173, R250); taking it starts E1. -/
def execOnReceiveInterrupt (h : Nat) (s : State) : Result :=
  match s.sched.agent with
  | .irq =>
    if h = s.hdl.id ∧ canInvoke s = true then handlerRead (enterHandler s)
    else .refused .interruptNotEnabled
  | .host _ | .lineTx | .lineRx | .envAttach | .envCancel => .refused .wrongContext

/-- The invocation alone, E1 still to come (R174, log 23); no step where it is not enabled. -/
def irqEnterStep (s : State) : State := if canInvoke s then enterHandler s else s

/-- The next step of the handler in progress (R173, R178); no step where none is in progress. -/
def irqStep (s : State) : Result :=
  match s.irqPhase with
  | .idle => .next s
  | .entered => handlerRead s
  | .got b => .next (handlerStore (observedRead s) b s.drew)
  | .stored next => .next (handlerPublish next s)

/-- The byte arrives in the hardware FIFO, or is lost where that is full (R180, R181). -/
def receiveByte (b : Byte) (s : State) : State :=
  if s.dev.rxHw.length < s.cfg.rxHwDepth then
    { s with dev := { s.dev with rxHw := s.dev.rxHw ++ [b] } }
  else s

/-- LINE_RX (R180): always enabled; the next byte of `rx_line`, and any byte where the supply lists none (log 26). -/
def lineRxStep (s : State) : State :=
  match s.line.rxLine with
  | b :: rest => receiveByte b { s with line := { s.line with rxLine := rest } }
  | [] => receiveByte (drawByte s).1 (drawByte s).2

end Sys2Proof.Machine
end

