-- ==== Sys2Proof/Machine/Transmit.lean ====
section
/-! DEFINITION. The transmit path (42_transmit.md): the operation TRANSMIT_BYTES, its POLL and PUT steps, and the step of LINE_TX. -/

namespace Sys2Proof.Machine

/-- TRANSMIT_BYTES h buf (R150, R151): a PendingWrite at its start, also where there is no byte to send. A second call in progress is
not refused (R282). -/
def execTransmitBytes (h : Nat) (buf : List Byte) (s : State) : Result :=
  asHost s fun c => onAttached h s <|
    .next { s with writes := s.writes ++
      [{ ctx := c, handle := h, txBuf := buf, txIdx := 0, txPhase := .poll, txPolls := 0, txDup := false }] }

/-- The poll bound is reached by this many status reads (R154). -/
def pollLimitReached (cfg : Config) (polls : Nat) : Bool :=
  match cfg.txPollLimit with
  | none => false
  | some l => decide (l ≤ polls)

/-- The call returns `tx_len`, the number of bytes taken from the caller's buffer, in a step of its own (R151, R158, R11). -/
def finishWrite (w : PendingWrite) (s : State) : State :=
  (endWrite w.ctx s).reply (.host w.ctx) (.count w.txBuf.length)

/-- The call ends with `TransmitFault` and the index of the byte that could not be sent, in a step of its own; nothing is undone
(R154, R242, R11). -/
def failWrite (w : PendingWrite) (s : State) : State :=
  (endWrite w.ctx s).reply (.host w.ctx) (.transmitFault w.txIdx)

/-- Phase POLL (R151, R152): one LINE_STATUS read; on THRE the put comes next, else the poll counts. The log entry and the counter go
with the read (R30, R32, log 20). -/
def pollStep (w : PendingWrite) (s : State) : Result :=
  andThen (regRead w.handle s.cfg.kLsr s) fun (v, t) =>
    let t := t.logPoll (.poll (threField s.cfg v))
    .next (setWrite w.ctx
      (if transmitReady s.cfg v then { w with txPhase := .put } else { w with txPolls := w.txPolls + 1 }) t)

/-- The second copy of a newline byte is still to be sent after this put (R158). -/
def copyToCome (cfg : Config) (w : PendingWrite) (b : Byte) : Bool := cfg.nlDup && b == cfg.nl && !w.txDup

/-- After a put: the second copy of the byte, or the next index, which after the last byte is `tx_len` (R32, R151). -/
def advanceWrite (w : PendingWrite) (b : Byte) (s : State) : State :=
  setWrite w.ctx
    (if copyToCome s.cfg w b then { w with txPhase := .poll, txPolls := 0, txDup := true }
     else { w with txIdx := w.txIdx + 1, txPhase := .poll, txPolls := 0, txDup := false }) s

/-- Phase PUT (R151, R153): the byte is written to DATA. The log entry and the index go with the write (R30, R32, log 20). -/
def putStep (w : PendingWrite) (b : Byte) (s : State) : Result :=
  andThen (regWrite w.handle s.cfg.kData (zext32 b) s) fun t =>
    .next (advanceWrite w b (t.logPoll (.put b)))

/-- The next step of a transmit call: `while tx_idx < tx_len` a poll, a put, or the fault where the polls have reached the bound; then
the return (R151, R154). -/
def transmitStep (w : PendingWrite) (s : State) : Result :=
  match w.txBuf[w.txIdx]? with
  | none => .next (finishWrite w s)
  | some b => match w.txPhase with
    | .poll => if pollLimitReached s.cfg w.txPolls then .next (failWrite w s) else pollStep w s
    | .put => putStep w b s

/-- LINE_TX (R156): enabled exactly when the holding register is occupied and MODE_SELECT is normal. -/
def lineTxStep (s : State) : State :=
  match s.dev.thr with
  | some b =>
    if s.dev.mdr = s.cfg.mdrNormal then
      { s with line := { s.line with txLine := s.line.txLine ++ [b] }, dev := { s.dev with thr := none } }
    else s
  | none => s

end Sys2Proof.Machine
end

