-- ==== Sys2Proof/Machine/Agents.lean ====
section
/-! DEFINITION. The turns of the agents other than a request (00_scope.md R8): each takes its agent's next atomic step, and leaves the
state as it is where that agent has none (log 7). -/

namespace Sys2Proof.Machine

/-- HOST(c) takes the next step of the attach, line_configure, detach or transmit call it is inside. -/
def resumeStep (c : Nat) (s : State) : Result :=
  match s.calls.find? (fun k => k.ctx == c) with
  | some k => match k.kind with
    | .attach a => resumeAttach c a s
    | .lineConfigure h => resumeLineConfigure c h s
    | .detach h => .next (resumeDetach c h s)
  | none => match s.writes.find? (fun w => w.ctx == c) with
    | some w => transmitStep w s
    | none => .next s

/-- ENV_ATTACH decides what it will answer (R221, log 16). -/
def envAttachStep (window irq : Bool) (s : State) : State :=
  { s with env := { windowAvail := window, irqAvail := irq } }

/-- The agent whose step an event is (R8). -/
def agentOf : Event → Agent
  | .request a _ _ => a
  | .resume c | .dequeue c | .interrupted c | .lock c | .takeLocked c => .host c
  | .irqEnter | .irqStep => .irq
  | .lineTx => .lineTx
  | .lineRx => .lineRx
  | .envAttach _ _ => .envAttach

/-- The handle a register request is on (R226, log 36); no other event has one. -/
def handleOf : Event → Nat
  | .request _ on _ => on
  | .resume _ | .dequeue _ | .interrupted _ | .lock _ | .takeLocked _ => 0
  | .irqEnter | .irqStep | .lineTx | .lineRx | .envAttach _ _ => 0

/-- The next event: the first of those to come, and any event where none is listed (R8, R253, log 7). -/
def nextEvent (s : State) : Event :=
  match s.sched.inputs with
  | e :: _ => e
  | [] => Config.schedule s.sched.draws

/-- The state in which the next event's step is taken: the event is consumed, or drawn, and its agent has the turn. -/
def takeTurn (s : State) : State :=
  match s.sched.inputs with
  | e :: rest => { s with sched := { s.sched with inputs := rest, agent := agentOf e, handle := handleOf e } }
  | [] => { s with sched := { s.sched with
    agent := agentOf (Config.schedule s.sched.draws)
    handle := handleOf (Config.schedule s.sched.draws)
    draws := s.sched.draws + 1 } }

/-- Decoding names its rejections; the machine refuses under the same names (R88). -/
def rejectionOf : DecodeReject → Refusal
  | .badLength => .badLength
  | .reservedOffset => .reservedOffset
  | .reservedOpCode => .reservedOpCode
  | .badOperands => .badOperands

/-- The operation a request stands for at this instant: decoded under the latch bit of the state (R86). -/
def fetch (r : Request) (s : State) : Host.Outcome Instr Fault Refusal :=
  match decodeRequest s.cfg (dlab s) r with
  | .ok i => .next i
  | .error e => .refused (rejectionOf e)

/-- One turn: a request is decoded and run by `run`; every other event is its agent's own step. -/
def runEvent (run : Instr → State → Result) (e : Event) (s : State) : Result :=
  match e with
  | .request _ _ r => andThen (fetch r s) fun i => run i s
  | .resume c => resumeStep c s
  | .dequeue c => .next (dequeueStep c s)
  | .interrupted c => .next (interruptedStep c s)
  | .lock c => .next (lockStep c s)
  | .takeLocked c => .next (takeLockedStep c s)
  | .irqEnter => .next (irqEnterStep s)
  | .irqStep => irqStep s
  | .lineTx => .next (lineTxStep s)
  | .lineRx => .next (lineRxStep s)
  | .envAttach window irq => .next (envAttachStep window irq s)

/-- The agent a word of the operation table is given to: the interrupt context for its one operation, else an ordinary context. -/
def tableAgent : Request → Agent
  | .op code _ => if code = 4 then .irq else .host 0
  | .reg _ => .host 0

/-- The latch bit set or cleared in LINE_CONTROL: bit 8 of the decode key is state, not part of the request (R87). -/
def setLatch (on : Bool) (s : State) : State :=
  if dlab s = on then s
  else { s with dev := { s.dev with
    lcr := if on then s.dev.lcr ||| s.cfg.lcrDlab else s.dev.lcr &&& ~~~ s.cfg.lcrDlab } }

/-- What the word's request takes to be admitted, beside being placed (log 8): a handle in the lifecycle state that admits it (R226), at the
start of the sequence for LINE_CONFIGURE (R137), and an enabled invocation for ON_RECEIVE_INTERRUPT (R250). ATTACH takes nothing. -/
def admitRequest (r : Request) (s : State) : State :=
  match r with
  | .reg _ => { s with hdl := { s.hdl with life := .attached } }
  | .op code _ => match code.toNat with
    | 0 => s
    | 2 => { s with hdl := { s.hdl with life := .attaching, cfgStep := 0 } }
    | 4 => { s with
      hdl := { s.hdl with life := .attached, handlerRegistered := true }
      irqPhase := .idle
      dev := { s.dev with
        ier := s.dev.ier ||| s.cfg.ierRdi
        rxHw := if s.dev.rxHw.isEmpty then [0] else s.dev.rxHw } }
    | _ => { s with hdl := { s.hdl with life := .attached } }

/-- The word's request placed as the very next event, on the current handle, admitted, under the latch bit its key names (log 8). -/
def placeTableWord (nbits w : Nat) (s : State) : State :=
  let r := tableRequest nbits w
  let t := admitRequest r (match r with
    | .reg _ => setLatch (tableLatch w) s
    | .op _ _ => s)
  { t with sched := { t.sched with inputs := .request (tableAgent r) t.hdl.id r :: t.sched.inputs } }

end Sys2Proof.Machine
end

