-- ==== Sys2Proof/Machine/Registers.lean ====
section
/-! DEFINITION. The sixteen register transactions (40_register_access.md). Each is the call with its register's offset parameter
(30_encoding.md R89): the generic transaction of R100 or R101, which selects under the latch bit of that instant (log 11). -/

namespace Sys2Proof.Machine

/-- RD_DATA (R102). -/
def execRdData (s : State) : Result := hostRead s.cfg.kData s

/-- WR_DATA v (R103). -/
def execWrData (v : Word) (s : State) : Result := hostWrite s.cfg.kData v s

/-- RD_IER (R104). -/
def execRdIer (s : State) : Result := hostRead s.cfg.kIer s

/-- WR_IER v (R105). -/
def execWrIer (v : Word) (s : State) : Result := hostWrite s.cfg.kIer v s

/-- RD_FCR (R106). -/
def execRdFcr (s : State) : Result := hostRead s.cfg.kFcr s

/-- WR_FCR v (R107). -/
def execWrFcr (v : Word) (s : State) : Result := hostWrite s.cfg.kFcr v s

/-- RD_LCR (R108). -/
def execRdLcr (s : State) : Result := hostRead s.cfg.kLcr s

/-- WR_LCR v (R109). -/
def execWrLcr (v : Word) (s : State) : Result := hostWrite s.cfg.kLcr v s

/-- RD_DLL (R110). -/
def execRdDll (s : State) : Result := hostRead s.cfg.kDll s

/-- WR_DLL v (R111). -/
def execWrDll (v : Word) (s : State) : Result := hostWrite s.cfg.kDll v s

/-- RD_LSR (R112). -/
def execRdLsr (s : State) : Result := hostRead s.cfg.kLsr s

/-- WR_LSR v (R113). -/
def execWrLsr (v : Word) (s : State) : Result := hostWrite s.cfg.kLsr v s

/-- RD_MDR (R114). -/
def execRdMdr (s : State) : Result := hostRead s.cfg.kMdr s

/-- WR_MDR v (R115). -/
def execWrMdr (v : Word) (s : State) : Result := hostWrite s.cfg.kMdr v s

/-- RD_DLH (R116). -/
def execRdDlh (s : State) : Result := hostRead s.cfg.kDlh s

/-- WR_DLH v (R117). -/
def execWrDlh (v : Word) (s : State) : Result := hostWrite s.cfg.kDlh v s

end Sys2Proof.Machine
end

