-- ==== Sys2Proof/Machine/Dispatch.lean ====
section
/-! DEFINITION. One arm per operation: each calls its own meaning. -/

namespace Sys2Proof.Machine

/-- The meaning of an operation, issued by the agent that has the turn. -/
def exec (i : Instr) (s : State) : Host.Outcome State Fault Refusal :=
  match i with
  | .rdData => Sys2Proof.Machine.execRdData s
  | .wrData v => Sys2Proof.Machine.execWrData v s
  | .rdIer => Sys2Proof.Machine.execRdIer s
  | .wrIer v => Sys2Proof.Machine.execWrIer v s
  | .rdFcr => Sys2Proof.Machine.execRdFcr s
  | .wrFcr v => Sys2Proof.Machine.execWrFcr v s
  | .rdLcr => Sys2Proof.Machine.execRdLcr s
  | .wrLcr v => Sys2Proof.Machine.execWrLcr v s
  | .rdDll => Sys2Proof.Machine.execRdDll s
  | .wrDll v => Sys2Proof.Machine.execWrDll v s
  | .rdLsr => Sys2Proof.Machine.execRdLsr s
  | .wrLsr v => Sys2Proof.Machine.execWrLsr v s
  | .rdMdr => Sys2Proof.Machine.execRdMdr s
  | .wrMdr v => Sys2Proof.Machine.execWrMdr v s
  | .rdDlh => Sys2Proof.Machine.execRdDlh s
  | .wrDlh v => Sys2Proof.Machine.execWrDlh v s
  | .attach base clockHz irqLine => Sys2Proof.Machine.execAttach base clockHz irqLine s
  | .detach h => Sys2Proof.Machine.execDetach h s
  | .lineConfigure h => Sys2Proof.Machine.execLineConfigure h s
  | .transmitBytes h buf => Sys2Proof.Machine.execTransmitBytes h buf s
  | .onReceiveInterrupt h => Sys2Proof.Machine.execOnReceiveInterrupt h s
  | .readOneByte h => Sys2Proof.Machine.execReadOneByte h s
  | .cancel h c => Sys2Proof.Machine.execCancel h c s
  | .readLossCounter h => Sys2Proof.Machine.execReadLossCounter h s

end Sys2Proof.Machine
end

