-- ==== Sys2Proof/Machine/Step.lean ====
section
/-! DEFINITION. One step of the machine: the next event's agent takes its turn (00_scope.md R8, R11, 60_exceptions.md R256). -/

namespace Sys2Proof.Machine

/-- One atomic step (R11). -/
def step (s : State) : Host.Outcome State Fault Refusal := runEvent exec (nextEvent s) (takeTurn s)

/-- The state with the operation of a table word placed where the next step takes it (log 8). -/
def State.withFetchWord (s : State) (nbits w : Nat) : State := placeTableWord nbits w s

end Sys2Proof.Machine
end

