-- ==== Sys2Proof/Safety.lean ====
section
/-! DEFINITION. What counts as a good end of a run (70_reset_and_hazards.md R290), what the ring holds, and the invariants that the
statements speak of. Each invariant is true of power-on and is meant to be kept by every step. -/

namespace Sys2Proof.Machine

/-- Every agent of the block is at rest: no invocation in progress, no PendingWrite, every consumer suspended with its guards false
(R290). -/
def atRest (s : State) : Bool :=
  decide (s.irqPhase = .idle) && s.writes.isEmpty &&
  s.cons.all fun r => r.phase == .waiting && !r.cancelReq && !dequeueEnabled r.ctx s

/-- A finite run ends well: no fault, no refusal, every agent at rest (R290). -/
def endsWell : Host.Outcome State Fault Refusal → Bool
  | .next s => atRest s
  | .fault _ => false
  | .refused _ => false

/-- The bytes held, oldest first (R170). -/
def ringHeld (s : State) : List Byte :=
  (List.range (ringCount s)).map fun i => slotContent s ((s.ring.readIndex + i) % s.cfg.ringSlots)

/-- What the publish step may rely on: in phase STORED(next) the slot at `write_index` is stored, and no value of `read_index` that the
producer has seen, nor the current one, is `next` (R69, R71, R175). -/
def storedOk (s : State) : Bool :=
  match s.irqPhase with
  | .stored next =>
    decide (next = cursorNext s.cfg.ringSlots s.ring.writeIndex) &&
    (Memory.read s.ring.writeIndex s.ring.buf).isSome &&
    next != s.ring.readIndex && s.ring.readSeen.all (fun v => next != v)
  | .idle | .entered | .got _ => true

/-- The ring's invariant: both cursors in `[0, N)` (INV1 of R170), the cells in canonical form and inside the ring, every byte held is
a stored byte (R69), an older view of `read_index` makes the ring look no emptier than it is (R71, R176), what a consumer may see of
`write_index` are cursors of which the newest is the current one (R68, R71), and `storedOk`. -/
abbrev RingInv (s : State) : Prop :=
  2 ≤ s.cfg.ringSlots ∧
  s.ring.writeIndex < s.cfg.ringSlots ∧ s.ring.readIndex < s.cfg.ringSlots ∧
  Memory.wf s.ring.buf = true ∧ (∀ x ∈ s.ring.buf, x.1 < s.cfg.ringSlots) ∧
  (∀ i < ringCount s,
    (Memory.read ((s.ring.readIndex + i) % s.cfg.ringSlots) s.ring.buf).isSome = true) ∧
  (∀ v ∈ s.ring.readSeen, v < s.cfg.ringSlots ∧
    ringCount s ≤ cursorDistance s.cfg.ringSlots v s.ring.writeIndex) ∧
  (∀ p ∈ s.ring.published, p.value < s.cfg.ringSlots) ∧
  (s.ring.published.getLast?).map Publication.value = some s.ring.writeIndex ∧
  storedOk s = true

/-- The lock's invariant: one record per context, and a record is in phase TAKING exactly while it holds `cons_lock` (R29, R73). -/
abbrev LockInv (s : State) : Prop :=
  (s.cons.map Consumer.ctx).Nodup ∧
  (∀ r ∈ s.cons, r.phase = .taking → s.consLock = .held r.ctx) ∧
  (s.consLock = .free ∨ ∃ r ∈ s.cons, r.phase = .taking ∧ s.consLock = .held r.ctx)

/-- A context is inside at most one call (R209, R256). -/
abbrev ContextInv (s : State) : Prop :=
  (s.cons.map Consumer.ctx ++ s.writes.map PendingWrite.ctx ++ s.calls.map HostCall.ctx).Nodup

/-- The positions of transmit calls, `0 <= tx_idx <= tx_len` (R32). -/
abbrev WritesInv (s : State) : Prop := ∀ w ∈ s.writes, w.txIdx ≤ w.txBuf.length

/-- What a call in progress may rely on at its position. An attach (R220): before its handle is made there is no live one; while A3 fills it
in, the latest handle is the one it has made, DETACHED; from A4 on it is ATTACHING, and configured from A5 on; at
its return it is ATTACHED. A detach on handle `h` (R223): the handle exists, and where it is the latest one its handler is unregistered
and its attach is over and has returned it. -/
def callOk (s : State) (k : HostCall) : Bool :=
  match k.kind with
  | .attach a => match a.line with
    | .testWindow | .testIrq => true
    | .makeHandle => !handleLive s
    | .setArguments | .setDivisor | .emptyRing | .emptyContexts | .emptyLogs | .setAttaching =>
      s.hdl.life == .detached && a.made == s.hdl.id
    | .configure => s.hdl.life == .attaching && a.made == s.hdl.id
    | .register | .setAttached => s.hdl.life == .attaching && a.made == s.hdl.id && configureDone s
    | .giveHandle => s.hdl.life == .attached && a.made == s.hdl.id
  | .detach h => decide (h ≤ s.hdl.id) && (h != s.hdl.id ||
      (!s.hdl.handlerRegistered && !notYetReturned h s && (s.hdl.life == .attached || s.hdl.life == .tornDown)))
  | .lineConfigure _ => true

/-- An attach is making a handle: A3 to A6's first line (R220). -/
def isMaking (k : HostCall) : Bool := (attachOf k).any fun a => a.line.makesHandle

/-- The lifecycle's invariant (R31, R40, R220, R223, R274 item 6): an attached handle has been configured; a handler is registered only
on a live and configured handle; where no handle is live no invocation is in progress; a context is inside at most one of these
calls, at most one attach is making a handle, and every call is where `callOk` says. -/
abbrev LifeInv (s : State) : Prop :=
  s.hdl.cfgStep ≤ 9 ∧
  (s.hdl.life = .attached → configureDone s = true) ∧
  (s.hdl.handlerRegistered = true → configureDone s = true ∧ handleLive s = true) ∧
  (handleLive s = false → s.irqPhase = .idle) ∧
  (s.calls.map HostCall.ctx).Nodup ∧
  (s.calls.filter isMaking).length ≤ 1 ∧
  (∀ k ∈ s.calls, callOk s k = true)

/-- A transmit call about to write DATA finds the holding register empty (R153). -/
abbrev PutReady (s : State) : Prop := ∀ w ∈ s.writes, w.txPhase = .put → s.dev.thr = none

/-- The hardware receive FIFO is within its depth (R26). -/
abbrev FifoInv (s : State) : Prop := s.dev.rxHw.length ≤ s.cfg.rxHwDepth

/-- No context is inside attach or LINE_CONFIGURE. -/
abbrev NoConfiguring (s : State) : Prop :=
  ∀ k ∈ s.calls, (∀ a, k.kind ≠ .attach a) ∧ ∀ h, k.kind ≠ .lineConfigure h

/-- The call whose next step the next turn takes, if it takes one (R220, R223, R132). -/
def callOf (s : State) : Option CallKind :=
  match nextEvent s with
  | .resume c => (s.calls.find? (fun k => k.ctx == c)).map HostCall.kind
  | .request _ _ _ | .dequeue _ | .interrupted _ | .lock _ | .takeLocked _ => none
  | .irqEnter | .irqStep | .lineTx | .lineRx | .envAttach _ _ => none

/-- The next turn performs the line `l` of an attach (R220). -/
abbrev OnAttachLine (l : AttachLine) (s : State) : Prop := ∃ a, callOf s = some (.attach a) ∧ a.line = l

/-- The handle an operation names: a register request's comes with its turn, ATTACH names none (R226, log 36). -/
def namedHandle (s : State) : Instr → Option Nat
  | .attach _ _ _ => none
  | .detach h | .lineConfigure h | .transmitBytes h _ | .onReceiveInterrupt h => some h
  | .readOneByte h | .cancel h _ | .readLossCounter h => some h
  | .rdData | .rdIer | .rdFcr | .rdLcr | .rdDll | .rdLsr | .rdMdr | .rdDlh => some s.sched.handle
  | .wrData _ | .wrIer _ | .wrFcr _ | .wrLcr _ => some s.sched.handle
  | .wrDll _ | .wrLsr _ | .wrMdr _ | .wrDlh _ => some s.sched.handle

/-- The next turn is a direct register request (R288). -/
def directRequest : Event → Bool
  | .request _ _ (.reg _) => true
  | .request _ _ (.op _ _) => false
  | .resume _ | .dequeue _ | .interrupted _ | .lock _ | .takeLocked _ => false
  | .irqEnter | .irqStep | .lineTx | .lineRx | .envAttach _ _ => false

/-- An ordinary context that is not inside a call has the turn (R209, R254). -/
abbrev HostTurn (s : State) (c : Nat) : Prop := s.sched.agent = .host c ∧ busy c s = false

/-- The same, its register request on a handle that is ATTACHED and returned: where a register request is admitted (R226, R272). -/
abbrev HostReady (s : State) (c : Nat) : Prop := HostTurn s c ∧ usable s.sched.handle s = true

/-- The state in which the step of event `e` is taken, with `rest` still to come. -/
abbrev turnOf (e : Event) (rest : List Event) (s : State) : State :=
  { s with sched := { s.sched with inputs := rest, agent := agentOf e, handle := handleOf e } }

/-- Offset and value of a logged write; nothing for a read (R132). -/
def writtenPair : Txn → Option (Nat × Word)
  | .write k _ v => some (k, v)
  | .read _ _ => none

/-- How many writes line configuration is: W9 only with the receive interrupt (R132, R135). -/
def configureWrites (cfg : Config) : Nat := if cfg.rxIrqEnabled then 9 else 8

/-- From `s` to `t` line configuration has run: the writes of R132 in their order and with their values, and the state R134 gives, whatever
the device held; nothing else of the handle, the ring, the line or the answers has changed (R132, R134, R135). -/
abbrev ConfiguredFrom (s t : State) : Prop :=
  t.hdl = { s.hdl with cfgStep := configureWrites s.cfg } ∧
  t.dev = { thr := none, rxHw := [], lcr := s.cfg.lcrWlen8, dll := divisorLow s.hdl.divisor, dlh := divisorHigh s.hdl.divisor,
            mdr := s.cfg.mdrNormal, ier := if s.cfg.rxIrqEnabled then s.cfg.ierRdi else s.dev.ier } ∧
  t.obs.txnLog.map writtenPair = s.obs.txnLog.map writtenPair ++
    ([some (s.cfg.kMdr, zext32 s.cfg.mdrDisable), some (s.cfg.kLcr, 0), some (s.cfg.kLcr, zext32 s.cfg.lcrDlab),
      some (s.cfg.kDll, zext32 (divisorLow s.hdl.divisor)), some (s.cfg.kDlh, zext32 (divisorHigh s.hdl.divisor)),
      some (s.cfg.kLcr, zext32 s.cfg.lcrWlen8),
      some (s.cfg.kFcr, zext32 (s.cfg.fcrClearRcvr ||| s.cfg.fcrClearXmit)),
      some (s.cfg.kMdr, zext32 s.cfg.mdrNormal)] ++
      (if s.cfg.rxIrqEnabled then [some (s.cfg.kIer, zext32 s.cfg.ierRdi)] else [])) ∧
  t.ring = s.ring ∧ t.answers = s.answers ∧ t.line = s.line

/-- The bytes a transmit of `buf` puts on the line: each once, a newline twice where newlines are doubled (R151, R158). -/
def lineBytes (cfg : Config) (buf : List Byte) : List Byte :=
  buf.flatMap fun b => if cfg.nlDup && b == cfg.nl then [b, b] else [b]

/-- Everything the transmitter has been given: what is on the line, then what is in the holding register (R50, R156). -/
def sentBytes (s : State) : List Byte := s.line.txLine ++ s.dev.thr.toList

end Sys2Proof.Machine
end

