-- ==== Sys2Proof/Certificates/Slice0/Obligations.lean ====
section
/-! DEFINITION. The statements for the provers. Each ranges over every state and every setting of the parameters that its premises
admit; a docstring names the rule of spec/ it formalises. -/

open Sys2Proof Sys2Proof.Machine

/-! ## Encoding -/

/-- Words of the operation map and requests of `95_test_vectors.md` 2.1 decode to the operations they stand for (R81, R82, R87). -/
def Obligations.TableWordsDecode : Prop :=
  decodeTableWord 16 0x000 = some .rdData ∧ decodeTableWord 16 0x181 = some (.wrDlh 0) ∧
  decodeTableWord 16 0x081 = some (.wrIer 0) ∧ decodeTableWord 16 0x005 = some .rdLsr ∧
  decodeTableWord 16 0x188 = some (.wrMdr 0) ∧ decodeTableWord 16 0x004 = none ∧
  decodeTableWord 8 0x0 = some (.attach 0 0 0) ∧ decodeTableWord 8 0x7 = some (.readLossCounter 0) ∧
  decodeRequest Config.default false (.reg [0x80, 0x00, 0x00, 0x00, 0x64]) = .ok (.wrData 0x64) ∧
  decodeRequest Config.default true (.reg [0x80, 0x00, 0x00, 0x00, 0x1A]) = .ok (.wrDll 0x1A) ∧
  decodeRequest Config.default true (.reg [0x05, 0xDE, 0xAD, 0xBE, 0xEF]) = .ok .rdLsr

/-- Every operation, with every value of every operand, decodes from its own encoding, under every legal setting of the parameters,
where its offset reaches its register (R81, R82, R86, R87). -/
def Obligations.EncodeThenDecodeGivesTheOperation : Prop :=
  ∀ (cfg : Config) (latch : Bool) (i : Instr), cfg.wf = true → reachable cfg latch i = true →
    decodeRequest cfg latch (encode cfg i) = .ok i

/-- What decodes is reached by its own offset and is its own encoding: exactly where it is no register read, and for a register read up to
the `wdata` its request carries, which is ignored: same direction and offset, zeros in the encoding (R81, R82, R88 (e)). -/
def Obligations.DecodeThenEncodeGivesTheRequest : Prop :=
  ∀ (cfg : Config) (latch : Bool) (r : Request) (i : Instr), cfg.wf = true →
    decodeRequest cfg latch r = .ok i →
    reachable cfg latch i = true ∧ decodeRequest cfg latch (encode cfg i) = .ok i ∧
    (isRegisterRead i = false → encode cfg i = r) ∧
    (isRegisterRead i = true → ∃ wk d3 d2 d1 d0, r = .reg [wk, d3, d2, d1, d0] ∧ requestIsWrite wk = false ∧
      encode cfg i = .reg [wk, 0, 0, 0, 0])

/-- Reserved encodings are refused by name: a register request that is not 40 bits, an offset that selects nothing, an operation code
from 1000 up; and the step refuses what does not decode (R88, R62, R118 (a)). -/
def Obligations.ReservedEncodingsAreRefused : Prop :=
  (∀ (cfg : Config) (latch : Bool) (bytes : List Byte), bytes.length ≠ 5 →
    decodeRequest cfg latch (.reg bytes) = .error .badLength) ∧
  (∀ (cfg : Config) (latch : Bool) (wk d3 d2 d1 d0 : Byte),
    select cfg (requestOffset wk) latch = .reserved →
    decodeRequest cfg latch (.reg [wk, d3, d2, d1, d0]) = .error .reservedOffset) ∧
  (∀ (cfg : Config) (latch : Bool) (code : BitVec 4) (operands : List Nat), 8 ≤ code.toNat →
    decodeRequest cfg latch (.op code operands) = .error .reservedOpCode) ∧
  (∀ (s : State) (a : Agent) (on : Nat) (r : Request) (rest : List Event) (e : DecodeReject),
    s.sched.inputs = .request a on r :: rest → decodeRequest s.cfg (dlab s) r = .error e →
    step s = .refused (rejectionOf e))

/-- The latch bit decides which register an offset reaches: set, DATA and INT_ENABLE are unreachable and the divisor offsets reach the
divisor; clear, the divisor is unreachable; LINE_CONTROL is always reachable; an offset of no register is reserved (R86, R67). -/
def Obligations.TheLatchDecidesWhatAnOffsetReaches : Prop :=
  ∀ (cfg : Config), cfg.wf = true →
    (∀ k, select cfg k true ≠ .data ∧ select cfg k true ≠ .intEnable ∧
      select cfg k false ≠ .divisorLow ∧ select cfg k false ≠ .divisorHigh) ∧
    select cfg cfg.kDll true = .divisorLow ∧ select cfg cfg.kDlh true = .divisorHigh ∧
    select cfg cfg.kData false = .data ∧ select cfg cfg.kIer false = .intEnable ∧
    (∀ latch, select cfg cfg.kLcr latch = .lineControl) ∧
    (∀ k latch, k ∉ cfg.offsets → select cfg k latch = .reserved)

/-! ## The step -/

/-- When the next event is a request that decodes to an operation, the step is that operation's meaning, in the state where the event is
consumed, its agent has the turn and, for a register request, the handle it is on is the turn's (R226, log 36). -/
def Obligations.StepRunsTheDecodedRequest : Prop :=
  ∀ (s : State) (a : Agent) (on : Nat) (r : Request) (rest : List Event) (i : Instr),
    s.sched.inputs = .request a on r :: rest → decodeRequest s.cfg (dlab s) r = .ok i →
    step s = exec i (turnOf (.request a on r) rest s) ∧
    (turnOf (.request a on r) rest s).sched.agent = a ∧ (turnOf (.request a on r) rest s).sched.handle = on

/-- A decoded register request is the generic transaction at the request's own offset, with the request's own data: `read_register(k)`
or `write_register(k, v)`, whichever register the latch bit selects there (R100, R101, R89, R86). -/
def Obligations.RegisterRequestsAreTheGenericTransactions : Prop :=
  ∀ (s : State) (wk d3 d2 d1 d0 : Byte) (i : Instr), s.cfg.wf = true →
    decodeReg s.cfg (dlab s) [wk, d3, d2, d1, d0] = .ok i →
    exec i s = if requestIsWrite wk then hostWrite (requestOffset wk) (requestData d3 d2 d1 d0) s
      else hostRead (requestOffset wk) s

/-! ## Register transactions -/

/-- RD_DATA: the oldest received byte, zero-extended, removed from the FIFO, data-ready and the request line falling with the last one; with
nothing received a free value and no change but the log, the answer and the draw (the spec's decision D13); with the latch set and the
offset shared, DIVISOR_LOW's value and nothing removed (R102, R66). The answer stands in the model's own list of answers (log 12). -/
def Obligations.ReadDataTakesTheOldestByte : Prop :=
  ∀ (s : State) (c : Nat), HostReady s c →
    (∀ b rest, select s.cfg s.cfg.kData (dlab s) = .data → s.dev.rxHw = b :: rest →
      ∃ t, exec .rdData s = .next t ∧
        t = { s.logTxn (.read s.cfg.kData .data) with
          dev := { s.dev with rxHw := rest } }.reply (.host c) (.rdata (zext32 b)) ∧
        (dataReady t = false ↔ rest = []) ∧ (rest = [] → irqLevel t = false) ∧
        (rest ≠ [] → irqLevel t = irqLevel s)) ∧
    (select s.cfg s.cfg.kData (dlab s) = .data → s.dev.rxHw = [] →
      exec .rdData s = .next ((s.logTxn (.read s.cfg.kData .data)).drew.reply (.host c)
        (.rdata (Config.any32 s.sched.draws)))) ∧
    (dlab s = true → s.cfg.kData = s.cfg.kDll →
      exec .rdData s = .next ((s.logTxn (.read s.cfg.kData .divisorLow)).reply (.host c)
        (.rdata (zext32 s.dev.dll))))

/-- WR_DATA v: an empty holding register is loaded with the low byte and THRE falls; an occupied one is the fault TX_OVERRUN (the spec's
decision D12); with the latch set and the offset shared the write reaches DIVISOR_LOW and nothing is transmitted (R103, R278). -/
def Obligations.WriteDataLoadsTheHoldingRegister : Prop :=
  ∀ (s : State) (c : Nat) (v : Word), HostReady s c →
    (select s.cfg s.cfg.kData (dlab s) = .data → s.dev.thr = none →
      ∃ t, exec (.wrData v) s = .next t ∧ thre t = false ∧
        t = { s.logTxn (.write s.cfg.kData .data v) with dev := { s.dev with thr := some (low8 v) } }) ∧
    (∀ b, select s.cfg s.cfg.kData (dlab s) = .data → s.dev.thr = some b →
      exec (.wrData v) s = .fault .txOverrun) ∧
    (dlab s = true → s.cfg.kData = s.cfg.kDll →
      exec (.wrData v) s = .next { s.logTxn (.write s.cfg.kData .divisorLow v) with
        dev := { s.dev with dll := low8 v } })

/-- RD_IER, RD_LCR, RD_DLL, RD_MDR, RD_DLH: each answers the stored byte zero-extended and changes nothing but the log and the answers
(R104, R108, R110, R114, R116; that these registers read back is the spec's decision D4, the zero upper bits its D3). -/
def Obligations.StoredRegistersReadBack : Prop :=
  ∀ (s : State) (c : Nat), HostReady s c →
    (select s.cfg s.cfg.kIer (dlab s) = .intEnable →
      exec .rdIer s = .next ((s.logTxn (.read s.cfg.kIer .intEnable)).reply (.host c)
        (.rdata (zext32 s.dev.ier)))) ∧
    (select s.cfg s.cfg.kLcr (dlab s) = .lineControl →
      exec .rdLcr s = .next ((s.logTxn (.read s.cfg.kLcr .lineControl)).reply (.host c)
        (.rdata (zext32 s.dev.lcr)))) ∧
    (select s.cfg s.cfg.kDll (dlab s) = .divisorLow →
      exec .rdDll s = .next ((s.logTxn (.read s.cfg.kDll .divisorLow)).reply (.host c)
        (.rdata (zext32 s.dev.dll)))) ∧
    (select s.cfg s.cfg.kMdr (dlab s) = .modeSelect →
      exec .rdMdr s = .next ((s.logTxn (.read s.cfg.kMdr .modeSelect)).reply (.host c)
        (.rdata (zext32 s.dev.mdr)))) ∧
    (select s.cfg s.cfg.kDlh (dlab s) = .divisorHigh →
      exec .rdDlh s = .next ((s.logTxn (.read s.cfg.kDlh .divisorHigh)).reply (.host c)
        (.rdata (zext32 s.dev.dlh))))

/-- WR_IER v: stored where only the receive enable may be set, and the request line is recomputed at once; refused with any other bit
(the spec's decision D41); with the latch set and the offset shared the write reaches DIVISOR_HIGH (R105). -/
def Obligations.WriteIntEnable : Prop :=
  ∀ (s : State) (c : Nat) (v : Word), HostReady s c →
    (select s.cfg s.cfg.kIer (dlab s) = .intEnable → low8 v &&& ~~~ s.cfg.ierRdi = 0 →
      ∃ t, exec (.wrIer v) s = .next t ∧
        t = { s.logTxn (.write s.cfg.kIer .intEnable v) with dev := { s.dev with ier := low8 v } } ∧
        irqLevel t = ((low8 v &&& s.cfg.ierRdi) != 0 && dataReady s)) ∧
    (select s.cfg s.cfg.kIer (dlab s) = .intEnable → low8 v &&& ~~~ s.cfg.ierRdi ≠ 0 →
      exec (.wrIer v) s = .refused .unnamedEnableBit) ∧
    (dlab s = true → s.cfg.kDll ≠ s.cfg.kDlh → s.cfg.kIer = s.cfg.kDlh →
      exec (.wrIer v) s = .next { s.logTxn (.write s.cfg.kIer .divisorHigh v) with
        dev := { s.dev with dlh := low8 v } })

/-- WR_FCR v: each named bit empties its queue, nothing is stored; refused with a bit that is not named (R107, the spec's decision D14). -/
def Obligations.WriteFifoControlClears : Prop :=
  ∀ (s : State) (c : Nat) (v : Word), HostReady s c →
    select s.cfg s.cfg.kFcr (dlab s) = .fifoControl →
    (low8 v &&& ~~~ (s.cfg.fcrClearRcvr ||| s.cfg.fcrClearXmit) = 0 →
      ∃ t, exec (.wrFcr v) s = .next t ∧
        t = { s.logTxn (.write s.cfg.kFcr .fifoControl v) with
          dev := { s.dev with
            rxHw := if low8 v &&& s.cfg.fcrClearRcvr = 0 then s.dev.rxHw else []
            thr := if low8 v &&& s.cfg.fcrClearXmit = 0 then s.dev.thr else none } } ∧
        (low8 v &&& s.cfg.fcrClearRcvr ≠ 0 → dataReady t = false ∧ irqLevel t = false) ∧
        (low8 v &&& s.cfg.fcrClearXmit ≠ 0 → thre t = true)) ∧
    (low8 v &&& ~~~ (s.cfg.fcrClearRcvr ||| s.cfg.fcrClearXmit) ≠ 0 →
      exec (.wrFcr v) s = .refused .unnamedFifoBit)

/-- WR_LCR v, whatever the latch bit is: the three described values are stored, the latch bit is theirs from then on, and the line counts as
configured only under the 8-data-bits value; every other value is refused (R109, the spec's decision D41). -/
def Obligations.WriteLineControl : Prop :=
  ∀ (s : State) (c : Nat) (v : Word), s.cfg.wf = true → HostReady s c →
    (low8 v = 0 ∨ low8 v = s.cfg.lcrDlab ∨ low8 v = s.cfg.lcrWlen8 →
      ∃ t, exec (.wrLcr v) s = .next t ∧
        t = { s.logTxn (.write s.cfg.kLcr .lineControl v) with dev := { s.dev with lcr := low8 v } } ∧
        dlab t = ((low8 v &&& s.cfg.lcrDlab) != 0) ∧
        (low8 v ≠ s.cfg.lcrWlen8 → lineConfigured t = false)) ∧
    (¬ (low8 v = 0 ∨ low8 v = s.cfg.lcrDlab ∨ low8 v = s.cfg.lcrWlen8) →
      exec (.wrLcr v) s = .refused .undescribedLineFormat)

/-- WR_DLL v, WR_DLH v, WR_MDR v: the low byte is stored, whatever it is, and a mode that is not the normal one leaves the transmitter without
a step, which in the model is a turn that changes nothing (log 7). With the latch clear neither divisor register is reached, and at a shared
offset the request of WR_DLL is WR_DATA's and that of WR_DLH is WR_IER's, faults and refusals included (R111, R115, R117). -/
def Obligations.WriteDivisorAndMode : Prop :=
  ∀ (s : State) (c : Nat) (v : Word), HostReady s c →
    (select s.cfg s.cfg.kDll (dlab s) = .divisorLow →
      exec (.wrDll v) s = .next { s.logTxn (.write s.cfg.kDll .divisorLow v) with
        dev := { s.dev with dll := low8 v } }) ∧
    (select s.cfg s.cfg.kDlh (dlab s) = .divisorHigh →
      exec (.wrDlh v) s = .next { s.logTxn (.write s.cfg.kDlh .divisorHigh v) with
        dev := { s.dev with dlh := low8 v } }) ∧
    (select s.cfg s.cfg.kMdr (dlab s) = .modeSelect →
      ∃ t, exec (.wrMdr v) s = .next t ∧
        t = { s.logTxn (.write s.cfg.kMdr .modeSelect v) with dev := { s.dev with mdr := low8 v } } ∧
        (low8 v ≠ s.cfg.mdrNormal → lineTxStep t = t)) ∧
    (dlab s = false → select s.cfg s.cfg.kDll (dlab s) ≠ .divisorLow ∧
      select s.cfg s.cfg.kDlh (dlab s) ≠ .divisorHigh) ∧
    (dlab s = false → s.cfg.kDll = s.cfg.kData → exec (.wrDll v) s = exec (.wrData v) s ∧
      (select s.cfg s.cfg.kDll (dlab s) = .data →
        (s.dev.thr = none → exec (.wrDll v) s = .next { s.logTxn (.write s.cfg.kDll .data v) with
          dev := { s.dev with thr := some (low8 v) } }) ∧
        (s.dev.thr ≠ none → exec (.wrDll v) s = .fault .txOverrun))) ∧
    (dlab s = false → s.cfg.kDlh = s.cfg.kIer → exec (.wrDlh v) s = exec (.wrIer v) s ∧
      (select s.cfg s.cfg.kDlh (dlab s) = .intEnable →
        (low8 v &&& ~~~ s.cfg.ierRdi = 0 →
          exec (.wrDlh v) s = .next { s.logTxn (.write s.cfg.kDlh .intEnable v) with
            dev := { s.dev with ier := low8 v } }) ∧
        (low8 v &&& ~~~ s.cfg.ierRdi ≠ 0 → exec (.wrDlh v) s = .refused .unnamedEnableBit)))

/-- RD_FCR answers a free value (the spec's decision D11) and RD_LSR the two named bits over a free value (its decisions D6 and D7); neither
changes anything but the log, the answers and the draw (R106, R112). -/
def Obligations.ReadsWithFreeBits : Prop :=
  ∀ (s : State) (c : Nat), HostReady s c →
    (select s.cfg s.cfg.kFcr (dlab s) = .fifoControl →
      exec .rdFcr s = .next ((s.logTxn (.read s.cfg.kFcr .fifoControl)).drew.reply (.host c)
        (.rdata (Config.any32 s.sched.draws)))) ∧
    (select s.cfg s.cfg.kLsr (dlab s) = .lineStatus →
      exec .rdLsr s = .next ((s.logTxn (.read s.cfg.kLsr .lineStatus)).drew.reply (.host c)
        (.rdata (lineStatusValue (Config.any32 s.sched.draws) s))))

/-- Whatever the free bits are, a LINE_STATUS value shows THRE exactly when the holding register is empty and the data-ready bit exactly
when a received byte waits, and every other bit is free (R34, R35, R47, R85, R112). -/
def Obligations.LineStatusShowsThreAndDataReady : Prop :=
  ∀ (s : State) (u : Word), s.cfg.wf = true →
    (transmitReady s.cfg (lineStatusValue u s) = true ↔ s.dev.thr = none) ∧
    (lineStatusValue u s &&& zext32 s.cfg.lsrDr ≠ 0 ↔ s.dev.rxHw ≠ []) ∧
    lineStatusValue u s &&& ~~~ (zext32 s.cfg.lsrThre ||| zext32 s.cfg.lsrDr) =
      u &&& ~~~ (zext32 s.cfg.lsrThre ||| zext32 s.cfg.lsrDr)

/-- WR_LSR v is refused wherever its offset reaches LINE_STATUS (R113, the spec's decision D11); where a setting lets the offset be shared with
DIVISOR_LOW and the latch is set, the same request writes the divisor (R86). -/
def Obligations.WriteLineStatusIsRefused : Prop :=
  ∀ (s : State) (c : Nat) (v : Word), HostReady s c →
    (select s.cfg s.cfg.kLsr (dlab s) = .lineStatus → exec (.wrLsr v) s = .refused .readOnlyLineStatus) ∧
    (dlab s = true → s.cfg.kLsr = s.cfg.kDll →
      exec (.wrLsr v) s = .next { s.logTxn (.write s.cfg.kLsr .divisorLow v) with
        dev := { s.dev with dll := low8 v } })

/-- The frame of the eight reads, whatever their offset reaches: only the log, the answers, the draws and, where DATA is reached, the
FIFO's head change (R66, R100). -/
def Obligations.ReadTransactionsFrame : Prop :=
  ∀ (s t : State) (i : Instr), isRegisterRead i = true → exec i s = .next t →
    t = { s with
      dev := { s.dev with rxHw := t.dev.rxHw }
      obs := { s.obs with txnLog := t.obs.txnLog }
      answers := t.answers
      sched := { s.sched with draws := t.sched.draws } } ∧
    (∃ k, t.obs.txnLog = s.obs.txnLog ++ [.read k (select s.cfg k (dlab s))] ∧
      (select s.cfg k (dlab s) ≠ .data → t.dev.rxHw = s.dev.rxHw)) ∧
    (∃ c v, t.answers = s.answers ++ [(.host c, .rdata v)]) ∧
    (t.dev.rxHw = s.dev.rxHw ∨ ∃ b, s.dev.rxHw = b :: t.dev.rxHw)

/-- The frame of the eight writes, whatever their offset reaches: only the log and the device registers of the register reached change
(R66, R101). -/
def Obligations.WriteTransactionsFrame : Prop :=
  ∀ (s t : State) (i : Instr), (registerOf s.cfg i).isSome = true → isRegisterRead i = false →
    exec i s = .next t →
    ∃ k v, t = { s.logTxn (.write k (select s.cfg k (dlab s)) v) with dev := t.dev } ∧
      match select s.cfg k (dlab s) with
      | .data => t.dev = { s.dev with thr := t.dev.thr }
      | .intEnable => t.dev = { s.dev with ier := t.dev.ier }
      | .fifoControl => t.dev = { s.dev with thr := t.dev.thr, rxHw := t.dev.rxHw }
      | .lineControl => t.dev = { s.dev with lcr := t.dev.lcr }
      | .divisorLow => t.dev = { s.dev with dll := t.dev.dll }
      | .divisorHigh => t.dev = { s.dev with dlh := t.dev.dlh }
      | .modeSelect => t.dev = { s.dev with mdr := t.dev.mdr }
      | .lineStatus | .reserved => False

/-- Register transactions form one total order: a step appends at most one transaction to the log, and only the line of attach that starts the
logs empties it (R64, R51, R220). -/
def Obligations.TransactionsAreLoggedOneAtATime : Prop :=
  ∀ (s t : State), step s = .next t →
    t.obs.txnLog = s.obs.txnLog ∨ (∃ x, t.obs.txnLog = s.obs.txnLog ++ [x]) ∨
    (OnAttachLine .emptyLogs s ∧ t.obs.txnLog = [])

/-- Every operation but ATTACH names a handle, a register request the one it is on, and where that handle is DETACHED or TORN_DOWN the operation
is refused, whoever issues it: before attach, after detach, and on an older handle while a later one is live. No access after teardown. And
until attach has returned the handle, ATTACHED or not, every operation on it is refused but the handler's and the configuration request, each
under its own rule (R118 (b), R226, R272, R274 item 8, R280; how a register request names its handle is log 36). -/
def Obligations.OnlyAttachIsAnsweredOnADeadHandle : Prop :=
  ∀ (s : State) (i : Instr),
    (∀ h, namedHandle s i = some h → lifeOf h s = .detached ∨ lifeOf h s = .tornDown → ∃ r, exec i s = .refused r) ∧
    ((∀ base clockHz irqLine, i ≠ .attach base clockHz irqLine) → (namedHandle s i).isSome = true) ∧
    (∀ h, namedHandle s i = some h → lifeOf h s = .attaching ∨ notYetReturned h s = true →
      i ≠ .onReceiveInterrupt h → i ≠ .lineConfigure h → ∃ r, exec i s = .refused r) ∧
    (∀ h, h ≠ s.hdl.id → lifeOf h s = .detached ∨ lifeOf h s = .tornDown)

/-! ## Line configuration -/

/-- The divisor is the nested truncating division, in unbounded integers, and attach stores it in the handle it makes, in a line of its own
(R130, R220 A3; log 14, log 15). By the spec's own derivation (R131) it is one division by 1843200, zero and beyond 16 bits exactly below
and above the stated clocks; its two programmed bytes are its low 16 bits (R84). -/
def Obligations.DivisorArithmetic : Prop :=
  (∀ clockHz : Nat,
    baudDivisor clockHz = clockHz / 16 / 115200 ∧
    baudDivisor clockHz = clockHz / 1843200 ∧
    (baudDivisor clockHz = 0 ↔ clockHz < 1843200) ∧
    (65536 ≤ baudDivisor clockHz ↔ 120795955200 ≤ clockHz) ∧
    (divisorHigh (baudDivisor clockHz)).toNat * 256 + (divisorLow (baudDivisor clockHz)).toNat =
      baudDivisor clockHz % 65536) ∧
  (∀ (s : State) (c : Nat) (a : AttachCall) (rest : List Event), s.sched.inputs = .resume c :: rest →
    s.calls.find? (fun k => k.ctx == c) = some { ctx := c, kind := .attach a } → a.line = .setDivisor →
    ∃ t, step s = .next t ∧ t.hdl = { s.hdl with divisor := a.clockHz / 16 / 115200 })

/-- LINE_CONFIGURE on an ATTACHING handle whose sequence has not started performs W1 and leaves its context inside the call; on any
other handle or position it is refused (R132, R137). -/
def Obligations.LineConfigureBegins : Prop :=
  ∀ (s : State) (c h : Nat), HostTurn s c →
    (lifeOf h s = .attaching → s.hdl.cfgStep = 0 → select s.cfg s.cfg.kMdr (dlab s) = .modeSelect →
      exec (.lineConfigure h) s = .next
        { s.logTxn (.write s.cfg.kMdr .modeSelect (zext32 s.cfg.mdrDisable)) with
          dev := { s.dev with mdr := s.cfg.mdrDisable }
          hdl := { s.hdl with cfgStep := 1 }
          calls := s.calls ++ [{ ctx := c, kind := .lineConfigure h }] }) ∧
    (¬ (lifeOf h s = .attaching ∧ s.hdl.cfgStep = 0) →
      exec (.lineConfigure h) s = .refused .alreadyConfigured)

/-- Line configuration reaches the configured device from every state of the device: the nine writes (eight without the receive interrupt), one
a step, in their order and with their values, leave the registers that R134 gives, whatever they held; a context inside attach goes on to
A5, and a LINE_CONFIGURE request, which is W1 itself, ends its call with the last write (R132, R134, R135, log 19; the clear's effect, the
plain writes and the skipped W9 are the spec's decisions D14, D30, D31). -/
def Obligations.LineConfigurationReachesItsStateFromAnyState : Prop :=
  ∀ (s : State) (c : Nat) (rest : List Event), s.cfg.wf = true →
    s.hdl.life = .attaching → s.hdl.cfgStep = 0 →
    (∀ a, s.calls.find? (fun k => k.ctx == c) = some { ctx := c, kind := .attach a } → a.line = .configure →
      s.sched.inputs = List.replicate (configureWrites s.cfg) (.resume c) ++ rest →
      ∃ t, Host.Core.run core (configureWrites s.cfg) s = .next t ∧ ConfiguredFrom s t ∧
        t.calls = (toLine c a .register s).calls ∧ t.sched.inputs = rest) ∧
    (∀ on, busy c s = false →
      s.sched.inputs = .request (.host c) on (encode s.cfg (.lineConfigure s.hdl.id)) ::
        (List.replicate (configureWrites s.cfg - 1) (.resume c) ++ rest) →
      ∃ t, Host.Core.run core (configureWrites s.cfg) s = .next t ∧ ConfiguredFrom s t ∧
        t.calls = s.calls ∧ t.sched.inputs = rest)

/-- A configured line stays configured: on an ATTACHED handle with no configuration in progress, every step but a direct register request
keeps it (R138). -/
def Obligations.LineConfiguredIsKept : Prop :=
  ∀ (s t : State), s.cfg.wf = true → lineConfigured s = true → s.hdl.life = .attached →
    NoConfiguring s → directRequest (nextEvent s) = false → step s = .next t →
    lineConfigured t = true

/-! ## Transmit path -/

/-- TRANSMIT_BYTES makes a PendingWrite at its start, whatever the buffer, and changes nothing else; the polls, the puts and the return are later
steps of its context (R150, R151, R32, log 20). -/
def Obligations.TransmitBegins : Prop :=
  ∀ (s : State) (c h : Nat) (buf : List Byte), HostTurn s c → usable h s = true →
    exec (.transmitBytes h buf) s = .next { s with writes := s.writes ++
      [{ ctx := c, handle := h, txBuf := buf, txIdx := 0, txPhase := .poll, txPolls := 0, txDup := false }] }

/-- The POLL step is one LINE_STATUS read, logged with the THRE bit it saw: with the holding register empty the put comes next, else the polls
count up; once they have reached the bound the next step ends the call with TransmitFault and the index of the byte, with no transaction
(R151, R152, R154; that the raise is a step of its own is R11, that the counter goes with its read is log 20). -/
def Obligations.PollStep : Prop :=
  ∀ (s : State) (c : Nat) (w : PendingWrite) (b : Byte) (rest : List Event), s.cfg.wf = true →
    s.sched.inputs = .resume c :: rest → s.calls.find? (fun k => k.ctx == c) = none →
    s.writes.find? (fun x => x.ctx == c) = some w → w.txBuf[w.txIdx]? = some b → w.txPhase = .poll →
    ((∀ l, s.cfg.txPollLimit = some l → w.txPolls < l) →
      lifeOf w.handle s = .attached → select s.cfg s.cfg.kLsr (dlab s) = .lineStatus →
      ∃ v t, t = ((turnOf (.resume c) rest s).logTxn (.read s.cfg.kLsr .lineStatus)).drew.logPoll (.poll v) ∧
        (v ≠ 0 ↔ s.dev.thr = none) ∧
        (s.dev.thr = none → step s = .next (setWrite c { w with txPhase := .put } t)) ∧
        (s.dev.thr ≠ none → step s = .next (setWrite c { w with txPolls := w.txPolls + 1 } t))) ∧
    (∀ l, s.cfg.txPollLimit = some l → l ≤ w.txPolls →
      step s = .next ((endWrite c (turnOf (.resume c) rest s)).reply (.host c) (.transmitFault w.txIdx)))

/-- The PUT step hands the byte to DATA: then comes the second copy of a newline byte where newlines are doubled, else the next index; on an
occupied holding register it is the fault. At index `tx_len`, at once for an empty buffer, the next step returns the length of the buffer
(R151, R158, R103; that the return is a step of its own is R11, that the index goes with its write is log 20). -/
def Obligations.PutStep : Prop :=
  ∀ (s : State) (c : Nat) (w : PendingWrite) (rest : List Event),
    s.sched.inputs = .resume c :: rest → s.calls.find? (fun k => k.ctx == c) = none →
    s.writes.find? (fun x => x.ctx == c) = some w →
    (∀ b, w.txBuf[w.txIdx]? = some b → w.txPhase = .put →
      lifeOf w.handle s = .attached → select s.cfg s.cfg.kData (dlab s) = .data →
      (s.dev.thr ≠ none → step s = .fault .txOverrun) ∧
      (s.dev.thr = none →
        ∃ t, t = ({ (turnOf (.resume c) rest s).logTxn (.write s.cfg.kData .data (zext32 b)) with
            dev := { s.dev with thr := some b } }.logPoll (.put b)) ∧
          (s.cfg.nlDup = true ∧ b = s.cfg.nl ∧ w.txDup = false →
            step s = .next (setWrite c { w with txPhase := .poll, txPolls := 0, txDup := true } t)) ∧
          (¬ (s.cfg.nlDup = true ∧ b = s.cfg.nl ∧ w.txDup = false) →
            step s = .next (setWrite c
              { w with txIdx := w.txIdx + 1, txPhase := .poll, txPolls := 0, txDup := false } t)))) ∧
    (w.txBuf.length ≤ w.txIdx →
      step s = .next ((endWrite c (turnOf (.resume c) rest s)).reply (.host c) (.count w.txBuf.length)))

/-- LINE_TX is enabled exactly when the holding register is occupied and MODE_SELECT is normal; it moves the byte to the line in one step,
and THRE rises (R156). -/
def Obligations.TransmitterStep : Prop :=
  ∀ (s : State) (rest : List Event), s.sched.inputs = .lineTx :: rest →
    (∀ b, s.dev.thr = some b → s.dev.mdr = s.cfg.mdrNormal →
      ∃ t, step s = .next t ∧ thre t = true ∧
        t = { turnOf .lineTx rest s with
          line := { s.line with txLine := s.line.txLine ++ [b] }
          dev := { s.dev with thr := none } }) ∧
    (s.dev.thr = none ∨ s.dev.mdr ≠ s.cfg.mdrNormal → step s = .next (turnOf .lineTx rest s))

/-- Transmission does not fail once the status bit is observed: with at most one transmit in progress, no configuration in progress and no
direct register request, a call about to write DATA finds the holding register empty after every step, and no step faults (R153, R282). -/
def Obligations.NoOverrunUnderTheHostDuty : Prop :=
  ∀ s : State, s.cfg.wf = true → s.writes.length ≤ 1 → NoConfiguring s →
    select s.cfg s.cfg.kLsr (dlab s) = .lineStatus → directRequest (nextEvent s) = false → PutReady s →
    (∀ f, step s ≠ .fault f) ∧ (∀ t, step s = .next t → PutReady t)

/-- The line's output only grows, by the holding register's byte, and only while MODE_SELECT is normal, but for the line of attach that starts
the logs, which starts it empty (R50, R156, R52, log 27). And the transmitted stream is exactly what the put steps handed over: with no
configuration in progress and no direct register request, the bytes on the line followed by the one in the holding register are unchanged by
a step, or grow by the one byte it puts (R155, R157). -/
def Obligations.TheStreamGrowsOnlyByPuts : Prop :=
  ∀ s t : State, step s = .next t →
    (t.line.txLine = s.line.txLine ∨
      (∃ b, s.dev.thr = some b ∧ s.dev.mdr = s.cfg.mdrNormal ∧ t.line.txLine = s.line.txLine ++ [b] ∧
        t.dev.thr = none) ∨
      (OnAttachLine .emptyLogs s ∧ t.line.txLine = [])) ∧
    (s.cfg.wf = true → NoConfiguring s → directRequest (nextEvent s) = false →
      sentBytes t = sentBytes s ∨
      (∃ b, sentBytes t = sentBytes s ++ [b] ∧ t.obs.pollLog = s.obs.pollLog ++ [.put b]))

/-- A transmit of any buffer, its context and LINE_TX taking turns, puts exactly the buffer's bytes on the line, in order, a newline twice where
newlines are doubled, each after a poll that saw the holding register empty, and returns the buffer's length in a last step (R151, R153, R156,
R157, R158; the source's example S8 for every buffer; the steps are R11's, log 20's where a counter goes with its transaction). -/
def Obligations.TransmitDeliversEveryBuffer : Prop :=
  ∀ (s : State) (c : Nat) (buf : List Byte) (rest : List Event), s.cfg.wf = true →
    s.hdl.life = .attached → dlab s = false → s.dev.mdr = s.cfg.mdrNormal →
    s.dev.thr = none → s.calls.find? (fun k => k.ctx == c) = none →
    s.writes = [{ ctx := c, handle := s.hdl.id, txBuf := buf, txIdx := 0, txPhase := .poll, txPolls := 0, txDup := false }] →
    s.sched.inputs = (List.replicate (lineBytes s.cfg buf).length [Event.resume c, .resume c, .lineTx]).flatten ++
      (.resume c :: rest) →
    ∃ t, Host.Core.run core (3 * (lineBytes s.cfg buf).length + 1) s = .next t ∧
      t.line.txLine = s.line.txLine ++ lineBytes s.cfg buf ∧
      t.answers = s.answers ++ [(.host c, .count buf.length)] ∧
      t.obs.pollLog = s.obs.pollLog ++
        ((lineBytes s.cfg buf).map fun b => [PollEntry.poll (zext32 s.cfg.lsrThre), .put b]).flatten ∧
      t.writes = [] ∧ t.dev = s.dev ∧ t.ring = s.ring ∧ t.sched.inputs = rest

/-! ## Receive side -/

/-- ON_RECEIVE_INTERRUPT, by the interrupt context, where the request line is high, the handler registered, the handle live and no invocation
in progress, reads exactly one byte out of DATA, or, in the latch window that a host opened, DIVISOR_LOW's; where the invocation is not
enabled, or from any other context, it is refused. The invocation alone is a step too, enabled under the same condition, with E1 the next step
of the handler: the oldest byte, DIVISOR_LOW's, or a free one where a FIFO clear came between (R173, R174, R250, R277, log 23). -/
def Obligations.TheHandlerReadsOneByte : Prop :=
  ∀ (s : State),
    (∀ b more, s.sched.agent = .irq → s.dev.rxHw = b :: more → s.dev.ier &&& s.cfg.ierRdi ≠ 0 →
      s.hdl.handlerRegistered = true → (s.hdl.life = .attached ∨ s.hdl.life = .attaching) →
      s.irqPhase = .idle → select s.cfg s.cfg.kData (dlab s) = .data →
      exec (.onReceiveInterrupt s.hdl.id) s = .next
        { s.logTxn (.read s.cfg.kData .data) with
          dev := { s.dev with rxHw := more }
          irqPhase := .got b }) ∧
    (s.sched.agent = .irq → canInvoke s = true → dlab s = true → s.cfg.kData = s.cfg.kDll →
      exec (.onReceiveInterrupt s.hdl.id) s = .next
        { s.logTxn (.read s.cfg.kData .divisorLow) with irqPhase := .got s.dev.dll }) ∧
    (∀ h, s.sched.agent = .irq → (h ≠ s.hdl.id ∨ canInvoke s = false) →
      exec (.onReceiveInterrupt h) s = .refused .interruptNotEnabled) ∧
    (∀ h, s.sched.agent ≠ .irq → exec (.onReceiveInterrupt h) s = .refused .wrongContext) ∧
    (∀ rest, s.sched.inputs = .irqEnter :: rest →
      (canInvoke s = true → step s = .next { turnOf .irqEnter rest s with irqPhase := .entered }) ∧
      (canInvoke s = false → step s = .next (turnOf .irqEnter rest s))) ∧
    (∀ rest, s.sched.inputs = .irqStep :: rest → s.irqPhase = .entered →
      (s.hdl.life = .attached ∨ s.hdl.life = .attaching) →
      (select s.cfg s.cfg.kData (dlab s) = .data → ∀ b more, s.dev.rxHw = b :: more →
        step s = .next { (turnOf .irqStep rest s).logTxn (.read s.cfg.kData .data) with
          dev := { s.dev with rxHw := more }
          irqPhase := .got b }) ∧
      (select s.cfg s.cfg.kData (dlab s) = .data → s.dev.rxHw = [] →
        step s = .next { ((turnOf .irqStep rest s).logTxn (.read s.cfg.kData .data)).drew with
          irqPhase := .got (low8 (Config.any32 s.sched.draws)) }) ∧
      (dlab s = true → s.cfg.kData = s.cfg.kDll →
        step s = .next { (turnOf .irqStep rest s).logTxn (.read s.cfg.kData .divisorLow) with
          irqPhase := .got s.dev.dll })) ∧
    (∀ rest, s.sched.inputs = .irqStep :: rest → s.irqPhase = .idle → step s = .next (turnOf .irqStep rest s))

/-- E2 compares the next cursor with some value of `read_index` that the producer may still see: equal, the byte is dropped and counted and
the handler returns, nothing else of the ring changing; different, the byte is stored at `write_index`, not yet published (R173, R175, R176). -/
def Obligations.TheHandlerStoresOrDrops : Prop :=
  ∀ (s : State) (b : Byte) (rest : List Event), s.sched.inputs = .irqStep :: rest → s.irqPhase = .got b →
    ∃ rObs, (rObs ∈ s.ring.readSeen ∨ rObs = s.ring.readIndex) ∧
      (cursorNext s.cfg.ringSlots s.ring.writeIndex = rObs →
        step s = .next { (turnOf .irqStep rest s).drew with
          ring := { s.ring with loss := s.ring.loss + 1, readSeen := [s.ring.readIndex] }
          irqPhase := .idle }) ∧
      (cursorNext s.cfg.ringSlots s.ring.writeIndex ≠ rObs →
        step s = .next { (turnOf .irqStep rest s).drew with
          ring := { s.ring with
            buf := Memory.write s.ring.writeIndex b s.ring.buf
            readSeen := [s.ring.readIndex] }
          irqPhase := .stored (cursorNext s.cfg.ringSlots s.ring.writeIndex) })

/-- A byte that finds the ring full is always dropped and counted, however old the producer's view of `read_index` is; with a fresh view a byte
that finds it not full is always stored (R71, R172, R176, R284). -/
def Obligations.AFullRingAlwaysDrops : Prop :=
  ∀ (s : State) (b : Byte) (rest : List Event), RingInv s → s.sched.inputs = .irqStep :: rest →
    s.irqPhase = .got b →
    (ringFull s = true → ∃ t, step s = .next t ∧ t.ring.loss = s.ring.loss + 1 ∧ t.ring.buf = s.ring.buf ∧
      t.ring.writeIndex = s.ring.writeIndex ∧ t.ring.readIndex = s.ring.readIndex ∧
      t.obs.wakeCount = s.obs.wakeCount ∧ t.irqPhase = .idle) ∧
    (ringFull s = false → (∀ v ∈ s.ring.readSeen, v = s.ring.readIndex) →
      ∃ t, step s = .next t ∧ t.ring.loss = s.ring.loss ∧
        Memory.read s.ring.writeIndex t.ring.buf = some b ∧
        t.irqPhase = .stored (cursorNext s.cfg.ringSlots s.ring.writeIndex))

/-- E3 publishes the cursor, issues one signal and returns, and changes nothing else, `cons_lock` included, but for the model's record of what
consumers may see; from then on a waiting consumer's predicate is evaluated against the new cursor, the only one it may still see, and decides
whether it may take a byte (its handle being ATTACHED, as R201 has it of every reader); a step that drops its byte issues no signal (R177). -/
def Obligations.TheHandlerPublishes : Prop :=
  ∀ (s : State) (rest : List Event), s.sched.inputs = .irqStep :: rest →
    (∀ next, s.irqPhase = .stored next →
      ∃ t, step s = .next t ∧
        t = { turnOf .irqStep rest s with
          ring := { s.ring with writeIndex := next, published := t.ring.published }
          obs := { s.obs with wakeCount := s.obs.wakeCount + 1 }
          irqPhase := .idle } ∧
        notEmpty t = decide (next ≠ s.ring.readIndex) ∧
        (∀ r ∈ s.cons, r.phase = .waiting → sinceWake r.ctx t.ring.published = [next]) ∧
        (∀ c r, consumerOf c s = some r → r.phase = .waiting → s.consLock = .free → s.hdl.life = .attached →
          dequeueEnabled c t = notEmpty t)) ∧
    (∀ b t, s.irqPhase = .got b → step s = .next t → t.obs.wakeCount = s.obs.wakeCount)

/-- Every invocation that ends has either stored its byte, which this step publishes with one signal, or dropped it in this step, counting one
loss and not signalling (R176, R177, R182 (4)). -/
def Obligations.EveryInvocationStoresOrCounts : Prop :=
  ∀ (s t : State), LifeInv s → step s = .next t → s.irqPhase ≠ .idle → t.irqPhase = .idle →
    (s.irqPhase = .stored t.ring.writeIndex ∧ t.ring.buf = s.ring.buf ∧
      t.obs.wakeCount = s.obs.wakeCount + 1 ∧ t.ring.loss = s.ring.loss) ∨
    ((∃ b, s.irqPhase = .got b) ∧ t.ring.buf = s.ring.buf ∧ t.ring.writeIndex = s.ring.writeIndex ∧
      t.obs.wakeCount = s.obs.wakeCount ∧ t.ring.loss = s.ring.loss + 1)

/-- LINE_RX, always enabled: the next byte of the supply, any byte where none is listed, joins the end of the hardware FIFO, or is lost, and
counted nowhere, where that is full (R180, R181). -/
def Obligations.TheReceiverStep : Prop :=
  ∀ (s : State) (rest : List Event), s.sched.inputs = .lineRx :: rest →
    (∀ b more, s.line.rxLine = b :: more →
      (s.dev.rxHw.length < s.cfg.rxHwDepth →
        step s = .next { turnOf .lineRx rest s with
          dev := { s.dev with rxHw := s.dev.rxHw ++ [b] }
          line := { s.line with rxLine := more } }) ∧
      (s.cfg.rxHwDepth ≤ s.dev.rxHw.length →
        step s = .next { turnOf .lineRx rest s with line := { s.line with rxLine := more } })) ∧
    (s.line.rxLine = [] →
      (s.dev.rxHw.length < s.cfg.rxHwDepth →
        step s = .next { (turnOf .lineRx rest s).drew with
          dev := { s.dev with rxHw := s.dev.rxHw ++ [Config.any8 s.sched.draws] } }) ∧
      (s.cfg.rxHwDepth ≤ s.dev.rxHw.length → step s = .next (turnOf .lineRx rest s).drew))

/-- Every step keeps the ring's invariant: cursors in range, cells canonical, every held byte stored, an older view of `read_index` never
letting the producer overwrite a held byte, the newest recorded value of `write_index` the current one (R170, R69, R71, R176; log 21). The
lifecycle's invariant, a statement of its own, is a premise: attach starts the ring while no invocation is in progress. -/
def Obligations.EveryStepKeepsTheRing : Prop :=
  ∀ s t : State, RingInv s → LifeInv s → step s = .next t → RingInv t

/-- The ring is a FIFO queue: under its invariant a step leaves the held bytes as they are and answers no byte, or publishes the stored byte at
their end, or takes the oldest one and answers it to one reader of an ATTACHED handle, or empties the ring for a new handle and answers no byte
(R182, R203, R220, R223). -/
def Obligations.TheRingIsAQueue : Prop :=
  ∀ s t : State, RingInv s → LifeInv s → step s = .next t →
    (ringHeld t = ringHeld s ∧ ∀ a b, t.answers ≠ s.answers ++ [(a, .byte b)]) ∨
    (∃ next b, s.irqPhase = .stored next ∧ Memory.read s.ring.writeIndex s.ring.buf = some b ∧
      ringHeld t = ringHeld s ++ [b] ∧ t.answers = s.answers) ∨
    (∃ c b, s.hdl.life = .attached ∧ ringHeld s = b :: ringHeld t ∧ t.answers = s.answers ++ [(.host c, .byte b)]) ∨
    (OnAttachLine .emptyRing s ∧ ringHeld t = [] ∧ t.answers = s.answers)

/-- One producer, one consumer role: but for the ring that attach starts, `write_index` moves only when the handler publishes, `loss` only when
it drops, and `read_index` only when a waiting or locked consumer takes a byte; detach moves none of them (INV4 of R170, R22, R23, R24, R65,
R254, R281). -/
def Obligations.EachCursorHasOneWriter : Prop :=
  ∀ s t : State, step s = .next t → ¬ OnAttachLine .emptyRing s →
    (t.ring.writeIndex ≠ s.ring.writeIndex →
      nextEvent s = .irqStep ∧ s.irqPhase = .stored t.ring.writeIndex) ∧
    (t.ring.loss ≠ s.ring.loss → nextEvent s = .irqStep ∧ ∃ b, s.irqPhase = .got b) ∧
    (t.ring.buf ≠ s.ring.buf → nextEvent s = .irqStep ∧ ∃ b, s.irqPhase = .got b ∧
      t.ring.buf = Memory.write s.ring.writeIndex b s.ring.buf) ∧
    (t.ring.readIndex ≠ s.ring.readIndex →
      ∃ c, (nextEvent s = .dequeue c ∨ nextEvent s = .takeLocked c) ∧ (consumerOf c s).isSome = true ∧
        t.ring.readIndex = cursorNext s.cfg.ringSlots s.ring.readIndex)

/-! ## Blocking read -/

/-- READ_ONE_BYTE, step D1: the context is suspended with a record of its own, and nothing else changes (R201). READ_LOSS_COUNTER returns `loss`
and changes nothing but the answers (R208, the spec's decision D22). -/
def Obligations.ReaderCallsAreAccepted : Prop :=
  ∀ (s : State) (c h : Nat), HostTurn s c → usable h s = true →
    exec (.readOneByte h) s = .next
      { s with cons := s.cons ++ [{ ctx := c, phase := .waiting, cancelReq := false }] } ∧
    exec (.readLossCounter h) s = .next (s.reply (.host c) (.lossCount s.ring.loss))

/-- D2: a waiting consumer of an ATTACHED handle that finds the lock free and the ring not empty takes the oldest byte, advances `read_index`,
and its call returns the byte; while its guard is false, and on a handle that is not ATTACHED any more, the consumer has no step (R201, R202,
R206; the bytes of a torn-down handle are discarded with it, R223, log 25). -/
def Obligations.DequeueTakesTheOldestByte : Prop :=
  ∀ (s : State) (c : Nat) (r : Consumer) (rest : List Event), s.sched.inputs = .dequeue c :: rest →
    consumerOf c s = some r →
    (r.phase = .waiting → s.consLock = .free → s.ring.writeIndex ≠ s.ring.readIndex → s.hdl.life = .attached →
      step s = .next ({ turnOf (.dequeue c) rest s with
        ring := { s.ring with
          readIndex := cursorNext s.cfg.ringSlots s.ring.readIndex
          readSeen := s.ring.readSeen ++ [cursorNext s.cfg.ringSlots s.ring.readIndex] }
        cons := s.cons.filter (fun x => x.ctx != c)
        consLock := .free }.reply (.host c) (.byte (slotContent s s.ring.readIndex)))) ∧
    (r.phase = .taking ∨ s.consLock ≠ .free ∨ s.ring.writeIndex = s.ring.readIndex ∨ s.hdl.life ≠ .attached →
      step s = .next (turnOf (.dequeue c) rest s))

/-- The finer grain of D2 (log 22). The unlocked test uses some value of `write_index` that the consumer may still see (R71, log 21): where that
makes the ring look empty the consumer stays suspended; else it takes the lock, and the test under the lock is exact: with a byte there, the
two steps end in the same state as D2 in one step; with none, the lock is released and the consumer waits again, as if it had not moved. Only
the count of draws tells them apart (R201, R71, R73, R202). -/
def Obligations.LockThenTakeIsTheAtomicDequeue : Prop :=
  ∀ (s : State) (c : Nat) (rest : List Event), mayTest c s = true → (∀ r ∈ s.cons, r.ctx = c → r.phase = .waiting) →
    ∃ v, (v ∈ sinceWake c s.ring.published ∨ v = s.ring.writeIndex) ∧
      (v = s.ring.readIndex → step { s with sched := { s.sched with inputs := .lock c :: rest } } =
        .next (turnOf (.lock c) rest s).drew) ∧
      (v ≠ s.ring.readIndex → s.ring.writeIndex ≠ s.ring.readIndex →
        ∃ t, Host.Core.run core 2 { s with sched := { s.sched with inputs := .lock c :: .takeLocked c :: rest } } = .next t.drew ∧
          step { s with sched := { s.sched with inputs := .dequeue c :: rest } } = .next t) ∧
      (v ≠ s.ring.readIndex → s.ring.writeIndex = s.ring.readIndex →
        Host.Core.run core 2 { s with sched := { s.sched with inputs := .lock c :: .takeLocked c :: rest } } =
          .next (turnOf (.takeLocked c) rest s).drew)

/-- CANCEL marks the record of the consumer it names and changes nothing else; aimed at a context with no call in progress it has no effect;
ENV_CANCEL and an ordinary context outside every call may issue it (R204, R205). -/
def Obligations.CancelMarksTheConsumer : Prop :=
  ∀ (s : State) (h c : Nat), (s.sched.agent = .envCancel ∨ ∃ a, HostTurn s a) → usable h s = true →
    exec (.cancel h c) s = .next { s with cons := s.cons.map fun r =>
      if r.ctx = c then { r with cancelReq := true } else r } ∧
    ((∀ r ∈ s.cons, r.ctx ≠ c) → exec (.cancel h c) s = .next s)

/-- D3: a cancelled waiting consumer's call ends with InterruptedError, to that caller only, and touches nothing but its own record; without a
cancel there is no such step (R201, R204, R244). -/
def Obligations.InterruptedReadLeavesTheRing : Prop :=
  ∀ (s : State) (c : Nat) (r : Consumer) (rest : List Event), s.sched.inputs = .interrupted c :: rest →
    consumerOf c s = some r →
    (r.phase = .waiting → r.cancelReq = true →
      step s = .next ({ turnOf (.interrupted c) rest s with
        cons := s.cons.filter (fun x => x.ctx != c) }.reply (.host c) .interruptedError)) ∧
    (r.phase = .taking ∨ r.cancelReq = false → step s = .next (turnOf (.interrupted c) rest s))

/-- `InterruptedError` is answered by step D3 alone, to the cancelled waiting consumer itself, and the ring is as it was (R244). -/
def Obligations.InterruptedErrorComesOnlyFromD3 : Prop :=
  ∀ (s t : State) (a : Agent), step s = .next t → t.answers = s.answers ++ [(a, .interruptedError)] →
    t.ring = s.ring ∧ ∃ c r, nextEvent s = .interrupted c ∧ a = .host c ∧
      consumerOf c s = some r ∧ r.phase = .waiting ∧ r.cancelReq = true

/-- Every step keeps the lock's discipline: one record per context, and the lock held exactly by the record in phase TAKING (R29, R73). -/
def Obligations.EveryStepKeepsTheLock : Prop :=
  ∀ s t : State, LockInv s → step s = .next t → LockInv t

/-! ## Lifecycle -/

/-- ATTACH, line A1: arguments that are not good are answered with BAD_ARGUMENT and nothing else changes; good ones put the context inside the
call, at A2, and nothing else changes: no resource is taken and no handle exists yet (R220 A1, R221, the spec's decision D9; that the later
lines of R220 are steps of their own is R11, log 15). -/
def Obligations.AttachChecksItsArguments : Prop :=
  ∀ (s : State) (c base clockHz irqLine : Nat), HostTurn s c →
    (base % 4 ≠ 0 ∨ clockHz = 0 →
      exec (.attach base clockHz irqLine) s = .next (s.reply (.host c) (.attachError .badArgument))) ∧
    (base % 4 = 0 → 1 ≤ clockHz →
      exec (.attach base clockHz irqLine) s = .next { s with
        calls := s.calls ++ [{ ctx := c, kind := .attach (startAttach base clockHz irqLine) }] })

/-- A2 reports the first resource that is not available and changes nothing but the call and the answers: the window, where ENV_ATTACH says
so, where the live handle or another attach holds it, or where it does not lie in the address space (log 18); then the interrupt line; then
the window again where the one device has its handle already, on another base (log 17). With both it goes on to A3 (R220 A2, R221, R222,
R253 (g), R240; the answers of ENV_ATTACH are log 16). -/
def Obligations.AttachTestsItsResources : Prop :=
  ∀ (s : State) (c : Nat) (a : AttachCall) (rest : List Event), s.sched.inputs = .resume c :: rest →
    s.calls.find? (fun k => k.ctx == c) = some { ctx := c, kind := .attach a } →
    (a.line = .testWindow →
      (s.env.windowAvail = false ∨ windowHeld a.base s = true ∨ windowFits s.cfg a.base = false →
        step s = .next (failAttach c .windowUnavailable (turnOf (.resume c) rest s))) ∧
      (s.env.windowAvail = true → windowHeld a.base s = false → windowFits s.cfg a.base = true →
        step s = .next (toLine c a .testIrq (turnOf (.resume c) rest s)))) ∧
    (a.line = .testIrq →
      (s.env.irqAvail = false → step s = .next (failAttach c .irqUnavailable (turnOf (.resume c) rest s))) ∧
      (s.env.irqAvail = true → deviceOwned s = true →
        step s = .next (failAttach c .windowUnavailable (turnOf (.resume c) rest s))) ∧
      (s.env.irqAvail = true → deviceOwned s = false →
        step s = .next (toLine c a .makeHandle (turnOf (.resume c) rest s)))) ∧
    (handleLive s = true → windowHeld s.hdl.base s = true ∧ deviceOwned s = true)

/-- A3, its seven lines one after the other: a new handle with the next number, the arguments and the divisor, ATTACHING, no handler registered
(log 35), `cfg_step` 0; the ring empty, no consumer, the lock free, the handler idle, the logs and `tx_line` empty (log 27); no device
register changes and no transaction is made (R220 A3, R130, R52; log 14, log 15). -/
def Obligations.AttachFillsInTheHandle : Prop :=
  ∀ (s : State) (c : Nat) (a : AttachCall) (rest : List Event),
    s.calls.find? (fun k => k.ctx == c) = some { ctx := c, kind := .attach a } → a.line = .makeHandle →
    s.sched.inputs = List.replicate 7 (.resume c) ++ rest →
    Host.Core.run core 7 s = .next { turnOf (.resume c) rest s with
      hdl := { id := s.hdl.id + 1, base := a.base, clockHz := a.clockHz, irqLine := a.irqLine,
               divisor := a.clockHz / 16 / 115200, life := .attaching, handlerRegistered := false, cfgStep := 0 }
      ring := { buf := [], writeIndex := 0, readIndex := 0, loss := 0, readSeen := [0], published := [{ value := 0, woke := [] }] }
      cons := []
      consLock := .free
      irqPhase := .idle
      obs := { wakeCount := 0, pollLog := [], txnLog := [] }
      line := { s.line with txLine := [] }
      calls := (toLine c { a with made := s.hdl.id + 1 } .configure s).calls }

/-- A5 registers the handler where the receive interrupt is enabled, and only there; A6 makes the handle ATTACHED, still of no use to a host,
and then, in a step of its own, ends the call and returns the handle it has made; where the sequence of A4 is over already, A4's step only
goes on (R220 A4 to A6, R135, R272, R11, log 15, log 19). -/
def Obligations.AttachRegistersThenReturns : Prop :=
  ∀ (s : State) (c : Nat) (a : AttachCall) (rest : List Event), s.sched.inputs = .resume c :: rest →
    s.calls.find? (fun k => k.ctx == c) = some { ctx := c, kind := .attach a } →
    (a.line = .configure → configureDone s = true → step s = .next (toLine c a .register (turnOf (.resume c) rest s))) ∧
    (a.line = .register → step s = .next (toLine c a .setAttached { turnOf (.resume c) rest s with
      hdl := { s.hdl with handlerRegistered := s.hdl.handlerRegistered || s.cfg.rxIrqEnabled } })) ∧
    (a.line = .setAttached → ∃ t, step s = .next t ∧ usable a.made t = false ∧
      t = toLine c a .giveHandle { turnOf (.resume c) rest s with hdl := { s.hdl with life := .attached } }) ∧
    (a.line = .giveHandle → step s = .next
      ((endCall c (turnOf (.resume c) rest s)).reply (.host c) (.handle a.made)))

/-- A whole attach, no other agent intervening, with and without the receive interrupt, leaves the state R271 describes, whatever the device
held: the ring empty, the registers configured (the spec's decisions D14, D20, D30, D31, D32), the handler registered where it is wanted, the handle
ATTACHED and returned, `tx_line` and the logs begun anew (R220, R271, R52; log 14, log 15, log 27). -/
def Obligations.AttachReachesTheConfiguredState : Prop :=
  ∀ (s : State) (c on base clockHz irqLine : Nat) (rest : List Event), s.cfg.wf = true →
    busy c s = false → base % 4 = 0 → 1 ≤ clockHz →
    windowFits s.cfg base = true → s.env.windowAvail = true → s.env.irqAvail = true →
    windowHeld base s = false → deviceOwned s = false →
    s.sched.inputs = .request (.host c) on (encode s.cfg (.attach base clockHz irqLine)) ::
      (List.replicate (12 + configureWrites s.cfg) (.resume c) ++ rest) →
    ∃ t, Host.Core.run core (13 + configureWrites s.cfg) s = .next t ∧
      t.hdl = { id := s.hdl.id + 1, base := base, clockHz := clockHz, irqLine := irqLine,
                divisor := clockHz / 16 / 115200, life := .attached, handlerRegistered := s.cfg.rxIrqEnabled,
                cfgStep := configureWrites s.cfg } ∧
      t.ring.writeIndex = 0 ∧ t.ring.readIndex = 0 ∧ t.ring.loss = 0 ∧ t.cons = [] ∧ t.consLock = .free ∧
      t.dev = { thr := none, rxHw := [], lcr := s.cfg.lcrWlen8,
                dll := divisorLow (clockHz / 16 / 115200), dlh := divisorHigh (clockHz / 16 / 115200),
                mdr := s.cfg.mdrNormal, ier := if s.cfg.rxIrqEnabled then s.cfg.ierRdi else s.dev.ier } ∧
      t.irqPhase = .idle ∧ t.obs.wakeCount = 0 ∧ t.obs.pollLog = [] ∧ t.obs.txnLog.length = configureWrites s.cfg ∧
      t.line = { s.line with txLine := [] } ∧ t.calls = s.calls ∧ t.sched.inputs = rest ∧
      t.answers = s.answers ++ [(.host c, .handle (s.hdl.id + 1))]

/-- DETACH with the readers and writers quiet unregisters the handler and leaves its context inside the call, writing no register; otherwise it
is refused (R223 T1, R224). -/
def Obligations.DetachUnregisters : Prop :=
  ∀ (s : State) (c h : Nat), HostTurn s c → usable h s = true →
    (s.cons = [] → (∀ w ∈ s.writes, w.handle ≠ h) →
      exec (.detach h) s = .next { s with
        hdl := { s.hdl with handlerRegistered := false }
        calls := s.calls ++ [{ ctx := c, kind := .detach h }] }) ∧
    (s.cons ≠ [] ∨ (∃ w ∈ s.writes, w.handle = h) → exec (.detach h) s = .refused .notQuiet)

/-- The second step of detach waits for an invocation in progress; then the handle is TORN_DOWN and the call is over, and no register, cursor,
count or slot is written; the bytes still in the ring are discarded with the handle: in the state this leaves no consumer has a step that
takes one, and one that holds the lock in the finer grain has the step back to WAITING with the lock released. Where the call's handle is
no longer the latest one, only the call ends (R223 T2, R224, R273; log 25). -/
def Obligations.DetachTearsDown : Prop :=
  ∀ (s : State) (c h : Nat) (rest : List Event), s.sched.inputs = .resume c :: rest →
    s.calls.find? (fun k => k.ctx == c) = some { ctx := c, kind := .detach h } →
    (s.irqPhase = .idle → h = s.hdl.id →
      ∃ t, step s = .next t ∧ (∀ x, dequeueStep x t = t ∧ lockStep x t = t ∧ takeLockedStep x t =
          if (consumerOf x s).any (fun r => r.phase == .taking) && s.consLock == .held x then
            setPhase x .waiting { t with consLock := .free } else t) ∧
        t = { turnOf (.resume c) rest s with
        hdl := { s.hdl with life := .tornDown }
        calls := s.calls.filter (fun k => k.ctx != c) }) ∧
    (s.irqPhase = .idle → h ≠ s.hdl.id → step s = .next (endCall c (turnOf (.resume c) rest s))) ∧
    (s.irqPhase ≠ .idle → step s = .next (turnOf (.resume c) rest s))

/-- Every step keeps the lifecycle's invariant: an attached handle has been configured, a handler is registered only on a live and configured
handle, without a live handle no invocation is in progress, a context is inside at most one call, at most one attach is making a handle, and
every call is where its position says (R31, R40, R220, R223; that attach and detach take several steps is R11, log 15 and log 25). -/
def Obligations.EveryStepKeepsTheLifecycle : Prop :=
  ∀ s t : State, LifeInv s → step s = .next t → LifeInv t

/-- Every step keeps each context inside at most one call, the position of each transmit call inside its buffer, and the hardware FIFO within
its depth (R209, R256, R32, R26). -/
def Obligations.EveryStepKeepsThePositionsInRange : Prop :=
  ∀ s t : State, step s = .next t →
    (ContextInv s → ContextInv t) ∧ (WritesInv s → WritesInv t) ∧ (FifoInv s → FifoInv t)

/-- The parameters never change; while a handle is live its number, base, clock, interrupt line and divisor never change either; and the number
only goes up, by one (R6, R27, log 14). -/
def Obligations.ParametersAndHandleFieldsAreFixed : Prop :=
  ∀ s t : State, step s = .next t →
    t.cfg = s.cfg ∧
    (LifeInv s → handleLive s = true → t.hdl.id = s.hdl.id ∧ t.hdl.base = s.hdl.base ∧
      t.hdl.clockHz = s.hdl.clockHz ∧ t.hdl.irqLine = s.hdl.irqLine ∧ t.hdl.divisor = s.hdl.divisor) ∧
    (t.hdl.id = s.hdl.id ∨ (OnAttachLine .makeHandle s ∧ t.hdl.id = s.hdl.id + 1))

/-- The frame of the operations that are no register transaction and no part of one, at their request: only the calls in progress, the consumer
records and the answers may change, and, for DETACH, the registration of the handler; the device registers, the line, the ring with all its
slots and cursors, and the logs are as they were (R151, R201, R204, R208, R209, R220, R223; log 15, log 25). -/
def Obligations.OperationsLeaveTheDeviceAlone : Prop :=
  ∀ (s t : State) (i : Instr), registerOf s.cfg i = none →
    (∀ h, i ≠ .lineConfigure h ∧ i ≠ .onReceiveInterrupt h) → exec i s = .next t →
    t = { s with
      hdl := { s.hdl with handlerRegistered := t.hdl.handlerRegistered }
      cons := t.cons
      writes := t.writes
      calls := t.calls
      answers := t.answers } ∧
    ((∀ h, i ≠ .detach h) → t.hdl = s.hdl) ∧
    ((∀ h, i ≠ .readOneByte h) → (∀ h c, i ≠ .cancel h c) → t.cons = s.cons) ∧
    ((∀ h buf, i ≠ .transmitBytes h buf) → t.writes = s.writes) ∧
    ((∀ base clockHz irqLine, i ≠ .attach base clockHz irqLine) → (∀ h, i ≠ .detach h) → t.calls = s.calls)

/-- Power-on: the values the spec fixes, which are its own bookkeeping (R52, R270), and every invariant, under legal default parameters. Every
other power-on value is the model's choice (log 3, log 4), and no clause rests on one but through an invariant. -/
def Obligations.PowerOnMeetsEveryInvariant : Prop :=
  State.reset.hdl.life = .detached ∧ State.reset.hdl.handlerRegistered = false ∧
  State.reset.line.txLine = [] ∧ State.reset.obs.pollLog = [] ∧ State.reset.obs.txnLog = [] ∧
  State.reset.obs.wakeCount = 0 ∧
  State.reset.cfg.wf = true ∧ RingInv State.reset ∧ LockInv State.reset ∧ ContextInv State.reset ∧
  WritesInv State.reset ∧ LifeInv State.reset ∧ FifoInv State.reset ∧ PutReady State.reset
end

