-- ==== Sys2Proof/Laws/Decode.lean ====
section
/-! SUPPORT. What a legal setting of the parameters gives: the offsets that differ, the selection of every register (R86), and the masks'
bits (R119); and that a request's fields read back. -/

namespace Sys2Proof

/-- The offsets a legal setting keeps apart, and their range (R86, R81). -/
theorem Config.wf_offsets {cfg : Config} (h : cfg.wf = true) :
    [cfg.kFcr, cfg.kLcr, cfg.kLsr, cfg.kMdr, cfg.kData, cfg.kIer].Nodup ∧
    cfg.kDll ≠ cfg.kDlh ∧ cfg.kDll ≠ cfg.kLcr ∧ cfg.kDlh ≠ cfg.kLcr ∧ ∀ k ∈ cfg.offsets, k < 128 := by
  simp only [Config.wf, Config.offsetsOk, Bool.and_eq_true, decide_eq_true_eq, bne_iff_ne, List.all_eq_true] at h
  exact ⟨h.1.1.1.1.1.1, h.1.1.1.1.1.2, h.1.1.1.1.2, h.1.1.1.2, h.1.1.2⟩

/-- The masks a legal setting keeps apart (R119). -/
theorem Config.wf_masks {cfg : Config} (h : cfg.wf = true) :
    oneBit cfg.lcrDlab = true ∧ oneBit cfg.lsrThre = true ∧ oneBit cfg.lsrDr = true ∧ oneBit cfg.ierRdi = true ∧
    oneBit cfg.fcrClearRcvr = true ∧ oneBit cfg.fcrClearXmit = true ∧ cfg.lsrThre ≠ cfg.lsrDr ∧
    cfg.fcrClearRcvr ≠ cfg.fcrClearXmit ∧ cfg.lcrWlen8 &&& cfg.lcrDlab = 0 ∧ cfg.mdrDisable ≠ cfg.mdrNormal := by
  simp only [Config.wf, Config.masksOk, Bool.and_eq_true, bne_iff_ne, beq_iff_eq] at h
  obtain ⟨⟨_, ⟨⟨⟨⟨⟨⟨⟨⟨⟨h1, h2⟩, h3⟩, h4⟩, h5⟩, h6⟩, h7⟩, h8⟩, h9⟩, h10⟩⟩, _⟩ := h
  exact ⟨h1, h2, h3, h4, h5, h6, h7, h8, h9, h10⟩

/-- A one-bit mask is one of the eight. -/
theorem Config.oneBit_cases {m : Byte} (h : oneBit m = true) : ∃ i < 8, m = 1#8 <<< i := by
  revert h
  revert m
  decide

/-- A divisor register is reached exactly at its offset with the latch set (R86). -/
theorem select_divisor (cfg : Config) (k : Nat) (d : Bool) :
    (select cfg k d = .divisorLow ↔ d = true ∧ k = cfg.kDll) ∧
    (select cfg k d = .divisorHigh ↔ d = true ∧ k ≠ cfg.kDll ∧ k = cfg.kDlh) := by
  unfold select
  repeat' split
  all_goals simp_all

/-- With the latch clear each of the six other registers is reached at its own offset. -/
theorem select_clear {cfg : Config} (h : cfg.wf = true) :
    select cfg cfg.kData false = .data ∧ select cfg cfg.kIer false = .intEnable ∧
    select cfg cfg.kFcr false = .fifoControl ∧ select cfg cfg.kLcr false = .lineControl ∧
    select cfg cfg.kLsr false = .lineStatus ∧ select cfg cfg.kMdr false = .modeSelect := by
  have hn := (Config.wf_offsets h).1
  simp only [List.nodup_cons, List.mem_cons, not_or, List.not_mem_nil, not_false_eq_true, and_true] at hn
  obtain ⟨⟨h1, h2, h3, h4, h5⟩, ⟨h6, h7, h8, h9⟩, ⟨h10, h11, h12⟩, ⟨h13, h14⟩, h15, _⟩ := hn
  simp [select, Ne.symm h1, Ne.symm h2, Ne.symm h3, Ne.symm h4, Ne.symm h5, Ne.symm h6, Ne.symm h7, Ne.symm h8, Ne.symm h9,
    Ne.symm h10, Ne.symm h11, Ne.symm h12, Ne.symm h13, Ne.symm h14, Ne.symm h15]

/-- With the latch set the divisor registers are reached at their offsets, and LINE_CONTROL still at its own. -/
theorem select_set {cfg : Config} (h : cfg.wf = true) :
    select cfg cfg.kDll true = .divisorLow ∧ select cfg cfg.kDlh true = .divisorHigh ∧
    select cfg cfg.kLcr true = .lineControl := by
  obtain ⟨hn, h1, h2, h3, _⟩ := Config.wf_offsets h
  have h4 : cfg.kLcr ≠ cfg.kFcr := by
    simp only [List.nodup_cons, List.mem_cons, not_or] at hn
    exact Ne.symm hn.1.1
  simp [select, Ne.symm h1, Ne.symm h2, Ne.symm h3, h4]

/-- The direction and the offset of an encoded register request read back (R81). -/
theorem request_fields (w : Bool) {k : Nat} (hk : k < 128) :
    requestIsWrite (BitVec.ofBool w ++ BitVec.ofNat 7 k) = w ∧
    requestOffset (BitVec.ofBool w ++ BitVec.ofNat 7 k) = k := by
  constructor
  · show (BitVec.ofBool w ++ BitVec.ofNat 7 k : BitVec (1 + 7)).msb = w
    rw [BitVec.msb_append]
    cases w <;> simp
  · simp only [requestOffset]
    rw [BitVec.extractLsb'_append_eq_right, BitVec.toNat_ofNat]
    exact Nat.mod_eq_of_lt hk

/-- The value of an encoded register request reads back (R81). -/
theorem request_data (v : Word) :
    requestData (v.extractLsb' 24 8) (v.extractLsb' 16 8) (v.extractLsb' 8 8) (v.extractLsb' 0 8) = v := by
  apply BitVec.eq_of_getLsbD_eq
  intro i hi
  simp only [requestData, BitVec.getLsbD_append, BitVec.getLsbD_extractLsb']
  rcases Nat.lt_or_ge i 8 with h | h
  · simp [h]
  · rcases Nat.lt_or_ge i 16 with h2 | h2
    · have : i - 8 < 8 := by omega
      simp [this, show ¬ i < 8 by omega]
      congr 1; omega
    · rcases Nat.lt_or_ge i 24 with h3 | h3
      · simp [show ¬ i < 8 by omega, show ¬ i - 8 < 8 by omega, show i - 8 - 8 < 8 by omega]
        congr 1; omega
      · simp [show ¬ i < 8 by omega, show ¬ i - 8 < 8 by omega, show ¬ i - 8 - 8 < 8 by omega, show i - 8 - 8 - 8 < 8 by omega]
        congr 1; omega

end Sys2Proof
end

