-- ==== Sys2Proof/Laws/Memory.lean ====
section
/-! SUPPORT. The ring's slots: a read after a write, the other slots, and that the canonical form is kept. -/

namespace Sys2Proof.Machine

theorem Memory.read_write_same (a : Nat) (b : Byte) (m : Memory) :
    Memory.read a (Memory.write a b m) = some b := by
  induction m with
  | nil => simp [Memory.write, Memory.read]
  | cons x rest ih =>
    obtain ⟨k, y⟩ := x
    simp only [Memory.write]
    split
    · simp [Memory.read]
    · split
      · simp [Memory.read]
      · rename_i _ h
        simp only [Memory.read, if_neg (Ne.symm h), ih]

theorem Memory.read_write_other {a c : Nat} (h : c ≠ a) (b : Byte) (m : Memory) :
    Memory.read c (Memory.write a b m) = Memory.read c m := by
  induction m with
  | nil => simp [Memory.write, Memory.read, Ne.symm h]
  | cons x rest ih =>
    obtain ⟨k, y⟩ := x
    simp only [Memory.write]
    split
    · simp [Memory.read, Ne.symm h]
    · split
      · rename_i hk
        subst hk
        simp [Memory.read, Ne.symm h]
      · simp only [Memory.read, ih]

/-- Every address of a store's result is the stored one or was there before. -/
theorem Memory.mem_write {a : Nat} {b : Byte} {m : Memory} {x : Host.Cell}
    (h : x ∈ Memory.write a b m) : x = (a, b) ∨ x ∈ m := by
  induction m with
  | nil => simpa [Memory.write] using h
  | cons y rest ih =>
    obtain ⟨k, z⟩ := y
    simp only [Memory.write] at h
    split at h
    · simpa using h
    · split at h
      · simp only [List.mem_cons] at h
        rcases h with h | h
        · exact .inl h
        · exact .inr (List.mem_cons_of_mem _ h)
      · simp only [List.mem_cons] at h
        rcases h with h | h
        · exact .inr (by simp [h])
        · rcases ih h with h | h
          · exact .inl h
          · exact .inr (List.mem_cons_of_mem _ h)

/-- In canonical form every later address is above the first. -/
theorem Memory.wf_head_lt {k : Nat} {y : Byte} {m : Memory} (h : Memory.wf ((k, y) :: m) = true) :
    ∀ x ∈ m, k < x.1 := by
  induction m generalizing k y with
  | nil => simp
  | cons z rest ih =>
    obtain ⟨j, w⟩ := z
    simp only [Memory.wf, Bool.and_eq_true, decide_eq_true_eq] at h
    intro x hx
    rcases List.mem_cons.mp hx with rfl | hx
    · exact h.1
    · exact lt_trans h.1 (ih h.2 x hx)

theorem Memory.wf_tail {x : Host.Cell} {m : Memory} (h : Memory.wf (x :: m) = true) : Memory.wf m = true := by
  obtain ⟨k, y⟩ := x
  cases m with
  | nil => rfl
  | cons z rest =>
    obtain ⟨j, w⟩ := z
    simp only [Memory.wf, Bool.and_eq_true] at h
    exact h.2

theorem Memory.wf_cons {k : Nat} {y : Byte} {m : Memory} (h : ∀ x ∈ m, k < x.1) (hm : Memory.wf m = true) :
    Memory.wf ((k, y) :: m) = true := by
  cases m with
  | nil => rfl
  | cons z rest =>
    obtain ⟨j, w⟩ := z
    simp only [Memory.wf, Bool.and_eq_true, decide_eq_true_eq]
    exact ⟨h (j, w) (by simp), hm⟩

/-- A store keeps the canonical form. -/
theorem Memory.write_wf (a : Nat) (b : Byte) (m : Memory) (h : Memory.wf m = true) :
    Memory.wf (Memory.write a b m) = true := by
  induction m with
  | nil => rfl
  | cons x rest ih =>
    obtain ⟨k, y⟩ := x
    have hlt := Memory.wf_head_lt h
    simp only [Memory.write]
    split
    · rename_i hak
      exact Memory.wf_cons (fun z hz => by
        rcases List.mem_cons.mp hz with rfl | hz
        · exact hak
        · exact lt_trans hak (hlt z hz)) h
    · split
      · rename_i hak
        exact Memory.wf_cons (fun z hz => hak ▸ hlt z hz) (Memory.wf_tail h)
      · rename_i hna hne
        refine Memory.wf_cons (fun z hz => ?_) (ih (Memory.wf_tail h))
        rcases Memory.mem_write hz with rfl | hz
        · exact lt_of_le_of_ne (Nat.le_of_not_lt hna) (Ne.symm hne)
        · exact hlt z hz

theorem reset_memory_wf : Memory.wf State.reset.ring.buf = true := rfl

end Sys2Proof.Machine
end

