-- ==== Sys2Proof/Laws/State.lean ====
section
/-! SUPPORT. What each named update of the state does to each field: one lemma per field per update, true by rfl, so that no later
proof unfolds a record update. -/

namespace Sys2Proof.Machine

variable (s : State)

@[simp] theorem State.logTxn_cfg (t : Txn) : (s.logTxn t).cfg = s.cfg := rfl
@[simp] theorem State.logTxn_dev (t : Txn) : (s.logTxn t).dev = s.dev := rfl
@[simp] theorem State.logTxn_ring (t : Txn) : (s.logTxn t).ring = s.ring := rfl
@[simp] theorem State.logTxn_hdl (t : Txn) : (s.logTxn t).hdl = s.hdl := rfl
@[simp] theorem State.logTxn_irqPhase (t : Txn) : (s.logTxn t).irqPhase = s.irqPhase := rfl
@[simp] theorem State.logTxn_cons (t : Txn) : (s.logTxn t).cons = s.cons := rfl
@[simp] theorem State.logTxn_consLock (t : Txn) : (s.logTxn t).consLock = s.consLock := rfl
@[simp] theorem State.logTxn_writes (t : Txn) : (s.logTxn t).writes = s.writes := rfl
@[simp] theorem State.logTxn_calls (t : Txn) : (s.logTxn t).calls = s.calls := rfl
@[simp] theorem State.logTxn_line (t : Txn) : (s.logTxn t).line = s.line := rfl
@[simp] theorem State.logTxn_obs (t : Txn) : (s.logTxn t).obs = { s.obs with txnLog := s.obs.txnLog ++ [t] } := rfl
@[simp] theorem State.logTxn_answers (t : Txn) : (s.logTxn t).answers = s.answers := rfl
@[simp] theorem State.logTxn_env (t : Txn) : (s.logTxn t).env = s.env := rfl
@[simp] theorem State.logTxn_sched (t : Txn) : (s.logTxn t).sched = s.sched := rfl

@[simp] theorem State.logPoll_cfg (e : PollEntry) : (s.logPoll e).cfg = s.cfg := rfl
@[simp] theorem State.logPoll_dev (e : PollEntry) : (s.logPoll e).dev = s.dev := rfl
@[simp] theorem State.logPoll_ring (e : PollEntry) : (s.logPoll e).ring = s.ring := rfl
@[simp] theorem State.logPoll_hdl (e : PollEntry) : (s.logPoll e).hdl = s.hdl := rfl
@[simp] theorem State.logPoll_irqPhase (e : PollEntry) : (s.logPoll e).irqPhase = s.irqPhase := rfl
@[simp] theorem State.logPoll_cons (e : PollEntry) : (s.logPoll e).cons = s.cons := rfl
@[simp] theorem State.logPoll_consLock (e : PollEntry) : (s.logPoll e).consLock = s.consLock := rfl
@[simp] theorem State.logPoll_writes (e : PollEntry) : (s.logPoll e).writes = s.writes := rfl
@[simp] theorem State.logPoll_calls (e : PollEntry) : (s.logPoll e).calls = s.calls := rfl
@[simp] theorem State.logPoll_line (e : PollEntry) : (s.logPoll e).line = s.line := rfl
@[simp] theorem State.logPoll_obs (e : PollEntry) : (s.logPoll e).obs = { s.obs with pollLog := s.obs.pollLog ++ [e] } := rfl
@[simp] theorem State.logPoll_answers (e : PollEntry) : (s.logPoll e).answers = s.answers := rfl
@[simp] theorem State.logPoll_env (e : PollEntry) : (s.logPoll e).env = s.env := rfl
@[simp] theorem State.logPoll_sched (e : PollEntry) : (s.logPoll e).sched = s.sched := rfl

@[simp] theorem State.reply_cfg (a : Agent) (x : Answer) : (s.reply a x).cfg = s.cfg := rfl
@[simp] theorem State.reply_dev (a : Agent) (x : Answer) : (s.reply a x).dev = s.dev := rfl
@[simp] theorem State.reply_ring (a : Agent) (x : Answer) : (s.reply a x).ring = s.ring := rfl
@[simp] theorem State.reply_hdl (a : Agent) (x : Answer) : (s.reply a x).hdl = s.hdl := rfl
@[simp] theorem State.reply_irqPhase (a : Agent) (x : Answer) : (s.reply a x).irqPhase = s.irqPhase := rfl
@[simp] theorem State.reply_cons (a : Agent) (x : Answer) : (s.reply a x).cons = s.cons := rfl
@[simp] theorem State.reply_consLock (a : Agent) (x : Answer) : (s.reply a x).consLock = s.consLock := rfl
@[simp] theorem State.reply_writes (a : Agent) (x : Answer) : (s.reply a x).writes = s.writes := rfl
@[simp] theorem State.reply_calls (a : Agent) (x : Answer) : (s.reply a x).calls = s.calls := rfl
@[simp] theorem State.reply_line (a : Agent) (x : Answer) : (s.reply a x).line = s.line := rfl
@[simp] theorem State.reply_obs (a : Agent) (x : Answer) : (s.reply a x).obs = s.obs := rfl
@[simp] theorem State.reply_answers (a : Agent) (x : Answer) : (s.reply a x).answers = s.answers ++ [(a, x)] := rfl
@[simp] theorem State.reply_env (a : Agent) (x : Answer) : (s.reply a x).env = s.env := rfl
@[simp] theorem State.reply_sched (a : Agent) (x : Answer) : (s.reply a x).sched = s.sched := rfl

@[simp] theorem State.drew_cfg : (s.drew).cfg = s.cfg := rfl
@[simp] theorem State.drew_dev : (s.drew).dev = s.dev := rfl
@[simp] theorem State.drew_ring : (s.drew).ring = s.ring := rfl
@[simp] theorem State.drew_hdl : (s.drew).hdl = s.hdl := rfl
@[simp] theorem State.drew_irqPhase : (s.drew).irqPhase = s.irqPhase := rfl
@[simp] theorem State.drew_cons : (s.drew).cons = s.cons := rfl
@[simp] theorem State.drew_consLock : (s.drew).consLock = s.consLock := rfl
@[simp] theorem State.drew_writes : (s.drew).writes = s.writes := rfl
@[simp] theorem State.drew_calls : (s.drew).calls = s.calls := rfl
@[simp] theorem State.drew_line : (s.drew).line = s.line := rfl
@[simp] theorem State.drew_obs : (s.drew).obs = s.obs := rfl
@[simp] theorem State.drew_answers : (s.drew).answers = s.answers := rfl
@[simp] theorem State.drew_env : (s.drew).env = s.env := rfl
@[simp] theorem State.drew_sched : (s.drew).sched = { s.sched with draws := s.sched.draws + 1 } := rfl

@[simp] theorem enterHandler_cfg : (enterHandler s).cfg = s.cfg := rfl
@[simp] theorem enterHandler_dev : (enterHandler s).dev = s.dev := rfl
@[simp] theorem enterHandler_ring : (enterHandler s).ring = s.ring := rfl
@[simp] theorem enterHandler_hdl : (enterHandler s).hdl = s.hdl := rfl
@[simp] theorem enterHandler_irqPhase : (enterHandler s).irqPhase = .entered := rfl
@[simp] theorem enterHandler_cons : (enterHandler s).cons = s.cons := rfl
@[simp] theorem enterHandler_consLock : (enterHandler s).consLock = s.consLock := rfl
@[simp] theorem enterHandler_writes : (enterHandler s).writes = s.writes := rfl
@[simp] theorem enterHandler_calls : (enterHandler s).calls = s.calls := rfl
@[simp] theorem enterHandler_line : (enterHandler s).line = s.line := rfl
@[simp] theorem enterHandler_obs : (enterHandler s).obs = s.obs := rfl
@[simp] theorem enterHandler_answers : (enterHandler s).answers = s.answers := rfl
@[simp] theorem enterHandler_env : (enterHandler s).env = s.env := rfl
@[simp] theorem enterHandler_sched : (enterHandler s).sched = s.sched := rfl

@[simp] theorem leaveHandler_cfg : (leaveHandler s).cfg = s.cfg := rfl
@[simp] theorem leaveHandler_dev : (leaveHandler s).dev = s.dev := rfl
@[simp] theorem leaveHandler_ring : (leaveHandler s).ring = s.ring := rfl
@[simp] theorem leaveHandler_hdl : (leaveHandler s).hdl = s.hdl := rfl
@[simp] theorem leaveHandler_irqPhase : (leaveHandler s).irqPhase = .idle := rfl
@[simp] theorem leaveHandler_cons : (leaveHandler s).cons = s.cons := rfl
@[simp] theorem leaveHandler_consLock : (leaveHandler s).consLock = s.consLock := rfl
@[simp] theorem leaveHandler_writes : (leaveHandler s).writes = s.writes := rfl
@[simp] theorem leaveHandler_calls : (leaveHandler s).calls = s.calls := rfl
@[simp] theorem leaveHandler_line : (leaveHandler s).line = s.line := rfl
@[simp] theorem leaveHandler_obs : (leaveHandler s).obs = s.obs := rfl
@[simp] theorem leaveHandler_answers : (leaveHandler s).answers = s.answers := rfl
@[simp] theorem leaveHandler_env : (leaveHandler s).env = s.env := rfl
@[simp] theorem leaveHandler_sched : (leaveHandler s).sched = s.sched := rfl

@[simp] theorem endCall_cfg (c : Nat) : (endCall c s).cfg = s.cfg := rfl
@[simp] theorem endCall_dev (c : Nat) : (endCall c s).dev = s.dev := rfl
@[simp] theorem endCall_ring (c : Nat) : (endCall c s).ring = s.ring := rfl
@[simp] theorem endCall_hdl (c : Nat) : (endCall c s).hdl = s.hdl := rfl
@[simp] theorem endCall_irqPhase (c : Nat) : (endCall c s).irqPhase = s.irqPhase := rfl
@[simp] theorem endCall_cons (c : Nat) : (endCall c s).cons = s.cons := rfl
@[simp] theorem endCall_consLock (c : Nat) : (endCall c s).consLock = s.consLock := rfl
@[simp] theorem endCall_writes (c : Nat) : (endCall c s).writes = s.writes := rfl
@[simp] theorem endCall_calls (c : Nat) : (endCall c s).calls = s.calls.filter (fun k => k.ctx != c) := rfl
@[simp] theorem endCall_line (c : Nat) : (endCall c s).line = s.line := rfl
@[simp] theorem endCall_obs (c : Nat) : (endCall c s).obs = s.obs := rfl
@[simp] theorem endCall_answers (c : Nat) : (endCall c s).answers = s.answers := rfl
@[simp] theorem endCall_env (c : Nat) : (endCall c s).env = s.env := rfl
@[simp] theorem endCall_sched (c : Nat) : (endCall c s).sched = s.sched := rfl

@[simp] theorem endWrite_cfg (c : Nat) : (endWrite c s).cfg = s.cfg := rfl
@[simp] theorem endWrite_dev (c : Nat) : (endWrite c s).dev = s.dev := rfl
@[simp] theorem endWrite_ring (c : Nat) : (endWrite c s).ring = s.ring := rfl
@[simp] theorem endWrite_hdl (c : Nat) : (endWrite c s).hdl = s.hdl := rfl
@[simp] theorem endWrite_irqPhase (c : Nat) : (endWrite c s).irqPhase = s.irqPhase := rfl
@[simp] theorem endWrite_cons (c : Nat) : (endWrite c s).cons = s.cons := rfl
@[simp] theorem endWrite_consLock (c : Nat) : (endWrite c s).consLock = s.consLock := rfl
@[simp] theorem endWrite_writes (c : Nat) : (endWrite c s).writes = s.writes.filter (fun w => w.ctx != c) := rfl
@[simp] theorem endWrite_calls (c : Nat) : (endWrite c s).calls = s.calls := rfl
@[simp] theorem endWrite_line (c : Nat) : (endWrite c s).line = s.line := rfl
@[simp] theorem endWrite_obs (c : Nat) : (endWrite c s).obs = s.obs := rfl
@[simp] theorem endWrite_answers (c : Nat) : (endWrite c s).answers = s.answers := rfl
@[simp] theorem endWrite_env (c : Nat) : (endWrite c s).env = s.env := rfl
@[simp] theorem endWrite_sched (c : Nat) : (endWrite c s).sched = s.sched := rfl

@[simp] theorem setWrite_cfg (c : Nat) (w : PendingWrite) : (setWrite c w s).cfg = s.cfg := rfl
@[simp] theorem setWrite_dev (c : Nat) (w : PendingWrite) : (setWrite c w s).dev = s.dev := rfl
@[simp] theorem setWrite_ring (c : Nat) (w : PendingWrite) : (setWrite c w s).ring = s.ring := rfl
@[simp] theorem setWrite_hdl (c : Nat) (w : PendingWrite) : (setWrite c w s).hdl = s.hdl := rfl
@[simp] theorem setWrite_irqPhase (c : Nat) (w : PendingWrite) : (setWrite c w s).irqPhase = s.irqPhase := rfl
@[simp] theorem setWrite_cons (c : Nat) (w : PendingWrite) : (setWrite c w s).cons = s.cons := rfl
@[simp] theorem setWrite_consLock (c : Nat) (w : PendingWrite) : (setWrite c w s).consLock = s.consLock := rfl
@[simp] theorem setWrite_writes (c : Nat) (w : PendingWrite) : (setWrite c w s).writes = s.writes.map (fun x => if x.ctx = c then w else x) := rfl
@[simp] theorem setWrite_calls (c : Nat) (w : PendingWrite) : (setWrite c w s).calls = s.calls := rfl
@[simp] theorem setWrite_line (c : Nat) (w : PendingWrite) : (setWrite c w s).line = s.line := rfl
@[simp] theorem setWrite_obs (c : Nat) (w : PendingWrite) : (setWrite c w s).obs = s.obs := rfl
@[simp] theorem setWrite_answers (c : Nat) (w : PendingWrite) : (setWrite c w s).answers = s.answers := rfl
@[simp] theorem setWrite_env (c : Nat) (w : PendingWrite) : (setWrite c w s).env = s.env := rfl
@[simp] theorem setWrite_sched (c : Nat) (w : PendingWrite) : (setWrite c w s).sched = s.sched := rfl

@[simp] theorem endConsumer_cfg (c : Nat) : (endConsumer c s).cfg = s.cfg := rfl
@[simp] theorem endConsumer_dev (c : Nat) : (endConsumer c s).dev = s.dev := rfl
@[simp] theorem endConsumer_ring (c : Nat) : (endConsumer c s).ring = s.ring := rfl
@[simp] theorem endConsumer_hdl (c : Nat) : (endConsumer c s).hdl = s.hdl := rfl
@[simp] theorem endConsumer_irqPhase (c : Nat) : (endConsumer c s).irqPhase = s.irqPhase := rfl
@[simp] theorem endConsumer_cons (c : Nat) : (endConsumer c s).cons = s.cons.filter (fun r => r.ctx != c) := rfl
@[simp] theorem endConsumer_consLock (c : Nat) : (endConsumer c s).consLock = s.consLock := rfl
@[simp] theorem endConsumer_writes (c : Nat) : (endConsumer c s).writes = s.writes := rfl
@[simp] theorem endConsumer_calls (c : Nat) : (endConsumer c s).calls = s.calls := rfl
@[simp] theorem endConsumer_line (c : Nat) : (endConsumer c s).line = s.line := rfl
@[simp] theorem endConsumer_obs (c : Nat) : (endConsumer c s).obs = s.obs := rfl
@[simp] theorem endConsumer_answers (c : Nat) : (endConsumer c s).answers = s.answers := rfl
@[simp] theorem endConsumer_env (c : Nat) : (endConsumer c s).env = s.env := rfl
@[simp] theorem endConsumer_sched (c : Nat) : (endConsumer c s).sched = s.sched := rfl

@[simp] theorem setPhase_cfg (c : Nat) (p : ConsumerPhase) : (setPhase c p s).cfg = s.cfg := rfl
@[simp] theorem setPhase_dev (c : Nat) (p : ConsumerPhase) : (setPhase c p s).dev = s.dev := rfl
@[simp] theorem setPhase_ring (c : Nat) (p : ConsumerPhase) : (setPhase c p s).ring = s.ring := rfl
@[simp] theorem setPhase_hdl (c : Nat) (p : ConsumerPhase) : (setPhase c p s).hdl = s.hdl := rfl
@[simp] theorem setPhase_irqPhase (c : Nat) (p : ConsumerPhase) : (setPhase c p s).irqPhase = s.irqPhase := rfl
@[simp] theorem setPhase_cons (c : Nat) (p : ConsumerPhase) : (setPhase c p s).cons = s.cons.map (fun r => if r.ctx = c then { r with phase := p } else r) := rfl
@[simp] theorem setPhase_consLock (c : Nat) (p : ConsumerPhase) : (setPhase c p s).consLock = s.consLock := rfl
@[simp] theorem setPhase_writes (c : Nat) (p : ConsumerPhase) : (setPhase c p s).writes = s.writes := rfl
@[simp] theorem setPhase_calls (c : Nat) (p : ConsumerPhase) : (setPhase c p s).calls = s.calls := rfl
@[simp] theorem setPhase_line (c : Nat) (p : ConsumerPhase) : (setPhase c p s).line = s.line := rfl
@[simp] theorem setPhase_obs (c : Nat) (p : ConsumerPhase) : (setPhase c p s).obs = s.obs := rfl
@[simp] theorem setPhase_answers (c : Nat) (p : ConsumerPhase) : (setPhase c p s).answers = s.answers := rfl
@[simp] theorem setPhase_env (c : Nat) (p : ConsumerPhase) : (setPhase c p s).env = s.env := rfl
@[simp] theorem setPhase_sched (c : Nat) (p : ConsumerPhase) : (setPhase c p s).sched = s.sched := rfl

@[simp] theorem markCancelled_cfg (c : Nat) : (markCancelled c s).cfg = s.cfg := rfl
@[simp] theorem markCancelled_dev (c : Nat) : (markCancelled c s).dev = s.dev := rfl
@[simp] theorem markCancelled_ring (c : Nat) : (markCancelled c s).ring = s.ring := rfl
@[simp] theorem markCancelled_hdl (c : Nat) : (markCancelled c s).hdl = s.hdl := rfl
@[simp] theorem markCancelled_irqPhase (c : Nat) : (markCancelled c s).irqPhase = s.irqPhase := rfl
@[simp] theorem markCancelled_cons (c : Nat) : (markCancelled c s).cons = s.cons.map (fun r => if r.ctx = c then { r with cancelReq := true } else r) := rfl
@[simp] theorem markCancelled_consLock (c : Nat) : (markCancelled c s).consLock = s.consLock := rfl
@[simp] theorem markCancelled_writes (c : Nat) : (markCancelled c s).writes = s.writes := rfl
@[simp] theorem markCancelled_calls (c : Nat) : (markCancelled c s).calls = s.calls := rfl
@[simp] theorem markCancelled_line (c : Nat) : (markCancelled c s).line = s.line := rfl
@[simp] theorem markCancelled_obs (c : Nat) : (markCancelled c s).obs = s.obs := rfl
@[simp] theorem markCancelled_answers (c : Nat) : (markCancelled c s).answers = s.answers := rfl
@[simp] theorem markCancelled_env (c : Nat) : (markCancelled c s).env = s.env := rfl
@[simp] theorem markCancelled_sched (c : Nat) : (markCancelled c s).sched = s.sched := rfl
@[simp] theorem setCall_cfg (c : Nat) (k : CallKind) : (setCall c k s).cfg = s.cfg := rfl
@[simp] theorem setCall_dev (c : Nat) (k : CallKind) : (setCall c k s).dev = s.dev := rfl
@[simp] theorem setCall_ring (c : Nat) (k : CallKind) : (setCall c k s).ring = s.ring := rfl
@[simp] theorem setCall_hdl (c : Nat) (k : CallKind) : (setCall c k s).hdl = s.hdl := rfl
@[simp] theorem setCall_irqPhase (c : Nat) (k : CallKind) : (setCall c k s).irqPhase = s.irqPhase := rfl
@[simp] theorem setCall_cons (c : Nat) (k : CallKind) : (setCall c k s).cons = s.cons := rfl
@[simp] theorem setCall_consLock (c : Nat) (k : CallKind) : (setCall c k s).consLock = s.consLock := rfl
@[simp] theorem setCall_writes (c : Nat) (k : CallKind) : (setCall c k s).writes = s.writes := rfl
@[simp] theorem setCall_calls (c : Nat) (k : CallKind) : (setCall c k s).calls = s.calls.map (fun x => if x.ctx = c then { x with kind := k } else x) := rfl
@[simp] theorem setCall_line (c : Nat) (k : CallKind) : (setCall c k s).line = s.line := rfl
@[simp] theorem setCall_obs (c : Nat) (k : CallKind) : (setCall c k s).obs = s.obs := rfl
@[simp] theorem setCall_answers (c : Nat) (k : CallKind) : (setCall c k s).answers = s.answers := rfl
@[simp] theorem setCall_env (c : Nat) (k : CallKind) : (setCall c k s).env = s.env := rfl
@[simp] theorem setCall_sched (c : Nat) (k : CallKind) : (setCall c k s).sched = s.sched := rfl

@[simp] theorem toLine_cfg (c : Nat) (a : AttachCall) (l : AttachLine) : (toLine c a l s).cfg = s.cfg := rfl
@[simp] theorem toLine_dev (c : Nat) (a : AttachCall) (l : AttachLine) : (toLine c a l s).dev = s.dev := rfl
@[simp] theorem toLine_ring (c : Nat) (a : AttachCall) (l : AttachLine) : (toLine c a l s).ring = s.ring := rfl
@[simp] theorem toLine_hdl (c : Nat) (a : AttachCall) (l : AttachLine) : (toLine c a l s).hdl = s.hdl := rfl
@[simp] theorem toLine_irqPhase (c : Nat) (a : AttachCall) (l : AttachLine) : (toLine c a l s).irqPhase = s.irqPhase := rfl
@[simp] theorem toLine_cons (c : Nat) (a : AttachCall) (l : AttachLine) : (toLine c a l s).cons = s.cons := rfl
@[simp] theorem toLine_consLock (c : Nat) (a : AttachCall) (l : AttachLine) : (toLine c a l s).consLock = s.consLock := rfl
@[simp] theorem toLine_writes (c : Nat) (a : AttachCall) (l : AttachLine) : (toLine c a l s).writes = s.writes := rfl
@[simp] theorem toLine_calls (c : Nat) (a : AttachCall) (l : AttachLine) : (toLine c a l s).calls = s.calls.map (fun x => if x.ctx = c then { x with kind := .attach { a with line := l } } else x) := rfl
@[simp] theorem toLine_line (c : Nat) (a : AttachCall) (l : AttachLine) : (toLine c a l s).line = s.line := rfl
@[simp] theorem toLine_obs (c : Nat) (a : AttachCall) (l : AttachLine) : (toLine c a l s).obs = s.obs := rfl
@[simp] theorem toLine_answers (c : Nat) (a : AttachCall) (l : AttachLine) : (toLine c a l s).answers = s.answers := rfl
@[simp] theorem toLine_env (c : Nat) (a : AttachCall) (l : AttachLine) : (toLine c a l s).env = s.env := rfl
@[simp] theorem toLine_sched (c : Nat) (a : AttachCall) (l : AttachLine) : (toLine c a l s).sched = s.sched := rfl

@[simp] theorem failAttach_cfg (c : Nat) (e : AttachCause) : (failAttach c e s).cfg = s.cfg := rfl
@[simp] theorem failAttach_dev (c : Nat) (e : AttachCause) : (failAttach c e s).dev = s.dev := rfl
@[simp] theorem failAttach_ring (c : Nat) (e : AttachCause) : (failAttach c e s).ring = s.ring := rfl
@[simp] theorem failAttach_hdl (c : Nat) (e : AttachCause) : (failAttach c e s).hdl = s.hdl := rfl
@[simp] theorem failAttach_irqPhase (c : Nat) (e : AttachCause) : (failAttach c e s).irqPhase = s.irqPhase := rfl
@[simp] theorem failAttach_cons (c : Nat) (e : AttachCause) : (failAttach c e s).cons = s.cons := rfl
@[simp] theorem failAttach_consLock (c : Nat) (e : AttachCause) : (failAttach c e s).consLock = s.consLock := rfl
@[simp] theorem failAttach_writes (c : Nat) (e : AttachCause) : (failAttach c e s).writes = s.writes := rfl
@[simp] theorem failAttach_calls (c : Nat) (e : AttachCause) : (failAttach c e s).calls = s.calls.filter (fun k => k.ctx != c) := rfl
@[simp] theorem failAttach_line (c : Nat) (e : AttachCause) : (failAttach c e s).line = s.line := rfl
@[simp] theorem failAttach_obs (c : Nat) (e : AttachCause) : (failAttach c e s).obs = s.obs := rfl
@[simp] theorem failAttach_answers (c : Nat) (e : AttachCause) : (failAttach c e s).answers = s.answers ++ [(.host c, .attachError e)] := rfl
@[simp] theorem failAttach_env (c : Nat) (e : AttachCause) : (failAttach c e s).env = s.env := rfl
@[simp] theorem failAttach_sched (c : Nat) (e : AttachCause) : (failAttach c e s).sched = s.sched := rfl

@[simp] theorem tearDown_cfg : (tearDown s).cfg = s.cfg := rfl
@[simp] theorem tearDown_dev : (tearDown s).dev = s.dev := rfl
@[simp] theorem tearDown_ring : (tearDown s).ring = s.ring := rfl
@[simp] theorem tearDown_hdl : (tearDown s).hdl = { s.hdl with life := .tornDown } := rfl
@[simp] theorem tearDown_irqPhase : (tearDown s).irqPhase = s.irqPhase := rfl
@[simp] theorem tearDown_cons : (tearDown s).cons = s.cons := rfl
@[simp] theorem tearDown_consLock : (tearDown s).consLock = s.consLock := rfl
@[simp] theorem tearDown_writes : (tearDown s).writes = s.writes := rfl
@[simp] theorem tearDown_calls : (tearDown s).calls = s.calls := rfl
@[simp] theorem tearDown_line : (tearDown s).line = s.line := rfl
@[simp] theorem tearDown_obs : (tearDown s).obs = s.obs := rfl
@[simp] theorem tearDown_answers : (tearDown s).answers = s.answers := rfl
@[simp] theorem tearDown_env : (tearDown s).env = s.env := rfl
@[simp] theorem tearDown_sched : (tearDown s).sched = s.sched := rfl

@[simp] theorem finishWrite_cfg (w : PendingWrite) : (finishWrite w s).cfg = s.cfg := rfl
@[simp] theorem finishWrite_dev (w : PendingWrite) : (finishWrite w s).dev = s.dev := rfl
@[simp] theorem finishWrite_ring (w : PendingWrite) : (finishWrite w s).ring = s.ring := rfl
@[simp] theorem finishWrite_hdl (w : PendingWrite) : (finishWrite w s).hdl = s.hdl := rfl
@[simp] theorem finishWrite_irqPhase (w : PendingWrite) : (finishWrite w s).irqPhase = s.irqPhase := rfl
@[simp] theorem finishWrite_cons (w : PendingWrite) : (finishWrite w s).cons = s.cons := rfl
@[simp] theorem finishWrite_consLock (w : PendingWrite) : (finishWrite w s).consLock = s.consLock := rfl
@[simp] theorem finishWrite_writes (w : PendingWrite) : (finishWrite w s).writes = s.writes.filter (fun x => x.ctx != w.ctx) := rfl
@[simp] theorem finishWrite_calls (w : PendingWrite) : (finishWrite w s).calls = s.calls := rfl
@[simp] theorem finishWrite_line (w : PendingWrite) : (finishWrite w s).line = s.line := rfl
@[simp] theorem finishWrite_obs (w : PendingWrite) : (finishWrite w s).obs = s.obs := rfl
@[simp] theorem finishWrite_answers (w : PendingWrite) : (finishWrite w s).answers = s.answers ++ [(.host w.ctx, .count w.txBuf.length)] := rfl
@[simp] theorem finishWrite_env (w : PendingWrite) : (finishWrite w s).env = s.env := rfl
@[simp] theorem finishWrite_sched (w : PendingWrite) : (finishWrite w s).sched = s.sched := rfl

@[simp] theorem failWrite_cfg (w : PendingWrite) : (failWrite w s).cfg = s.cfg := rfl
@[simp] theorem failWrite_dev (w : PendingWrite) : (failWrite w s).dev = s.dev := rfl
@[simp] theorem failWrite_ring (w : PendingWrite) : (failWrite w s).ring = s.ring := rfl
@[simp] theorem failWrite_hdl (w : PendingWrite) : (failWrite w s).hdl = s.hdl := rfl
@[simp] theorem failWrite_irqPhase (w : PendingWrite) : (failWrite w s).irqPhase = s.irqPhase := rfl
@[simp] theorem failWrite_cons (w : PendingWrite) : (failWrite w s).cons = s.cons := rfl
@[simp] theorem failWrite_consLock (w : PendingWrite) : (failWrite w s).consLock = s.consLock := rfl
@[simp] theorem failWrite_writes (w : PendingWrite) : (failWrite w s).writes = s.writes.filter (fun x => x.ctx != w.ctx) := rfl
@[simp] theorem failWrite_calls (w : PendingWrite) : (failWrite w s).calls = s.calls := rfl
@[simp] theorem failWrite_line (w : PendingWrite) : (failWrite w s).line = s.line := rfl
@[simp] theorem failWrite_obs (w : PendingWrite) : (failWrite w s).obs = s.obs := rfl
@[simp] theorem failWrite_answers (w : PendingWrite) : (failWrite w s).answers = s.answers ++ [(.host w.ctx, .transmitFault w.txIdx)] := rfl
@[simp] theorem failWrite_env (w : PendingWrite) : (failWrite w s).env = s.env := rfl
@[simp] theorem failWrite_sched (w : PendingWrite) : (failWrite w s).sched = s.sched := rfl

end Sys2Proof.Machine
end

