-- ==== Sys2Proof/Laws/Ops.lean ====
section
/-! SUPPORT. One lemma per shared operation that says everything it can do: cited instead of unfolding it. -/

namespace Sys2Proof.Machine

/-! ## Sequencing and contexts -/

@[simp] theorem andThen_next {α β : Type} (a : α) (f : α → Host.Outcome β Fault Refusal) :
    andThen (.next a) f = f a := rfl

@[simp] theorem andThen_fault {α β : Type} (r : Fault) (f : α → Host.Outcome β Fault Refusal) :
    andThen (.fault r) f = .fault r := rfl

@[simp] theorem andThen_refused {α β : Type} (r : Refusal) (f : α → Host.Outcome β Fault Refusal) :
    andThen (.refused r) f = .refused r := rfl

/-- A sequence answers a next state exactly when both parts do. -/
theorem andThen_eq_next {α β : Type} {o : Host.Outcome α Fault Refusal}
    {f : α → Host.Outcome β Fault Refusal} {b : β} :
    andThen o f = .next b ↔ ∃ a, o = .next a ∧ f a = .next b := by
  cases o <;> simp

/-- A context's own step goes on only for an ordinary context outside every call. -/
theorem asHost_eq_next {s t : State} {f : Nat → Result} (h : asHost s f = .next t) :
    ∃ c, s.sched.agent = .host c ∧ busy c s = false ∧ f c = .next t := by
  unfold asHost at h
  split at h
  · rename_i c hc
    split at h
    · cases h
    · rename_i hb
      exact ⟨c, hc, by simpa using hb, h⟩
  all_goals cases h

/-- The step of an ordinary context outside every call. -/
theorem asHost_host {s : State} {c : Nat} (f : Nat → Result) (ha : s.sched.agent = .host c)
    (hb : busy c s = false) : asHost s f = f c := by
  simp [asHost, ha, hb]

theorem onAttached_eq_next {h : Nat} {s t : State} {r : Result} (hr : onAttached h s r = .next t) :
    usable h s = true ∧ r = .next t := by
  unfold onAttached at hr
  split at hr
  · exact ⟨‹_›, hr⟩
  · cases hr

theorem onAttached_usable {h : Nat} {s : State} (r : Result) (hl : usable h s = true) :
    onAttached h s r = r := by
  simp [onAttached, hl]

theorem onAttached_refused {h : Nat} {s : State} (r : Result) (hl : usable h s = false) :
    onAttached h s r = .refused .notAttached := by
  simp [onAttached, hl]

/-- A usable handle, spelled out (R226, R272). -/
theorem usable_iff {h : Nat} {s : State} :
    usable h s = true ↔ lifeOf h s = .attached ∧ notYetReturned h s = false := by
  simp [usable]

/-- The register window of a usable handle is open. -/
theorem usable_windowOpen {h : Nat} {s : State} (hl : usable h s = true) : windowOpen h s = true := by
  simp [windowOpen, (usable_iff.mp hl).1]

@[simp] theorem lifeOf_self (s : State) : lifeOf s.hdl.id s = s.hdl.life := by simp [lifeOf]

/-- A handle is ATTACHED only if it is the current one. -/
theorem lifeOf_attached {h : Nat} {s : State} (hl : lifeOf h s = .attached) :
    h = s.hdl.id ∧ s.hdl.life = .attached := by
  unfold lifeOf at hl
  split at hl
  · exact ⟨‹_›, hl⟩
  · split at hl <;> cases hl

/-! ## Transactions -/

/-- What a register's own read can do to the state: nothing, one draw, or the removal of the oldest received byte. -/
theorem readRegister_next {r : Register} {s t : State} {v : Word} (h : readRegister r s = .next (v, t)) :
    t = s ∨ t = s.drew ∨
    (r = .data ∧ ∃ b rest, s.dev.rxHw = b :: rest ∧ v = zext32 b ∧
      t = { s with dev := { s.dev with rxHw := rest } }) := by
  cases r
  case data =>
    simp only [readRegister, readData] at h
    split at h
    · rename_i b rest hb
      simp only [Host.Outcome.next.injEq, Prod.mk.injEq] at h
      exact .inr (.inr ⟨rfl, b, rest, hb, h.1.symm, h.2.symm⟩)
    · simp only [Host.Outcome.next.injEq, drawWord, Prod.mk.injEq] at h
      exact .inr (.inl h.2.symm)
  case fifoControl =>
    simp only [readRegister, readFifoControl, Host.Outcome.next.injEq, drawWord, Prod.mk.injEq] at h
    exact .inr (.inl h.2.symm)
  case lineStatus =>
    simp only [readRegister, readLineStatus, Host.Outcome.next.injEq, drawWord, Prod.mk.injEq] at h
    exact .inr (.inl h.2.symm)
  case reserved => simp [readRegister] at h
  all_goals
    simp only [readRegister, readIntEnable, readLineControl, readDivisorLow, readDivisorHigh,
      readModeSelect, Host.Outcome.next.injEq, Prod.mk.injEq] at h
    exact .inl h.2.symm

/-- A read transaction that answers: it was admitted, and its state is the read's own, logged. -/
theorem regRead_next {h k : Nat} {s t : State} {v : Word} (hr : regRead h k s = .next (v, t)) :
    windowOpen h s = true ∧
    readRegister (select s.cfg k (dlab s)) (s.logTxn (.read k (select s.cfg k (dlab s)))) = .next (v, t) := by
  unfold regRead at hr
  split at hr
  · exact ⟨‹_›, hr⟩
  · cases hr

/-- A write of a register changes device registers only. -/
theorem writeRegister_next {r : Register} {v : Word} {s t : State} (h : writeRegister r v s = .next t) :
    ∃ d, t = { s with dev := d } ∧ d.rxHw <:+ s.dev.rxHw ∧
      (d.thr = s.dev.thr ∨ d.thr = none ∨ (r = .data ∧ s.dev.thr = none ∧ d.thr = some (low8 v))) := by
  cases r
  case data =>
    simp only [writeRegister, writeData] at h
    split at h
    · rename_i hn
      simp only [Host.Outcome.next.injEq] at h
      exact ⟨_, h.symm, List.suffix_refl _, .inr (.inr ⟨rfl, hn, rfl⟩)⟩
    · cases h
  case intEnable =>
    simp only [writeRegister, writeIntEnable] at h
    split at h
    · cases h
    · simp only [Host.Outcome.next.injEq] at h
      exact ⟨_, h.symm, List.suffix_refl _, .inl rfl⟩
  case fifoControl =>
    simp only [writeRegister, writeFifoControl] at h
    split at h
    · cases h
    · simp only [Host.Outcome.next.injEq] at h
      refine ⟨_, h.symm, ?_, ?_⟩
      · dsimp only
        split
        · exact List.nil_suffix
        · exact List.suffix_refl _
      · dsimp only
        split
        · exact .inr (.inl rfl)
        · exact .inl rfl
  case lineControl =>
    simp only [writeRegister, writeLineControl] at h
    split at h
    · simp only [Host.Outcome.next.injEq] at h
      exact ⟨_, h.symm, List.suffix_refl _, .inl rfl⟩
    · cases h
  case lineStatus => simp [writeRegister, writeLineStatus] at h
  case reserved => simp [writeRegister] at h
  all_goals
    simp only [writeRegister, writeDivisorLow, writeDivisorHigh, writeModeSelect,
      Host.Outcome.next.injEq] at h
    exact ⟨_, h.symm, List.suffix_refl _, .inl rfl⟩

/-- A write transaction that answers: it was admitted, and its state is the write's own, logged. -/
theorem regWrite_next {h k : Nat} {v : Word} {s t : State} (hw : regWrite h k v s = .next t) :
    windowOpen h s = true ∧
    writeRegister (select s.cfg k (dlab s)) v (s.logTxn (.write k (select s.cfg k (dlab s)) v)) = .next t := by
  unfold regWrite at hw
  split at hw
  · exact ⟨‹_›, hw⟩
  · cases hw

/-- A host's read transaction that answers: the context, the admission on the handle of the turn, and the transaction's own answer. -/
theorem hostRead_next {k : Nat} {s t : State} (h : hostRead k s = .next t) :
    ∃ c v u, s.sched.agent = .host c ∧ busy c s = false ∧ usable s.sched.handle s = true ∧
      regRead s.sched.handle k s = .next (v, u) ∧ t = u.reply (.host c) (.rdata v) := by
  obtain ⟨c, ha, hb, hf⟩ := asHost_eq_next h
  obtain ⟨hl, hf⟩ := onAttached_eq_next hf
  obtain ⟨⟨v, u⟩, hr, ht⟩ := andThen_eq_next.mp hf
  simp only [Host.Outcome.next.injEq] at ht
  exact ⟨c, v, u, ha, hb, hl, hr, ht.symm⟩

/-- A host's write transaction that answers. -/
theorem hostWrite_next {k : Nat} {v : Word} {s t : State} (h : hostWrite k v s = .next t) :
    ∃ c, s.sched.agent = .host c ∧ busy c s = false ∧ usable s.sched.handle s = true ∧
      regWrite s.sched.handle k v s = .next t := by
  obtain ⟨c, ha, hb, hf⟩ := asHost_eq_next h
  obtain ⟨hl, hf⟩ := onAttached_eq_next hf
  exact ⟨c, ha, hb, hl, hf⟩

/-- A host's read transaction on a usable handle is the register's own read, logged and answered. -/
theorem hostRead_usable {k : Nat} {s : State} {c : Nat} (ha : s.sched.agent = .host c)
    (hb : busy c s = false) (hl : usable s.sched.handle s = true) :
    hostRead k s = andThen (readRegister (select s.cfg k (dlab s))
      (s.logTxn (.read k (select s.cfg k (dlab s))))) fun (v, t) => .next (t.reply (.host c) (.rdata v)) := by
  simp [hostRead, asHost, ha, hb, onAttached, hl, regRead, usable_windowOpen hl]

/-- A host's write transaction on a usable handle is the register's own write, logged. -/
theorem hostWrite_usable {k : Nat} {v : Word} {s : State} {c : Nat} (ha : s.sched.agent = .host c)
    (hb : busy c s = false) (hl : usable s.sched.handle s = true) :
    hostWrite k v s = writeRegister (select s.cfg k (dlab s)) v
      (s.logTxn (.write k (select s.cfg k (dlab s)) v)) := by
  simp [hostWrite, asHost, ha, hb, onAttached, hl, regWrite, usable_windowOpen hl]

/-! ## The sequences' steps -/

/-- A step of line configuration that answers: the next write of the table, and the position moved on; or nothing to do. -/
theorem lineConfigureStep_next {s t : State} (h : lineConfigureStep s = .next t) :
    (∃ k b u, configureWrite s.cfg s.hdl.divisor s.hdl.cfgStep = some (k, b) ∧
      regWrite s.hdl.id k (zext32 b) s = .next u ∧
      t = { u with hdl := { u.hdl with cfgStep := u.hdl.cfgStep + 1 } }) ∨
    (configureWrite s.cfg s.hdl.divisor s.hdl.cfgStep = none ∧ t = s) := by
  unfold lineConfigureStep at h
  split at h
  · rename_i k b hk
    obtain ⟨u, hu, ht⟩ := andThen_eq_next.mp h
    simp only [Host.Outcome.next.injEq] at ht
    exact .inl ⟨k, b, u, hk, hu, ht.symm⟩
  · rename_i hk
    simp only [Host.Outcome.next.injEq] at h
    exact .inr ⟨hk, h.symm⟩

/-- A poll that answers: the status read, logged, then the put phase or one more poll (R151). -/
theorem pollStep_next {w : PendingWrite} {s t : State} (h : pollStep w s = .next t) :
    ∃ v u, regRead w.handle s.cfg.kLsr s = .next (v, u) ∧
      ((transmitReady s.cfg v = true ∧
          t = setWrite w.ctx { w with txPhase := .put } (u.logPoll (.poll (threField s.cfg v)))) ∨
       (transmitReady s.cfg v = false ∧
          t = setWrite w.ctx { w with txPolls := w.txPolls + 1 } (u.logPoll (.poll (threField s.cfg v))))) := by
  obtain ⟨⟨v, u⟩, hr, ht⟩ := andThen_eq_next.mp h
  simp only [Host.Outcome.next.injEq] at ht
  refine ⟨v, u, hr, ?_⟩
  cases hv : transmitReady s.cfg v
  · exact .inr ⟨rfl, by simpa [hv] using ht.symm⟩
  · exact .inl ⟨rfl, by simpa [hv] using ht.symm⟩

/-- A step of a transmit call that answers: the return, the fault at the bound, a poll, or a put (R151, R154). -/
theorem transmitStep_next {w : PendingWrite} {s t : State} (h : transmitStep w s = .next t) :
    (w.txBuf.length ≤ w.txIdx ∧ t = finishWrite w s) ∨
    (∃ b, w.txBuf[w.txIdx]? = some b ∧
      ((w.txPhase = .poll ∧ pollLimitReached s.cfg w.txPolls = true ∧ t = failWrite w s) ∨
       (w.txPhase = .poll ∧ pollLimitReached s.cfg w.txPolls = false ∧ pollStep w s = .next t) ∨
       (w.txPhase = .put ∧ putStep w b s = .next t))) := by
  unfold transmitStep at h
  split at h
  · rename_i hn
    simp only [Host.Outcome.next.injEq] at h
    exact .inl ⟨List.getElem?_eq_none_iff.mp hn, h.symm⟩
  · rename_i b hb
    refine .inr ⟨b, hb, ?_⟩
    split at h
    · rename_i hp
      split at h
      · simp only [Host.Outcome.next.injEq] at h
        exact .inl ⟨hp, ‹_›, h.symm⟩
      · rename_i hl
        exact .inr (.inl ⟨hp, by simpa using hl, h⟩)
    · exact .inr (.inr ⟨‹_›, h⟩)

/-- A put that answers: the DATA write, logged, and the call moved on (R151). -/
theorem putStep_next {w : PendingWrite} {b : Byte} {s t : State} (h : putStep w b s = .next t) :
    ∃ u, regWrite w.handle s.cfg.kData (zext32 b) s = .next u ∧ t = advanceWrite w b (u.logPoll (.put b)) := by
  obtain ⟨u, hu, ht⟩ := andThen_eq_next.mp h
  simp only [Host.Outcome.next.injEq] at ht
  exact ⟨u, hu, ht.symm⟩

/-- A step of the handler that answers is one of E1, E2, E3, or no step (R173). -/
theorem irqStep_next {s t : State} (h : irqStep s = .next t) :
    (s.irqPhase = .idle ∧ t = s) ∨
    (s.irqPhase = .entered ∧ ∃ v u, regRead s.hdl.id s.cfg.kData s = .next (v, u) ∧
      t = { u with irqPhase := .got (low8 v) }) ∨
    (∃ b, s.irqPhase = .got b ∧ t = handlerStore (observedRead s) b s.drew) ∨
    (∃ n, s.irqPhase = .stored n ∧ t = handlerPublish n s) := by
  unfold irqStep at h
  split at h
  · rename_i hp
    simp only [Host.Outcome.next.injEq] at h
    exact .inl ⟨hp, h.symm⟩
  · rename_i hp
    obtain ⟨⟨v, u⟩, hr, ht⟩ := andThen_eq_next.mp h
    simp only [Host.Outcome.next.injEq] at ht
    exact .inr (.inl ⟨hp, v, u, hr, ht.symm⟩)
  · rename_i b hp
    simp only [Host.Outcome.next.injEq] at h
    exact .inr (.inr (.inl ⟨b, hp, h.symm⟩))
  · rename_i n hp
    simp only [Host.Outcome.next.injEq] at h
    exact .inr (.inr (.inr ⟨n, hp, h.symm⟩))

/-- An element looked up with a default is in the list, or is the default. -/
theorem getD_mem_or {α : Type} (l : List α) (i : Nat) (d : α) : l.getD i d ∈ l ∨ l.getD i d = d := by
  rcases Nat.lt_or_ge i l.length with h | h
  · left
    rw [List.getD_eq_getElem _ _ h]
    exact List.getElem_mem h
  · right
    rw [List.getD_eq_default _ _ h]

/-- The observed `read_index` is one of those the producer may still see, or the current one (R71). -/
theorem observedRead_mem (s : State) :
    observedRead s ∈ s.ring.readSeen ∨ observedRead s = s.ring.readIndex :=
  getD_mem_or _ _ _

/-- What a context may still see of `write_index` are values it has had since attach (R71). -/
theorem sinceWake_subset (c : Nat) (l : List Publication) : ∀ v ∈ sinceWake c l, ∃ p ∈ l, p.value = v := by
  induction l with
  | nil => simp [sinceWake]
  | cons p rest ih =>
    intro v hv
    unfold sinceWake at hv
    split at hv
    · obtain ⟨q, hq, hv⟩ := ih v hv
      exact ⟨q, List.mem_cons_of_mem _ hq, hv⟩
    · rw [← List.map_cons] at hv
      simpa [eq_comm] using hv

/-- A signal that wakes a context leaves it nothing older to see than the value published with it (R68, R71). -/
theorem sinceWake_append_woken {c : Nat} (l : List Publication) {p : Publication} (hp : c ∈ p.woke) :
    sinceWake c (l ++ [p]) = [p.value] := by
  induction l with
  | nil => simp [sinceWake]
  | cons q rest ih =>
    have h : (rest ++ [p]).any (fun x => x.woke.contains c) = true :=
      List.any_eq_true.mpr ⟨p, by simp, by simpa using hp⟩
    simpa only [List.cons_append, sinceWake, h, if_true] using ih

/-- A publication whose signal does not wake a context only adds to what it may see (R71). -/
theorem sinceWake_append_other {c : Nat} (l : List Publication) {p : Publication} (hp : c ∉ p.woke) :
    sinceWake c (l ++ [p]) = sinceWake c l ++ [p.value] := by
  induction l with
  | nil => simp [sinceWake]
  | cons q rest ih =>
    have h : (rest ++ [p]).any (fun x => x.woke.contains c) = rest.any (fun x => x.woke.contains c) := by
      simp [hp]
    cases hr : rest.any (fun x => x.woke.contains c) <;> simp only [List.cons_append, sinceWake, h, hr]
    · simp
    · simpa using ih

/-- The contexts a signal wakes are those of the waiting consumers (R177). -/
theorem mem_waitingContexts {c : Nat} {s : State} :
    c ∈ waitingContexts s ↔ ∃ r ∈ s.cons, r.phase = .waiting ∧ r.ctx = c := by
  simp [waitingContexts, and_assoc]

/-- The observed `write_index` is one of those the context may still see, or the current one (R71). -/
theorem observedWrite_mem (c : Nat) (s : State) :
    observedWrite c s ∈ sinceWake c s.ring.published ∨ observedWrite c s = s.ring.writeIndex :=
  getD_mem_or _ _ _

/-- D2 either has no step or takes the byte (R201). -/
theorem dequeueStep_cases (c : Nat) (s : State) :
    (dequeueEnabled c s = false ∧ dequeueStep c s = s) ∨
    (dequeueEnabled c s = true ∧ dequeueStep c s = takeByte c s) := by
  unfold dequeueStep
  cases h : dequeueEnabled c s <;> simp

/-- LINE_TX either moves the holding register's byte to the line or has no step (R156). -/
theorem lineTxStep_cases (s : State) :
    lineTxStep s = s ∨
    (∃ b, s.dev.thr = some b ∧ s.dev.mdr = s.cfg.mdrNormal ∧ lineTxStep s =
      { s with line := { s.line with txLine := s.line.txLine ++ [b] }, dev := { s.dev with thr := none } }) := by
  unfold lineTxStep
  split
  · rename_i b hb
    split
    · rename_i hm
      exact .inr ⟨b, hb, hm, rfl⟩
    · exact .inl rfl
  · exact .inl rfl

/-- A byte arrives at the end of the hardware FIFO, or is lost (R180, R181). -/
theorem receiveByte_cases (b : Byte) (s : State) :
    (s.dev.rxHw.length < s.cfg.rxHwDepth ∧
      receiveByte b s = { s with dev := { s.dev with rxHw := s.dev.rxHw ++ [b] } }) ∨
    (s.cfg.rxHwDepth ≤ s.dev.rxHw.length ∧ receiveByte b s = s) := by
  unfold receiveByte
  split
  · exact .inl ⟨‹_›, rfl⟩
  · exact .inr ⟨Nat.le_of_not_lt ‹_›, rfl⟩

/-- E2 drops and counts, or stores at `write_index`; either way the producer's view is the current `read_index` (R173, R176). -/
theorem handlerStore_cases (rObs : Nat) (b : Byte) (s : State) :
    (cursorNext s.cfg.ringSlots s.ring.writeIndex = rObs ∧ handlerStore rObs b s = { s with
      ring := { s.ring with loss := s.ring.loss + 1, readSeen := [s.ring.readIndex] }
      irqPhase := .idle }) ∨
    (cursorNext s.cfg.ringSlots s.ring.writeIndex ≠ rObs ∧ handlerStore rObs b s = { s with
      ring := { s.ring with buf := Memory.write s.ring.writeIndex b s.ring.buf, readSeen := [s.ring.readIndex] }
      irqPhase := .stored (cursorNext s.cfg.ringSlots s.ring.writeIndex) }) := by
  unfold handlerStore
  split
  · exact .inl ⟨‹_›, rfl⟩
  · exact .inr ⟨‹_›, rfl⟩

/-- After a put: the second copy of the byte, or the next index (R151, R158). -/
theorem advanceWrite_cases (w : PendingWrite) (b : Byte) (s : State) :
    (copyToCome s.cfg w b = true ∧
      advanceWrite w b s = setWrite w.ctx { w with txPhase := .poll, txPolls := 0, txDup := true } s) ∨
    (copyToCome s.cfg w b = false ∧ advanceWrite w b s =
      setWrite w.ctx { w with txIdx := w.txIdx + 1, txPhase := .poll, txPolls := 0, txDup := false } s) := by
  cases h : copyToCome s.cfg w b
  · exact .inr ⟨rfl, by simp [advanceWrite, h]⟩
  · exact .inl ⟨rfl, by simp [advanceWrite, h]⟩

/-- D3 has no step, or ends the cancelled call of the context's own record (R201, R204). -/
theorem interruptedStep_cases (c : Nat) (s : State) :
    interruptedStep c s = s ∨
    (∃ r, consumerOf c s = some r ∧ r.phase = .waiting ∧ r.cancelReq = true ∧
      interruptedStep c s = (endConsumer c s).reply (.host c) .interruptedError) := by
  unfold interruptedStep
  split
  · rename_i h
    obtain ⟨r, hr, hp⟩ := (Option.any_eq_true _ _).mp h
    simp only [Bool.and_eq_true, beq_iff_eq] at hp
    exact .inr ⟨r, hr, hp.1, hp.2, rfl⟩
  · exact .inl rfl

/-- No test is made, or the unlocked test sees an empty ring, or it sees one that is not empty and the lock is taken (R201, R71). -/
theorem lockStep_cases (c : Nat) (s : State) :
    (mayTest c s = false ∧ lockStep c s = s) ∨
    (mayTest c s = true ∧ observedWrite c s = s.ring.readIndex ∧ lockStep c s = s.drew) ∨
    (mayTest c s = true ∧ observedWrite c s ≠ s.ring.readIndex ∧
      lockStep c s = setPhase c .taking { s.drew with consLock := .held c }) := by
  unfold lockStep
  split
  · split
    · exact .inr (.inl ⟨‹_›, ‹_›, rfl⟩)
    · exact .inr (.inr ⟨‹_›, ‹_›, rfl⟩)
  · exact .inl ⟨Bool.eq_false_iff.mpr ‹_›, rfl⟩

/-- Under the lock the byte is taken, or the consumer waits again with the lock released, on an empty ring and on a torn-down handle; no
step without the lock (R201, R223). -/
theorem takeLockedStep_cases (c : Nat) (s : State) :
    takeLockedStep c s = s ∨
    (s.consLock = .held c ∧ notEmpty s = true ∧ ringServed s = true ∧ takeLockedStep c s = takeByte c s) ∨
    (s.consLock = .held c ∧ (notEmpty s = false ∨ ringServed s = false) ∧
      takeLockedStep c s = setPhase c .waiting { s with consLock := .free }) := by
  unfold takeLockedStep
  split
  · rename_i h
    simp only [Bool.and_eq_true, beq_iff_eq] at h
    split
    · rename_i hn
      simp only [Bool.and_eq_true] at hn
      exact .inr (.inl ⟨h.2, hn.1, hn.2, rfl⟩)
    · rename_i hn
      exact .inr (.inr ⟨h.2, by simpa only [Bool.and_eq_true, not_and_or, Bool.not_eq_true] using hn, rfl⟩)
  · exact .inl rfl

/-- Where a consumer may test, spelled out (R201). -/
theorem mayTest_iff {c : Nat} {s : State} :
    mayTest c s = true ↔
      (∃ r, consumerOf c s = some r ∧ r.phase = .waiting) ∧ s.consLock = .free ∧ s.hdl.life = .attached := by
  simp only [mayTest, ringServed, Bool.and_eq_true, beq_iff_eq, Option.any_eq_true, and_assoc]

/-- D2's guard, spelled out (R201). -/
theorem dequeueEnabled_iff {c : Nat} {s : State} :
    dequeueEnabled c s = true ↔
      (∃ r, consumerOf c s = some r ∧ r.phase = .waiting) ∧ s.consLock = .free ∧
      s.ring.writeIndex ≠ s.ring.readIndex ∧ s.hdl.life = .attached := by
  simp only [dequeueEnabled, notEmpty, ringEmpty, Bool.and_eq_true, mayTest_iff, Bool.not_eq_true', decide_eq_false_iff_not,
    and_assoc, ne_eq]
  tauto

/-- A2's first line passes only for an available window that nothing holds and that fits the address space; else the attempt fails
(R220, R222, R7). -/
theorem attachTestWindow_cases (c : Nat) (a : AttachCall) (s : State) :
    attachTestWindow c a s = failAttach c .windowUnavailable s ∨
    (s.env.windowAvail = true ∧ windowHeld a.base s = false ∧ windowFits s.cfg a.base = true ∧
      attachTestWindow c a s = toLine c a .testIrq s) := by
  unfold attachTestWindow
  split
  · exact .inl rfl
  · rename_i h
    simp only [not_or, Bool.not_eq_false, Bool.not_eq_true] at h
    exact .inr ⟨h.1, h.2.1, h.2.2, rfl⟩

/-- A2's second line passes only for an available interrupt line while the device has no handle; else the attempt fails (R220, R222). -/
theorem attachTestIrq_cases (c : Nat) (a : AttachCall) (s : State) :
    (∃ e, attachTestIrq c a s = failAttach c e s) ∨
    (s.env.irqAvail = true ∧ deviceOwned s = false ∧ attachTestIrq c a s = toLine c a .makeHandle s) := by
  unfold attachTestIrq
  split
  · exact .inl ⟨_, rfl⟩
  · rename_i hi
    split
    · exact .inl ⟨_, rfl⟩
    · rename_i hd
      exact .inr ⟨by simpa using hi, by simpa using hd, rfl⟩

/-- A4's step: the next write, or only the move to A5 where the sequence is over (R220, R135). -/
theorem attachConfigure_next {c : Nat} {a : AttachCall} {s t : State} (h : attachConfigure c a s = .next t) :
    (configureDone s = true ∧ t = toLine c a .register s) ∨
    (configureDone s = false ∧ ∃ u, lineConfigureStep s = .next u ∧
      t = if configureDone u then toLine c a .register u else u) := by
  unfold attachConfigure at h
  split at h
  · simp only [Host.Outcome.next.injEq] at h
    exact .inl ⟨‹_›, h.symm⟩
  · rename_i hd
    obtain ⟨u, hu, ht⟩ := andThen_eq_next.mp h
    simp only [Host.Outcome.next.injEq] at ht
    exact .inr ⟨by simpa using hd, u, hu, ht.symm⟩

/-- Every line of `attach` but A4 is a step that answers (R220). -/
theorem resumeAttach_next {c : Nat} {a : AttachCall} {s t : State} (h : resumeAttach c a s = .next t) :
    (a.line = .testWindow ∧ t = attachTestWindow c a s) ∨ (a.line = .testIrq ∧ t = attachTestIrq c a s) ∨
    (a.line = .makeHandle ∧ t = attachMakeHandle c a s) ∨ (a.line = .setArguments ∧ t = attachSetArguments c a s) ∨
    (a.line = .setDivisor ∧ t = attachSetDivisor c a s) ∨ (a.line = .emptyRing ∧ t = attachEmptyRing c a s) ∨
    (a.line = .emptyContexts ∧ t = attachEmptyContexts c a s) ∨ (a.line = .emptyLogs ∧ t = attachEmptyLogs c a s) ∨
    (a.line = .setAttaching ∧ t = attachSetAttaching c a s) ∨ (a.line = .configure ∧ attachConfigure c a s = .next t) ∨
    (a.line = .register ∧ t = attachRegister c a s) ∨ (a.line = .setAttached ∧ t = attachSetAttached c a s) ∨
    (a.line = .giveHandle ∧ t = attachGiveHandle c a s) := by
  unfold resumeAttach at h
  split at h <;> simp_all

/-- ATTACH that answers: BAD_ARGUMENT, or the context inside the call (R220). -/
theorem execAttach_next {base clockHz irqLine : Nat} {s t : State} (h : execAttach base clockHz irqLine s = .next t) :
    ∃ c, s.sched.agent = .host c ∧ busy c s = false ∧
      (((base % 4 ≠ 0 ∨ clockHz < 1) ∧ t = s.reply (.host c) (.attachError .badArgument)) ∨
       (base % 4 = 0 ∧ 1 ≤ clockHz ∧ t = { s with
          calls := s.calls ++ [{ ctx := c, kind := .attach (startAttach base clockHz irqLine) }] })) := by
  obtain ⟨c, ha, hb, hf⟩ := asHost_eq_next h
  refine ⟨c, ha, hb, ?_⟩
  split at hf
  · simp only [Host.Outcome.next.injEq] at hf
    exact .inl ⟨‹_›, hf.symm⟩
  · rename_i hg
    simp only [Host.Outcome.next.injEq] at hf
    simp only [not_or, not_lt, ne_eq, not_not] at hg
    exact .inr ⟨hg.1, hg.2, hf.symm⟩

/-- The later step of DETACH waits for an invocation in progress; then the latest handle is torn down, an older one's call only ends
(R223). -/
theorem resumeDetach_cases (c h : Nat) (s : State) :
    (s.irqPhase ≠ .idle ∧ resumeDetach c h s = s) ∨
    (s.irqPhase = .idle ∧ h = s.hdl.id ∧ resumeDetach c h s = endCall c (tearDown s)) ∨
    (s.irqPhase = .idle ∧ h ≠ s.hdl.id ∧ resumeDetach c h s = endCall c s) := by
  unfold resumeDetach
  split
  · split
    · exact .inr (.inl ⟨‹_›, ‹_›, rfl⟩)
    · exact .inr (.inr ⟨‹_›, ‹_›, rfl⟩)
  · exact .inl ⟨‹_›, rfl⟩

/-- DETACH that answers: readers and writers quiet, the handler unregistered, the context inside the call (R223, R224). -/
theorem execDetach_next {h : Nat} {s t : State} (hd : execDetach h s = .next t) :
    ∃ c, s.sched.agent = .host c ∧ busy c s = false ∧ usable h s = true ∧ s.cons = [] ∧
      (∀ w ∈ s.writes, w.handle ≠ h) ∧
      t = { s with
        hdl := { s.hdl with handlerRegistered := false }
        calls := s.calls ++ [{ ctx := c, kind := .detach h }] } := by
  obtain ⟨c, ha, hb, hf⟩ := asHost_eq_next hd
  obtain ⟨hl, hf⟩ := onAttached_eq_next hf
  split at hf
  · rename_i hq
    simp only [Host.Outcome.next.injEq] at hf
    simp only [Bool.and_eq_true, List.isEmpty_iff, Bool.not_eq_true', List.any_eq_false, beq_iff_eq] at hq
    exact ⟨c, ha, hb, hl, hq.1, hq.2, hf.symm⟩
  · cases hf

/-- LINE_CONFIGURE that answers: W1, and the context inside the call (R132). -/
theorem execLineConfigure_next {h : Nat} {s t : State} (hc : execLineConfigure h s = .next t) :
    ∃ c u, s.sched.agent = .host c ∧ busy c s = false ∧ lifeOf h s = .attaching ∧ s.hdl.cfgStep = 0 ∧
      lineConfigureStep s = .next u ∧ t = { u with calls := u.calls ++ [{ ctx := c, kind := .lineConfigure h }] } := by
  obtain ⟨c, ha, hb, hf⟩ := asHost_eq_next hc
  split at hf
  · rename_i hl
    obtain ⟨u, hu, ht⟩ := andThen_eq_next.mp hf
    simp only [Host.Outcome.next.injEq] at ht
    exact ⟨c, u, ha, hb, hl.1, hl.2, hu, ht.symm⟩
  · cases hf

/-- TRANSMIT_BYTES that answers: a PendingWrite at its start (R151). -/
theorem execTransmitBytes_next {h : Nat} {buf : List Byte} {s t : State} (hx : execTransmitBytes h buf s = .next t) :
    ∃ c, s.sched.agent = .host c ∧ busy c s = false ∧ usable h s = true ∧ t = { s with writes := s.writes ++
        [{ ctx := c, handle := h, txBuf := buf, txIdx := 0, txPhase := .poll, txPolls := 0, txDup := false }] } := by
  obtain ⟨c, ha, hb, hf⟩ := asHost_eq_next hx
  obtain ⟨hl, hf⟩ := onAttached_eq_next hf
  simp only [Host.Outcome.next.injEq] at hf
  exact ⟨c, ha, hb, hl, hf.symm⟩

/-- ON_RECEIVE_INTERRUPT that answers: the interrupt context, an enabled invocation, and E1's read (R173, R250). -/
theorem execOnReceiveInterrupt_next {h : Nat} {s t : State} (hx : execOnReceiveInterrupt h s = .next t) :
    s.sched.agent = .irq ∧ h = s.hdl.id ∧ canInvoke s = true ∧ ∃ v u,
      regRead s.hdl.id s.cfg.kData (enterHandler s) = .next (v, u) ∧ t = { u with irqPhase := .got (low8 v) } := by
  unfold execOnReceiveInterrupt at hx
  split at hx
  · rename_i ha
    split at hx
    · rename_i hc
      obtain ⟨⟨v, u⟩, hr, ht⟩ := andThen_eq_next.mp hx
      simp only [Host.Outcome.next.injEq] at ht
      exact ⟨ha, hc.1, hc.2, v, u, hr, ht.symm⟩
    · cases hx
  all_goals cases hx

/-- READ_ONE_BYTE that answers: the context's own record, waiting (R201). -/
theorem execReadOneByte_next {h : Nat} {s t : State} (hx : execReadOneByte h s = .next t) :
    ∃ c, s.sched.agent = .host c ∧ busy c s = false ∧ usable h s = true ∧
      t = { s with cons := s.cons ++ [{ ctx := c, phase := .waiting, cancelReq := false }] } := by
  obtain ⟨c, ha, hb, hf⟩ := asHost_eq_next hx
  obtain ⟨hl, hf⟩ := onAttached_eq_next hf
  simp only [Host.Outcome.next.injEq] at hf
  exact ⟨c, ha, hb, hl, hf.symm⟩

/-- CANCEL that answers: the mark, and nothing else (R204). -/
theorem execCancel_next {h c : Nat} {s t : State} (hx : execCancel h c s = .next t) :
    usable h s = true ∧ t = markCancelled c s := by
  unfold execCancel at hx
  split at hx
  · obtain ⟨hl, hf⟩ := onAttached_eq_next hx
    simp only [Host.Outcome.next.injEq] at hf
    exact ⟨hl, hf.symm⟩
  · obtain ⟨_, _, _, hf⟩ := asHost_eq_next hx
    obtain ⟨hl, hf⟩ := onAttached_eq_next hf
    simp only [Host.Outcome.next.injEq] at hf
    exact ⟨hl, hf.symm⟩
  all_goals cases hx

/-- READ_LOSS_COUNTER that answers: the count, and nothing else (R208). -/
theorem execReadLossCounter_next {h : Nat} {s t : State} (hx : execReadLossCounter h s = .next t) :
    ∃ c, s.sched.agent = .host c ∧ busy c s = false ∧ usable h s = true ∧
      t = s.reply (.host c) (.lossCount s.ring.loss) := by
  obtain ⟨c, ha, hb, hf⟩ := asHost_eq_next hx
  obtain ⟨hl, hf⟩ := onAttached_eq_next hf
  simp only [Host.Outcome.next.injEq] at hf
  exact ⟨c, ha, hb, hl, hf.symm⟩

/-! ## The step -/

/-- A step with an event to come is that event's turn. -/
theorem step_inputs {s : State} {e : Event} {rest : List Event} (h : s.sched.inputs = e :: rest) :
    step s = runEvent exec e { s with sched := { s.sched with inputs := rest, agent := agentOf e, handle := handleOf e } } := by
  simp [step, nextEvent, takeTurn, h]

/-- Taking the turn touches the scheduling data only. -/
theorem takeTurn_eq (s : State) : ∃ q, takeTurn s = { s with sched := q } := by
  unfold takeTurn
  split <;> exact ⟨_, rfl⟩

/-- A request's turn that answers: it decodes, and its operation answers. -/
theorem runEvent_request_next {run : Instr → State → Result} {a : Agent} {on : Nat} {r : Request} {s t : State}
    (h : runEvent run (.request a on r) s = .next t) :
    ∃ i, decodeRequest s.cfg (dlab s) r = .ok i ∧ run i s = .next t := by
  obtain ⟨i, hi, ht⟩ := andThen_eq_next.mp h
  unfold fetch at hi
  split at hi
  · rename_i j hj
    simp only [Host.Outcome.next.injEq] at hi
    subst hi
    exact ⟨j, hj, ht⟩
  · cases hi

end Sys2Proof.Machine
end

