-- ==== Sys2Proof/Laws/PerInstr.lean ====
section
/-! SUPPORT. Statements made once per operation. Family `Format`: the encoded request has the one fixed shape of its format and names
its row of the operation map (30_encoding.md R80 to R82, R87, R92). -/

namespace Sys2Proof.Laws.Format

open Sys2Proof.Machine (Request)

/-- The number a request's row is found by: `w, k[6:0]` for a register request of five bytes, the code for a block-level one. -/
def rowOf : Request → Option (Nat ⊕ Nat)
  | .reg [wk, _, _, _, _] => some (.inl wk.toNat)
  | .reg _ => none
  | .op code _ => some (.inr code.toNat)

/-- The number the operation map gives an operation (R82, R87), with its offset parameter for a register transaction. -/
def rowNumber (cfg : Config) : Instr → Nat ⊕ Nat
  | .rdData => .inl cfg.kData
  | .wrData _ => .inl (128 + cfg.kData)
  | .rdIer => .inl cfg.kIer
  | .wrIer _ => .inl (128 + cfg.kIer)
  | .rdFcr => .inl cfg.kFcr
  | .wrFcr _ => .inl (128 + cfg.kFcr)
  | .rdLcr => .inl cfg.kLcr
  | .wrLcr _ => .inl (128 + cfg.kLcr)
  | .rdDll => .inl cfg.kDll
  | .wrDll _ => .inl (128 + cfg.kDll)
  | .rdLsr => .inl cfg.kLsr
  | .wrLsr _ => .inl (128 + cfg.kLsr)
  | .rdMdr => .inl cfg.kMdr
  | .wrMdr _ => .inl (128 + cfg.kMdr)
  | .rdDlh => .inl cfg.kDlh
  | .wrDlh _ => .inl (128 + cfg.kDlh)
  | .attach _ _ _ => .inr 0
  | .detach _ => .inr 1
  | .lineConfigure _ => .inr 2
  | .transmitBytes _ _ => .inr 3
  | .onReceiveInterrupt _ => .inr 4
  | .readOneByte _ => .inr 5
  | .cancel _ _ => .inr 6
  | .readLossCounter _ => .inr 7

/-- The encoded request is found under the operation's own row. -/
def Statement (i : Instr) : Prop :=
  ∀ cfg : Config, cfg.offsetsOk = true → rowOf (encode cfg i) = some (rowNumber cfg i)

theorem offset_lt {cfg : Config} (h : cfg.offsetsOk = true) : ∀ k ∈ cfg.offsets, k < 128 := by
  simp only [Config.offsetsOk, Bool.and_eq_true, List.all_eq_true, decide_eq_true_eq] at h
  exact h.2

theorem rowOf_read {k : Nat} (hk : k < 128) : rowOf (readRequest k) = some (.inl k) := by
  simp only [readRequest, regRequest, rowOf, BitVec.toNat_append, BitVec.toNat_ofNat, Option.some.injEq,
    Sum.inl.injEq, BitVec.toNat_ofBool, Bool.toNat_false, Nat.zero_shiftLeft, Nat.zero_or]
  omega

theorem rowOf_write {k : Nat} (hk : k < 128) (v : Word) : rowOf (writeRequest k v) = some (.inl (128 + k)) := by
  have h : (1 <<< 7 ||| k) = 1 <<< 7 + k := (Nat.shiftLeft_add_eq_or_of_lt (by omega) 1).symm
  simp only [writeRequest, regRequest, rowOf, BitVec.toNat_append, BitVec.toNat_ofNat, Option.some.injEq,
    Sum.inl.injEq, BitVec.toNat_ofBool, Bool.toNat_true, Nat.mod_eq_of_lt (show k < 2 ^ 7 by omega), h]
  omega

theorem rdData : Statement .rdData := fun cfg h => rowOf_read (offset_lt h _ (by simp [Config.offsets]))
theorem wrData (v : Word) : Statement (.wrData v) := fun cfg h => rowOf_write (offset_lt h _ (by simp [Config.offsets])) v
theorem rdIer : Statement .rdIer := fun cfg h => rowOf_read (offset_lt h _ (by simp [Config.offsets]))
theorem wrIer (v : Word) : Statement (.wrIer v) := fun cfg h => rowOf_write (offset_lt h _ (by simp [Config.offsets])) v
theorem rdFcr : Statement .rdFcr := fun cfg h => rowOf_read (offset_lt h _ (by simp [Config.offsets]))
theorem wrFcr (v : Word) : Statement (.wrFcr v) := fun cfg h => rowOf_write (offset_lt h _ (by simp [Config.offsets])) v
theorem rdLcr : Statement .rdLcr := fun cfg h => rowOf_read (offset_lt h _ (by simp [Config.offsets]))
theorem wrLcr (v : Word) : Statement (.wrLcr v) := fun cfg h => rowOf_write (offset_lt h _ (by simp [Config.offsets])) v
theorem rdDll : Statement .rdDll := fun cfg h => rowOf_read (offset_lt h _ (by simp [Config.offsets]))
theorem wrDll (v : Word) : Statement (.wrDll v) := fun cfg h => rowOf_write (offset_lt h _ (by simp [Config.offsets])) v
theorem rdLsr : Statement .rdLsr := fun cfg h => rowOf_read (offset_lt h _ (by simp [Config.offsets]))
theorem wrLsr (v : Word) : Statement (.wrLsr v) := fun cfg h => rowOf_write (offset_lt h _ (by simp [Config.offsets])) v
theorem rdMdr : Statement .rdMdr := fun cfg h => rowOf_read (offset_lt h _ (by simp [Config.offsets]))
theorem wrMdr (v : Word) : Statement (.wrMdr v) := fun cfg h => rowOf_write (offset_lt h _ (by simp [Config.offsets])) v
theorem rdDlh : Statement .rdDlh := fun cfg h => rowOf_read (offset_lt h _ (by simp [Config.offsets]))
theorem wrDlh (v : Word) : Statement (.wrDlh v) := fun cfg h => rowOf_write (offset_lt h _ (by simp [Config.offsets])) v
theorem attach (base clockHz irqLine : Nat) : Statement (.attach base clockHz irqLine) := fun _ _ => rfl
theorem detach (h : Nat) : Statement (.detach h) := fun _ _ => rfl
theorem lineConfigure (h : Nat) : Statement (.lineConfigure h) := fun _ _ => rfl
theorem transmitBytes (h : Nat) (buf : List Byte) : Statement (.transmitBytes h buf) := fun _ _ => rfl
theorem onReceiveInterrupt (h : Nat) : Statement (.onReceiveInterrupt h) := fun _ _ => rfl
theorem readOneByte (h : Nat) : Statement (.readOneByte h) := fun _ _ => rfl
theorem cancel (h c : Nat) : Statement (.cancel h c) := fun _ _ => rfl
theorem readLossCounter (h : Nat) : Statement (.readLossCounter h) := fun _ _ => rfl

end Sys2Proof.Laws.Format
end

