-- ==== Sys2Proof/Tests/Slice0.lean ====
section
/-! SUPPORT. The model's own tests. Expected results come from the vectors of 95_test_vectors.md (cited by section and row) or are worked by
hand from the rule named. Then a witness for the premises of every statement, clause by clause. -/

namespace Sys2Proof.Tests

open Sys2Proof Sys2Proof.Machine

/-! ## Helpers -/

/-- The configured state (95_test_vectors.md, "The configured state"), with HOST(0) having the turn, its register request on handle 1. -/
def configured : State :=
  { State.reset with
    dev := { thr := none, rxHw := [], lcr := 0x03, dll := 0x1A, dlh := 0x00, mdr := 0x00, ier := 0x01 }
    hdl := { id := 1, base := 0x40000000, clockHz := 48000000, irqLine := 7, divisor := 26, life := .attached,
             handlerRegistered := true, cfgStep := 9 }
    sched := { State.reset.sched with handle := 1 } }

/-- The configured state with received bytes and a holding register. -/
def holding (rx : List Byte) (thr : Option Byte) : State :=
  { configured with dev := { configured.dev with rxHw := rx, thr := thr } }

/-- The configured state with the latch set. -/
def latched : State := { configured with dev := { configured.dev with lcr := 0x80 } }

/-- The configured state with a ring of `n` slots. -/
def ringed (n w r : Nat) (buf : Memory) : State :=
  { configured with
    cfg := { Config.default with ringSlots := n }
    ring := { configured.ring with
      buf := buf
      writeIndex := w
      readIndex := r
      readSeen := [r]
      published := [{ value := w, woke := [] }] } }

/-- Context `c` suspended in `read_one_byte` on that ring. -/
def waiting (n w r : Nat) (buf : Memory) (c : Nat) (cancelled : Bool) : State :=
  { ringed n w r buf with cons := [{ ctx := c, phase := .waiting, cancelReq := cancelled }] }

/-- The state with that agent having the turn. -/
def as (a : Agent) (s : State) : State := { s with sched := { s.sched with agent := a } }

/-- The state with that event to come. -/
def coming (e : Event) (s : State) : State := { s with sched := { s.sched with inputs := [e] } }

/-- The state with a transmit call of context 3 in progress. -/
def writing (buf : List Byte) (idx : Nat) (phase : TxPhase) (polls : Nat) (s : State) : State :=
  { s with writes := [{ ctx := 3, handle := 1, txBuf := buf, txIdx := idx, txPhase := phase, txPolls := polls, txDup := false }] }

/-- An ATTACHING handle, its configuration `i` writes along. -/
def attaching (i : Nat) : State :=
  { configured with hdl := { configured.hdl with life := .attaching, handlerRegistered := false, cfgStep := i } }

/-- The attach of context 0 at line `l`, for the base and the clock of the vectors. -/
def atLine (l : AttachLine) : AttachCall := { line := l, base := 0x40000000, clockHz := 48000000, irqLine := 7, made := 1 }

/-- The state with context 0 inside an attach, at line `l`, its turn to come. -/
def inAttach (l : AttachLine) (s : State) : State :=
  { coming (.resume 0) s with calls := [{ ctx := 0, kind := .attach (atLine l) }] }

/-- The outcome is a next state with property `p`. -/
def nextIs (o : Result) (p : State → Bool) : Bool :=
  match o with
  | .next t => p t
  | .fault _ => false
  | .refused _ => false

/-- The outcome is that fault. -/
def faults (o : Result) (f : Fault) : Bool :=
  match o with
  | .next _ => false
  | .fault g => g == f
  | .refused _ => false

/-- The outcome is that refusal. -/
def refuses (o : Result) (r : Refusal) : Bool :=
  match o with
  | .next _ => false
  | .fault _ => false
  | .refused q => q == r

/-- The operation a request decodes to under the default parameters. -/
def decodes (latch : Bool) (r : Request) : Option Instr := (decodeRequest Config.default latch r).toOption

/-! ## Decoding (95_test_vectors.md 2.1; R81, R82, R86, R87): a word of every constructor, written out -/

theorem test_decode_data :
    decodes false (.reg [0x00, 0, 0, 0, 0]) = some .rdData ∧
    decodes false (.reg [0x80, 0, 0, 0, 0x64]) = some (.wrData 0x64) := by decide

theorem test_decode_int_enable :
    decodes false (.reg [0x01, 0, 0, 0, 0]) = some .rdIer ∧
    decodes false (.reg [0x81, 0, 0, 0, 0x01]) = some (.wrIer 0x01) := by decide

theorem test_decode_fifo_control :
    decodes false (.reg [0x02, 0, 0, 0, 0]) = some .rdFcr ∧
    decodes true (.reg [0x82, 0, 0, 0, 0x06]) = some (.wrFcr 0x06) := by decide

theorem test_decode_line_control :
    decodes true (.reg [0x03, 0, 0, 0, 0]) = some .rdLcr ∧
    decodes true (.reg [0x83, 0, 0, 0, 0x80]) = some (.wrLcr 0x80) := by decide

theorem test_decode_divisor :
    decodes true (.reg [0x00, 0, 0, 0, 0]) = some .rdDll ∧
    decodes true (.reg [0x80, 0, 0, 0, 0x1A]) = some (.wrDll 0x1A) ∧
    decodes true (.reg [0x01, 0, 0, 0, 0]) = some .rdDlh ∧
    decodes true (.reg [0x81, 0, 0, 0, 0x01]) = some (.wrDlh 0x01) := by decide

theorem test_decode_line_status :
    decodes false (.reg [0x05, 0xDE, 0xAD, 0xBE, 0xEF]) = some .rdLsr ∧
    decodes true (.reg [0x85, 0, 0, 0, 0]) = some (.wrLsr 0) := by decide

theorem test_decode_mode_select :
    decodes true (.reg [0x08, 0, 0, 0, 0]) = some .rdMdr ∧
    decodes false (.reg [0x88, 0, 0, 0, 0x07]) = some (.wrMdr 0x07) := by decide

/-- All 32 bits of `wdata`, in their order. -/
theorem test_decode_wdata_order :
    decodes false (.reg [0x80, 0x12, 0x34, 0x56, 0x64]) = some (.wrData 0x12345664) := by decide

theorem test_decode_operations :
    decodes false (.op 0x0 [0x40000000, 48000000, 7]) = some (.attach 0x40000000 48000000 7) ∧
    decodes false (.op 0x1 [1]) = some (.detach 1) ∧
    decodes false (.op 0x2 [1]) = some (.lineConfigure 1) ∧
    decodes false (.op 0x3 [1, 2, 0x41, 0x42]) = some (.transmitBytes 1 [0x41, 0x42]) ∧
    decodes false (.op 0x4 [1]) = some (.onReceiveInterrupt 1) ∧
    decodes false (.op 0x5 [1]) = some (.readOneByte 1) ∧
    decodes false (.op 0x6 [1, 2]) = some (.cancel 1 2) ∧
    decodes false (.op 0x7 [1]) = some (.readLossCounter 1) := by decide

/-- 2.1 rows 17 to 19, 2.7 row 10, a request of four bytes (R62), a read with a byte count (R207), a buffer shorter than its length. -/
theorem test_decode_reserved :
    decodes false (.reg [0x04, 0, 0, 0, 0]) = none ∧ decodes true (.reg [0x86, 0, 0, 0, 0]) = none ∧
    decodes false (.reg [0xFF, 0, 0, 0, 0]) = none ∧ decodes false (.op 0xA [1]) = none ∧
    decodes false (.reg [0x00, 0, 0, 0]) = none ∧ decodes false (.op 0x5 [1, 8]) = none ∧
    decodes false (.op 0x3 [1, 2, 0x41]) = none := by decide

/-- 2.1, the paragraph on divisor registers with offsets of their own. -/
theorem test_decode_other_offsets :
    let cfg := { Config.default with kDll := 16, kDlh := 17 }
    (decodeRequest cfg true (.reg [0x90, 0, 0, 0, 0x1A])).toOption = some (.wrDll 0x1A) ∧
    (decodeRequest cfg false (.reg [0x90, 0, 0, 0, 0x1A])).toOption = none ∧
    (decodeRequest cfg true (.reg [0x80, 0, 0, 0, 0x64])).toOption = none ∧
    (decodeRequest cfg false (.reg [0x80, 0, 0, 0, 0x64])).toOption = some (.wrData 0x64) := by decide

/-- The table's words: key 0x183 is WR_LCR, 0x180 is WR_DLL and not WR_DATA (2.1), and the codes of R82. -/
theorem test_table_words :
    decodeTableWord 16 0x183 = some (.wrLcr 0) ∧ decodeTableWord 16 0x180 = some (.wrDll 0) ∧
    decodeTableWord 16 0x080 = some (.wrData 0) ∧ decodeTableWord 16 0x101 = some .rdDlh ∧
    decodeTableWord 16 0x1FF = none ∧ decodeTableWord 8 0x3 = some (.transmitBytes 0 []) ∧
    decodeTableWord 8 0x6 = some (.cancel 0 0) := by decide

/-- The byte addresses of 2.1 and of R132 (R83). -/
theorem test_byte_address :
    byteAddr 0x40000000 5 = 0x40000014 ∧ byteAddr 0x40000000 127 = 0x400001FC := by decide

/-! ## Well-formedness (R7, R83) -/

/-- A window beyond the address space, by 12 bytes and by none; a misaligned base; a clock of 0. -/
theorem test_ill_formed_attach :
    wellFormed Config.default (.attach 0xFFFFFFF0 1 0) = false ∧
    wellFormed Config.default (.attach (2 ^ 32 - 36) 1 0) = true ∧
    wellFormed Config.default (.attach 0x40000002 1 0) = false ∧
    wellFormed Config.default (.attach 0x40000000 0 0) = false := by decide

/-- The block turns such an attach away with an AttachError: the window at A2, the arguments at A1 (R220, R221). -/
theorem test_ill_formed_attach_is_answered :
    nextIs (step { inAttach .testWindow State.reset with
        calls := [{ ctx := 0, kind := .attach { atLine .testWindow with base := 0xFFFFFFF0 } }] })
      (fun t => t.answers == [(.host 0, .attachError .windowUnavailable)] && t.calls == [] && t.hdl == State.reset.hdl) = true ∧
    nextIs (step (coming (.request (.host 0) 0 (.op 0 [0x40000000, 0, 0])) State.reset))
      (fun t => t.answers == [(.host 0, .attachError .badArgument)] && t.calls == []) = true := by decide

/-- The parameters: the defaults are legal; each constraint of R86 and R119 refuses its breach. -/
theorem test_config_checks :
    Config.default.wf = true ∧
    Config.wf { Config.default with kFcr := 3 } = false ∧ Config.wf { Config.default with kDlh := 0 } = false ∧
    Config.wf { Config.default with kDll := 3 } = false ∧ Config.wf { Config.default with kMdr := 128 } = false ∧
    Config.wf { Config.default with lsrThre := 0x21 } = false ∧ Config.wf { Config.default with lsrDr := 0x20 } = false ∧
    Config.wf { Config.default with fcrClearXmit := 0x02 } = false ∧ Config.wf { Config.default with lcrWlen8 := 0x83 } = false ∧
    Config.wf { Config.default with mdrDisable := 0x00 } = false ∧ Config.wf { Config.default with ringSlots := 1 } = false ∧
    Config.wf { Config.default with rxHwDepth := 0 } = false ∧
    Config.wf { Config.default with txPollLimit := some 0 } = false := by decide

/-! ## Register transactions (95_test_vectors.md 2.2) -/

/-- Rows 1 and 2. -/
theorem test_rd_data :
    nextIs (exec .rdData (holding [0x61, 0x62] none)) (fun t => t.answers == [(.host 0, .rdata 0x61)] &&
      t.dev.rxHw == [0x62] && irqLevel t && t.obs.txnLog == [.read 0 .data]) = true ∧
    nextIs (exec .rdData (holding [0x62] none)) (fun t => t.answers == [(.host 0, .rdata 0x62)] &&
      t.dev.rxHw == [] && !dataReady t && !irqLevel t) = true := by decide

/-- Row 3: an answer is given, nothing is removed. -/
theorem test_rd_data_empty :
    nextIs (exec .rdData configured) (fun t => t.answers.length == 1 && t.dev == configured.dev) = true := by decide

/-- Rows 4 and 5. -/
theorem test_wr_data :
    nextIs (exec (.wrData 0x12345664) configured) (fun t => t.dev.thr == some 0x64 && !thre t) = true ∧
    faults (exec (.wrData 0x65) (holding [] (some 0x64))) .txOverrun = true := by decide

/-- Row 6. -/
theorem test_rd_ier :
    nextIs (exec .rdIer configured) (fun t => t.answers == [(.host 0, .rdata 1)] && t.dev == configured.dev) = true := by decide

/-- Rows 7, 8 and 9. -/
theorem test_wr_ier :
    nextIs (exec (.wrIer 0x00) (holding [0x10] none)) (fun t => t.dev.ier == 0 && !irqLevel t && dataReady t) = true ∧
    nextIs (exec (.wrIer 0x01) { holding [0x10] none with dev := { (holding [0x10] none).dev with ier := 0 } })
      (fun t => t.dev.ier == 1 && irqLevel t) = true ∧
    refuses (exec (.wrIer 0x03) configured) .unnamedEnableBit = true := by decide

/-- Row 10. -/
theorem test_rd_fcr :
    nextIs (exec .rdFcr configured) (fun t => t.answers.length == 1 && t.dev == configured.dev) = true := by decide

/-- Rows 11 to 14. -/
theorem test_wr_fcr :
    nextIs (exec (.wrFcr 0x06) (holding [0x10, 0x11] (some 0x41))) (fun t => t.dev.rxHw == [] && t.dev.thr == none) = true ∧
    nextIs (exec (.wrFcr 0x02) (holding [0x10, 0x11] (some 0x41))) (fun t => t.dev.rxHw == [] && t.dev.thr == some 0x41) = true ∧
    nextIs (exec (.wrFcr 0x04) (holding [0x10, 0x11] (some 0x41)))
      (fun t => t.dev.rxHw == [0x10, 0x11] && t.dev.thr == none) = true ∧
    nextIs (exec (.wrFcr 0x00) (holding [0x10, 0x11] (some 0x41)))
      (fun t => t.dev == (holding [0x10, 0x11] (some 0x41)).dev) = true := by decide

/-- Row 15. -/
theorem test_wr_fcr_refused :
    refuses (exec (.wrFcr 0x01) configured) .unnamedFifoBit = true ∧
    refuses (exec (.wrFcr 0xC7) configured) .unnamedFifoBit = true := by decide

/-- Rows 16, 17 and 18. -/
theorem test_lcr :
    nextIs (exec .rdLcr configured) (fun t => t.answers == [(.host 0, .rdata 3)]) = true ∧
    nextIs (exec (.wrLcr 0x80) configured) (fun t => t.dev.lcr == 0x80 && dlab t) = true ∧
    refuses (exec (.wrLcr 0x1B) configured) .undescribedLineFormat = true ∧
    refuses (exec (.wrLcr 0x83) configured) .undescribedLineFormat = true := by decide

/-- Rows 19 to 22. -/
theorem test_divisor_registers :
    nextIs (exec .rdDll latched) (fun t => t.answers == [(.host 0, .rdata 0x1A)] && t.dev == latched.dev) = true ∧
    nextIs (exec (.wrDll 0x0D) latched) (fun t => t.dev.dll == 0x0D && t.dev.thr == none) = true ∧
    nextIs (exec .rdDlh latched) (fun t => t.answers == [(.host 0, .rdata 0)]) = true ∧
    nextIs (exec (.wrDlh 0x01) latched) (fun t => t.dev.dlh == 0x01 && t.dev.ier == 0x01) = true := by decide

/-- P6 steps 3 and 4: with the latch set, DATA's offset reaches DIVISOR_LOW. -/
theorem test_latch_redirects :
    nextIs (exec .rdData { latched with dev := { latched.dev with rxHw := [0x32] } })
      (fun t => t.answers == [(.host 0, .rdata 0x1A)] && t.dev.rxHw == [0x32]) = true ∧
    nextIs (exec (.wrData 0x0D) latched) (fun t => t.dev.dll == 0x0D && t.dev.thr == none) = true := by decide

/-- Rows 23 to 26, whatever the free bits are: the value under all-zero and under all-one draws. -/
theorem test_line_status_value :
    lineStatusValue 0 (holding [] none) = 0x20 ∧ lineStatusValue 0 (holding [] (some 0x41)) = 0x00 ∧
    lineStatusValue 0 (holding [0x10] (some 0x41)) = 0x01 ∧ lineStatusValue 0 (holding [0x10] none) = 0x21 ∧
    lineStatusValue 0xFFFFFFFF (holding [] none) = 0xFFFFFFFE := by decide

theorem test_rd_lsr :
    nextIs (exec .rdLsr (holding [0x10] (some 0x41)))
      (fun t => t.answers.length == 1 && t.dev == (holding [0x10] (some 0x41)).dev) = true := by decide

/-- Row 27. -/
theorem test_wr_lsr : refuses (exec (.wrLsr 0x00) configured) .readOnlyLineStatus = true := by decide

/-- Rows 28, 29 and 30. -/
theorem test_mdr :
    nextIs (exec .rdMdr configured) (fun t => t.answers == [(.host 0, .rdata 0)]) = true ∧
    nextIs (exec (.wrMdr 0x07) (holding [] (some 0x41)))
      (fun t => t.dev.mdr == 0x07 && (lineTxStep t).dev.thr == some 0x41) = true ∧
    nextIs (exec (.wrMdr 0x00) (holding [] (some 0x41))) (fun t => (lineTxStep t).line.txLine == [0x41]) = true := by decide

/-- Rows 31 and 32; and a request on the torn-down handle 1 while handle 2 is live (R226, R280), which its request on handle 2 is not. -/
theorem test_refused_transactions :
    refuses (step (coming (.request (.host 0) 1 (readRequest 4)) configured)) .reservedOffset = true ∧
    refuses (exec .rdLcr { configured with hdl := { configured.hdl with life := .tornDown } }) .notAttached = true ∧
    (let s := { configured with hdl := { configured.hdl with id := 2 } }
     refuses (step (coming (.request (.host 0) 1 (readRequest 3)) s)) .notAttached = true ∧
     nextIs (step (coming (.request (.host 0) 2 (readRequest 3)) s)) (fun t => t.answers == [(.host 0, .rdata 3)]) = true) := by
  decide

/-! ## Line configuration (95_test_vectors.md 2.3, P1) -/

/-- The table of 2.3, its boundary rows. -/
theorem test_divisor_table :
    baudDivisor 48000000 = 26 ∧ baudDivisor 49766399 = 26 ∧ baudDivisor 49766400 = 27 ∧ baudDivisor 1843200 = 1 ∧
    baudDivisor 1843199 = 0 ∧ baudDivisor 500000000 = 271 ∧ divisorLow 271 = 0x0F ∧ divisorHigh 271 = 0x01 ∧
    baudDivisor 120795955199 = 65535 ∧ baudDivisor 120795955200 = 65536 ∧ divisorLow 65536 = 0 ∧ divisorHigh 65536 = 0 := by
  decide

/-- W1 at the request, and W9, the last write, which ends the call (R132, R135). -/
theorem test_line_configure :
    nextIs (exec (.lineConfigure 1) (attaching 0)) (fun t => t.dev.mdr == 0x07 && t.hdl.cfgStep == 1 &&
      t.calls == [{ ctx := 0, kind := .lineConfigure 1 }]) = true ∧
    nextIs (step (coming (.resume 0) { attaching 8 with calls := [{ ctx := 0, kind := .lineConfigure 1 }] }))
      (fun t => t.dev.ier == 0x01 && t.hdl.cfgStep == 9 && t.calls == []) = true := by decide

/-- 2.7 row 9. -/
theorem test_line_configure_refused : refuses (exec (.lineConfigure 1) configured) .alreadyConfigured = true := by decide

/-! ## Transmit (95_test_vectors.md 2.4, P7) -/

/-- Row 1, its request and its return, and the start of row 2. -/
theorem test_transmit_bytes :
    nextIs (exec (.transmitBytes 1 []) configured) (fun t => t.answers == [] && t.writes.length == 1) = true ∧
    nextIs (step (coming (.resume 3) (writing [] 0 .poll 0 configured))) (fun t => t.answers == [(.host 3, .count 0)] &&
      t.writes == [] && t.obs.txnLog == []) = true ∧
    nextIs (exec (.transmitBytes 1 [0x41]) configured) (fun t =>
      t.writes == [{ ctx := 0, handle := 1, txBuf := [0x41], txIdx := 0, txPhase := .poll, txPolls := 0, txDup := false }] &&
      t.answers == []) = true := by decide

/-- Row 2: the put of the last byte, then the return of the count; a detach that falls between is refused (R224). -/
theorem test_put_returns :
    nextIs (step (coming (.resume 3) (writing [0x41] 0 .put 0 configured))) (fun t => t.dev.thr == some 0x41 &&
      t.answers == [] && t.writes.map PendingWrite.txIdx == [1] && t.obs.txnLog == [.write 0 .data 0x41]) = true ∧
    refuses (exec (.detach 1) (writing [0x41] 1 .poll 0 configured)) .notQuiet = true ∧
    nextIs (step (coming (.resume 3) (writing [0x41] 1 .poll 0 configured)))
      (fun t => t.answers == [(.host 3, .count 1)] && t.writes == []) = true := by decide

/-- Row 6: three status reads with THRE clear at a bound of 3 are followed by `TransmitFault` with the index 1. -/
theorem test_transmit_fault :
    nextIs (step { coming (.resume 3) (writing [0x41, 0x42] 1 .poll 3 (holding [] (some 0x41))) with
        cfg := { Config.default with txPollLimit := some 3 } })
      (fun t => t.answers == [(.host 3, .transmitFault 1)] && t.writes == [] && t.obs.txnLog == [] &&
        t.dev.thr == some 0x41) = true := by decide

/-- Row 5: the first copy of a newline byte is followed by a second. -/
theorem test_newline_twice :
    nextIs (step (coming (.resume 3) { (writing [0x41, 0x0A] 1 .put 0 configured) with cfg := { Config.default with nlDup := true } }))
      (fun t => t.writes.map (fun w => (w.txIdx, w.txDup)) == [(1, true)] && t.answers == []) = true := by decide

/-! ## Receive side (95_test_vectors.md 2.5) -/

/-- E1 of P3 step 2, and a call from an ordinary context. -/
theorem test_on_receive_interrupt :
    nextIs (exec (.onReceiveInterrupt 1) (as .irq (holding [0x61] none)))
      (fun t => t.irqPhase == .got 0x61 && t.dev.rxHw == [] && t.obs.txnLog == [.read 0 .data]) = true ∧
    refuses (exec (.onReceiveInterrupt 1) (holding [0x61] none)) .wrongContext = true ∧
    refuses (exec (.onReceiveInterrupt 1) (as .irq configured)) .interruptNotEnabled = true := by decide

/-- Rows 2, 4 and 6: store at the top slot; drop on a full ring of 32 and of 2 slots. -/
theorem test_enqueue_boundaries :
    (handlerStore 5 0x7E (ringed 32 31 5 [])).ring.buf = [(31, 0x7E)] ∧
    (handlerStore 5 0x7E (ringed 32 31 5 [])).irqPhase = .stored 0 ∧
    (handlerStore 0 0x7E (ringed 32 31 0 [])).ring.loss = 1 ∧
    (handlerStore 0 0x02 (ringed 2 1 0 [(0, 0x01)])).ring.buf = [(0, 0x01)] := by decide

/-- Rows 7 and 8: a stale view drops, a fresh one stores. Row 9: the counter wraps. -/
theorem test_enqueue_stale_and_wrap :
    (handlerStore 0 0x33 (ringed 4 3 1 [])).ring.loss = 1 ∧
    (handlerStore 1 0x33 (ringed 4 3 1 [])).ring.buf = [(3, 0x33)] ∧
    (let s := ringed 32 4 5 []
     (handlerStore 5 0x00 { s with ring := { s.ring with loss := 0xFFFFFFFF } }).ring.loss = 0) := by decide

/-- The derived flags' list of 2.5, and the receiver's paragraph. -/
theorem test_ring_flags_and_receiver :
    ringCount (ringed 32 1 31 []) = 2 ∧ ringFull (ringed 32 30 31 []) = true ∧ ringEmpty (ringed 32 7 7 []) = true ∧
    (receiveByte 0x11 { holding [0x10] none with cfg := { Config.default with rxHwDepth := 1 } }).dev.rxHw = [0x10] ∧
    (receiveByte 0x11 (holding (List.replicate 15 0x10) none)).dev.rxHw.length = 16 := by decide

/-! ## Blocking read (95_test_vectors.md 2.6) -/

/-- Row 3, and row 9: a suspended context issues nothing. -/
theorem test_read_one_byte :
    nextIs (exec (.readOneByte 1) (ringed 32 3 3 [])) (fun t => t.cons == [{ ctx := 0, phase := .waiting, cancelReq := false }]) = true ∧
    refuses (exec (.readOneByte 1) (waiting 32 3 3 [] 0 false)) .contextBusy = true := by decide

/-- Row 2: the cursor wraps. -/
theorem test_dequeue_wraps :
    nextIs (step (coming (.dequeue 1) (waiting 32 0 31 [(31, 0x7E)] 1 false))) (fun t => t.answers == [(.host 1, .byte 0x7E)] &&
      t.ring.readIndex == 0 && t.cons == []) = true := by decide

/-- Rows 4 and 7. -/
theorem test_cancel :
    nextIs (exec (.cancel 1 1) (as .envCancel (waiting 32 3 3 [] 1 false)))
      (fun t => t.cons == [{ ctx := 1, phase := .waiting, cancelReq := true }]) = true ∧
    nextIs (exec (.cancel 1 2) (as .envCancel (waiting 32 3 3 [] 1 false)))
      (fun t => t == as .envCancel (waiting 32 3 3 [] 1 false)) = true ∧
    nextIs (step (coming (.interrupted 1) (waiting 32 3 3 [] 1 true)))
      (fun t => t.answers == [(.host 1, .interruptedError)] && t.ring.readIndex == 3 && t.cons == []) = true := by decide

/-- Row 8. -/
theorem test_read_loss_counter :
    nextIs (exec (.readLossCounter 1) { configured with ring := { configured.ring with loss := 2 } })
      (fun t => t.answers == [(.host 0, .lossCount 2)]) = true := by decide

/-! ## Lifecycle (95_test_vectors.md 2.7) -/

/-- Rows 1 and 2: A1 passes good arguments on to A2 with no handle made, and answers a misaligned base. -/
theorem test_attach :
    nextIs (exec (.attach 0x40000000 48000000 7) State.reset) (fun t => t.hdl == State.reset.hdl && t.answers == [] &&
      t.calls == [{ ctx := 0, kind := .attach { atLine .testWindow with made := 0 } }]) = true ∧
    nextIs (exec (.attach 0x40000002 48000000 7) State.reset)
      (fun t => t.answers == [(.host 0, .attachError .badArgument)] && t.hdl == State.reset.hdl && t.calls == []) = true := by decide

/-- Rows 3, 4 and 5; and row 4 on another base while a handle is live (R220 A2), where with both resources the device still has its one
handle (R222). -/
theorem test_attach_unavailable :
    nextIs (step { inAttach .testWindow State.reset with env := { windowAvail := false, irqAvail := false } })
      (fun t => t.answers == [(.host 0, .attachError .windowUnavailable)]) = true ∧
    nextIs (step { inAttach .testIrq State.reset with env := { windowAvail := true, irqAvail := false } })
      (fun t => t.answers == [(.host 0, .attachError .irqUnavailable)] && t.calls == []) = true ∧
    nextIs (step (inAttach .testWindow configured))
      (fun t => t.answers == [(.host 0, .attachError .windowUnavailable)] && t.hdl == configured.hdl) = true ∧
    (let other (l : AttachLine) (irq : Bool) : State := { inAttach l configured with
       calls := [{ ctx := 0, kind := .attach { atLine l with base := 0x50000000 } }], env := { windowAvail := true, irqAvail := irq } }
     nextIs (step (other .testWindow false)) (fun t => t.answers == [] && t.calls.length == 1) = true ∧
     nextIs (step (other .testIrq false)) (fun t => t.answers == [(.host 0, .attachError .irqUnavailable)]) = true ∧
     nextIs (step (other .testIrq true)) (fun t => t.answers == [(.host 0, .attachError .windowUnavailable)] &&
       t.hdl == configured.hdl) = true) := by decide

/-- Two attaches at once: the window the first has acquired is not available to the second (R220 A2). -/
theorem test_attach_window_is_acquired :
    nextIs (step { inAttach .testWindow State.reset with calls := [{ ctx := 0, kind := .attach (atLine .testWindow) },
        { ctx := 1, kind := .attach (atLine .testIrq) }] })
      (fun t => t.answers == [(.host 0, .attachError .windowUnavailable)] && t.calls.map HostCall.ctx == [1]) = true := by decide

/-- Rows 6 and 7; and the bytes still in the ring are discarded with the handle (R223): a reader is answered none, the cursors stay. -/
theorem test_detach :
    nextIs (exec (.detach 1) configured) (fun t => !t.hdl.handlerRegistered && t.hdl.life == .attached && t.obs.txnLog == []) = true ∧
    nextIs (step { coming (.resume 0) (waiting 32 3 2 [(2, 0x61)] 1 false) with calls := [{ ctx := 0, kind := .detach 1 }] })
      (fun t => t.hdl.life == .tornDown && t.dev.ier == 0x01 && t.calls == [] && t.ring == (waiting 32 3 2 [(2, 0x61)] 1 false).ring &&
        !dequeueEnabled 1 t) = true ∧
    refuses (exec (.detach 1) (waiting 32 3 3 [] 1 false)) .notQuiet = true := by decide

/-- P3, step 14 and the end state: detach leaves both cursors at 3, `loss` 0 and the stale bytes in their slots. -/
theorem test_detach_keeps_the_ring :
    nextIs (step { coming (.resume 0) (ringed 32 3 3 [(0, 0x61), (1, 0x62), (2, 0x63)]) with calls := [{ ctx := 0, kind := .detach 1 }] })
      (fun t => t.hdl.life == .tornDown && t.ring.writeIndex == 3 && t.ring.readIndex == 3 && t.ring.loss == 0 &&
        t.ring.buf == [(0, 0x61), (1, 0x62), (2, 0x63)]) = true := by decide

/-- Between A6's two lines the handle is ATTACHED and not returned: a host's requests on it are refused, after the return they are admitted
(R272, R274 item 8). -/
theorem test_not_returned_is_refused :
    (∀ i ∈ [Instr.rdLcr, .wrData 0x41, .detach 1, .transmitBytes 1 [], .readOneByte 1, .cancel 1 0, .readLossCounter 1, .lineConfigure 1],
      (match exec i { configured with calls := [{ ctx := 5, kind := .attach (atLine .giveHandle) }] } with
        | .refused _ => true | .next _ => false | .fault _ => false) = true) ∧
    nextIs (step (inAttach .giveHandle configured)) (fun t => usable 1 t && t.answers == [(.host 0, .handle 1)]) = true := by decide

/-- A request placed after reset without the attach that admits it is refused (R272); ATTACH is answered. -/
theorem test_first_request_after_reset :
    refuses (step (coming (.request (.host 0) 1 (readRequest 3)) State.reset)) .notAttached = true ∧
    nextIs (step (coming (.request (.host 0) 1 (.op 0 [0x40000000, 48000000, 7])) State.reset)) (fun t => t.calls.length == 1) = true := by
  decide

/-- The table's words, placed after reset, run as the very next step: every row but the refused WR_LSR gives a next state. -/
theorem test_words_after_reset :
    (∀ w ∈ [0x000, 0x080, 0x001, 0x081, 0x002, 0x082, 0x003, 0x083, 0x100, 0x180, 0x005, 0x008, 0x088, 0x101, 0x181],
      nextIs (step (State.reset.withFetchWord 16 w)) (fun t => t.obs.txnLog.length == 1) = true) ∧
    (∀ w ∈ [0, 1, 2, 3, 4, 5, 6, 7], nextIs (step (State.reset.withFetchWord 8 w)) (fun _ => true) = true) ∧
    refuses (step (State.reset.withFetchWord 16 0x085)) .readOnlyLineStatus = true := by decide

/-! ## Witnesses: states and operands that meet the premises of each statement, one for each of its clauses -/

theorem nextIs_next {o : Result} {p : State → Bool} (h : nextIs o p = true) : ∃ t, o = .next t ∧ p t = true := by
  cases o with
  | next t => exact ⟨t, rfl, h⟩
  | fault _ => cases h
  | refused _ => cases h

theorem noConfiguring_nil {s : State} (h : s.calls = []) : NoConfiguring s := by
  intro k hk
  rw [h] at hk
  cases hk

theorem test_witness_encode_then_decode :
    Config.default.wf = true ∧ reachable Config.default false (.wrData 0xFFFFFFFF) = true ∧
    reachable Config.default true (.wrDlh 0) = true ∧ reachable Config.default true (.cancel 0 1) = true := by decide

theorem test_witness_decode_then_encode :
    decodes false (.reg [0x05, 0xDE, 0xAD, 0xBE, 0xEF]) = some .rdLsr ∧ isRegisterRead .rdLsr = true ∧
    decodes true (.reg [0x81, 0xFF, 0, 0, 0]) = some (.wrDlh 0xFF000000) ∧ isRegisterRead (.wrDlh 0xFF000000) = false := by decide

theorem test_witness_reserved_encodings :
    [0x00, 0, 0, 0].length ≠ 5 ∧ select Config.default (requestOffset 0xFF) false = .reserved ∧
    8 ≤ (0x8#4).toNat ∧ 8 ≤ (0xF#4).toNat ∧
    (coming (.request (.host 0) 1 (.op 0x8 [])) configured).sched.inputs = .request (.host 0) 1 (.op 0x8 []) :: [] ∧
    decodes false (.op 0x8 []) = none := by decide

theorem test_witness_latch :
    Config.default.wf = true ∧ Config.wf { Config.default with kDll := 16, kDlh := 17 } = true ∧
    4 ∉ Config.default.offsets ∧ 127 ∉ Config.default.offsets := by decide

theorem test_witness_step_runs :
    let s := coming (.request (.host 0) 1 (.reg [0x83, 0, 0, 0, 0x80])) configured
    s.sched.inputs = .request (.host 0) 1 (.reg [0x83, 0, 0, 0, 0x80]) :: [] ∧
    decodes (dlab s) (.reg [0x83, 0, 0, 0, 0x80]) = some (.wrLcr 0x80) ∧ s.cfg = Config.default := by decide

theorem test_witness_generic_transactions :
    (decodeReg configured.cfg (dlab configured) [0x03, 0, 0, 0, 0]).toOption = some .rdLcr ∧
    (decodeReg latched.cfg (dlab latched) [0x81, 0, 0, 0, 0xFF]).toOption = some (.wrDlh 0xFF) := by decide

theorem test_witness_read_data :
    (HostReady (holding [0x62] none) 0 ∧ select configured.cfg configured.cfg.kData (dlab (holding [0x62] none)) = .data ∧
      (holding [0x62] none).dev.rxHw = 0x62 :: []) ∧
    (HostReady configured 0 ∧ select configured.cfg configured.cfg.kData (dlab configured) = .data ∧ configured.dev.rxHw = []) ∧
    (HostReady latched 0 ∧ dlab latched = true ∧ latched.cfg.kData = latched.cfg.kDll) := by decide

theorem test_witness_write_data :
    (HostReady configured 0 ∧ select configured.cfg configured.cfg.kData (dlab configured) = .data ∧ configured.dev.thr = none) ∧
    (HostReady (holding [] (some 0xFF)) 0 ∧ (holding [] (some 0xFF)).dev.thr = some 0xFF) ∧
    (HostReady latched 0 ∧ dlab latched = true ∧ latched.cfg.kData = latched.cfg.kDll) := by decide

theorem test_witness_stored_registers :
    HostReady configured 0 ∧ HostReady latched 0 ∧
    select configured.cfg configured.cfg.kIer (dlab configured) = .intEnable ∧
    select configured.cfg configured.cfg.kLcr (dlab configured) = .lineControl ∧
    select latched.cfg latched.cfg.kDll (dlab latched) = .divisorLow ∧
    select configured.cfg configured.cfg.kMdr (dlab configured) = .modeSelect ∧
    select latched.cfg latched.cfg.kDlh (dlab latched) = .divisorHigh := by decide

theorem test_witness_write_int_enable :
    (HostReady configured 0 ∧ select configured.cfg configured.cfg.kIer (dlab configured) = .intEnable ∧
      low8 0xFFFFFF01 &&& ~~~ configured.cfg.ierRdi = 0 ∧ low8 0 &&& ~~~ configured.cfg.ierRdi = 0) ∧
    low8 0x02 &&& ~~~ configured.cfg.ierRdi ≠ 0 ∧
    (HostReady latched 0 ∧ dlab latched = true ∧ latched.cfg.kDll ≠ latched.cfg.kDlh ∧ latched.cfg.kIer = latched.cfg.kDlh) := by
  decide

theorem test_witness_write_fifo_control :
    HostReady (holding [0x10] (some 0x41)) 0 ∧
    select configured.cfg configured.cfg.kFcr (dlab configured) = .fifoControl ∧
    low8 0x06 &&& ~~~ (configured.cfg.fcrClearRcvr ||| configured.cfg.fcrClearXmit) = 0 ∧
    low8 0x06 &&& configured.cfg.fcrClearRcvr ≠ 0 ∧ low8 0x06 &&& configured.cfg.fcrClearXmit ≠ 0 ∧
    low8 0x07 &&& ~~~ (configured.cfg.fcrClearRcvr ||| configured.cfg.fcrClearXmit) ≠ 0 := by decide

theorem test_witness_write_line_control :
    configured.cfg.wf = true ∧ HostReady configured 0 ∧ HostReady latched 0 ∧
    (low8 0x80 = 0 ∨ low8 0x80 = configured.cfg.lcrDlab ∨ low8 0x80 = configured.cfg.lcrWlen8) ∧
    low8 0x80 ≠ configured.cfg.lcrWlen8 ∧
    ¬ (low8 0x83 = 0 ∨ low8 0x83 = configured.cfg.lcrDlab ∨ low8 0x83 = configured.cfg.lcrWlen8) := by decide

theorem test_witness_write_divisor_and_mode :
    (HostReady latched 0 ∧ select latched.cfg latched.cfg.kDll (dlab latched) = .divisorLow ∧
      select latched.cfg latched.cfg.kDlh (dlab latched) = .divisorHigh) ∧
    (HostReady configured 0 ∧ select configured.cfg configured.cfg.kMdr (dlab configured) = .modeSelect ∧
      low8 0x07 ≠ configured.cfg.mdrNormal ∧ dlab configured = false ∧
      configured.cfg.kDll = configured.cfg.kData ∧ configured.cfg.kDlh = configured.cfg.kIer ∧
      select configured.cfg configured.cfg.kDll (dlab configured) = .data ∧ configured.dev.thr = none ∧
      (holding [] (some 0xFF)).dev.thr ≠ none ∧
      select configured.cfg configured.cfg.kDlh (dlab configured) = .intEnable ∧ low8 0x01 &&& ~~~ configured.cfg.ierRdi = 0 ∧
      low8 0x02 &&& ~~~ configured.cfg.ierRdi ≠ 0) := by
  decide

theorem test_witness_reads_with_free_bits :
    HostReady configured 0 ∧ select configured.cfg configured.cfg.kFcr (dlab configured) = .fifoControl ∧
    select configured.cfg configured.cfg.kLsr (dlab configured) = .lineStatus ∧ configured.cfg.wf = true := by decide

theorem test_witness_write_line_status :
    (HostReady configured 0 ∧ select configured.cfg configured.cfg.kLsr (dlab configured) = .lineStatus) ∧
    (let s := { latched with cfg := { Config.default with kDll := 5 } }
     HostReady s 0 ∧ dlab s = true ∧ s.cfg.kLsr = s.cfg.kDll ∧ s.cfg.wf = true) := by decide

theorem test_witness_read_frame : isRegisterRead .rdData = true ∧ ∃ t, exec .rdData (holding [0x61] none) = .next t ∧ t.dev.rxHw = [] :=
  ⟨rfl, (nextIs_next (p := fun t => t.dev.rxHw == []) (by decide)).imp fun _ h => ⟨h.1, by simpa using h.2⟩⟩

theorem test_witness_write_frame :
    (registerOf configured.cfg (.wrIer 0)).isSome = true ∧ isRegisterRead (.wrIer 0) = false ∧
    ∃ t, exec (.wrIer 0) configured = .next t ∧ (t.dev.ier == 0) = true :=
  ⟨rfl, rfl, nextIs_next (by decide)⟩

theorem test_witness_logged :
    ∃ t, step (coming (.request (.host 0) 1 (readRequest 3)) configured) = .next t ∧
      (t.obs.txnLog == [.read 3 .lineControl]) = true := nextIs_next (by decide)

/-- Before attach; after detach; on an older handle while handle 2 is live; on a handle not made yet; during attach; at its return. -/
theorem test_witness_dead_handle :
    (namedHandle State.reset .rdData = some 0 ∧ lifeOf 0 State.reset = .detached) ∧
    (let s := { configured with hdl := { configured.hdl with life := .tornDown } }
     namedHandle s (.wrData 0) = some 1 ∧ lifeOf 1 s = .tornDown) ∧
    (let s := { configured with hdl := { configured.hdl with id := 2 } }
     namedHandle s .rdLsr = some 1 ∧ lifeOf 1 s = .tornDown ∧ namedHandle s (.cancel 3 0) = some 3 ∧ lifeOf 3 s = .detached) ∧
    (namedHandle (attaching 9) .rdData = some 1 ∧ lifeOf 1 (attaching 9) = .attaching) ∧
    (let s := inAttach .giveHandle configured
     namedHandle s (.detach 1) = some 1 ∧ lifeOf 1 s = .attached ∧ notYetReturned 1 s = true) := by
  decide

theorem test_witness_divisor_stored :
    let s := inAttach .setDivisor State.reset
    s.sched.inputs = .resume 0 :: [] ∧
    s.calls.find? (fun k => k.ctx == 0) = some { ctx := 0, kind := .attach (atLine .setDivisor) } := by decide

theorem test_witness_line_configure :
    (HostTurn (attaching 0) 0 ∧ lifeOf 1 (attaching 0) = .attaching ∧ (attaching 0).hdl.cfgStep = 0 ∧
      select (attaching 0).cfg (attaching 0).cfg.kMdr (dlab (attaching 0)) = .modeSelect) ∧
    (HostTurn (attaching 1) 0 ∧ ¬ (lifeOf 1 (attaching 1) = .attaching ∧ (attaching 1).hdl.cfgStep = 0)) ∧
    (HostTurn configured 0 ∧ ¬ (lifeOf 1 configured = .attaching ∧ configured.hdl.cfgStep = 0)) := by decide

/-- P1's hostile power-on state, with and without the receive interrupt, inside attach and at a LINE_CONFIGURE request. -/
theorem test_witness_line_configuration :
    let hostile (irq : Bool) (calls : List HostCall) (inputs : List Event) : State :=
      { attaching 0 with
        cfg := { Config.default with rxIrqEnabled := irq }
        dev := { thr := some 0x55, rxHw := [0xAA, 0xBB], lcr := 0x80, dll := 0xFF, dlh := 0xFF, mdr := 0x00, ier := 0xFF }
        calls := calls
        sched := { State.reset.sched with inputs := inputs } }
    ∀ irq n, (irq = true ∧ n = 9) ∨ (irq = false ∧ n = 8) →
      (let s := hostile irq [{ ctx := 0, kind := .attach (atLine .configure) }] (List.replicate n (.resume 0) ++ [])
       s.cfg.wf = true ∧ n = configureWrites s.cfg ∧ s.hdl.life = .attaching ∧ s.hdl.cfgStep = 0 ∧
       s.calls.find? (fun k => k.ctx == 0) = some { ctx := 0, kind := .attach (atLine .configure) } ∧
       s.sched.inputs = List.replicate (configureWrites s.cfg) (.resume 0) ++ []) ∧
      (let s := hostile irq [] (.request (.host 0) 1 (.op 2 [1]) :: (List.replicate (n - 1) (.resume 0) ++ []))
       busy 0 s = false ∧ s.sched.inputs = .request (.host 0) 1 (encode s.cfg (.lineConfigure s.hdl.id)) ::
         (List.replicate (configureWrites s.cfg - 1) (.resume 0) ++ [])) := by
  rintro _ irq n (⟨rfl, rfl⟩ | ⟨rfl, rfl⟩) <;> decide

theorem test_witness_line_configured :
    let s := coming (.resume 3) (writing [0x41] 0 .put 0 configured)
    (s.cfg.wf = true ∧ lineConfigured s = true ∧ s.hdl.life = .attached ∧ NoConfiguring s ∧ directRequest (nextEvent s) = false) ∧
    ∃ t, step s = .next t ∧ (t.dev.thr == some 0x41) = true :=
  ⟨⟨rfl, by decide, rfl, noConfiguring_nil rfl, rfl⟩, nextIs_next (p := fun t => t.dev.thr == some 0x41) (by decide)⟩

theorem test_witness_transmit_begins : HostTurn configured 0 ∧ usable 1 configured = true := by decide

/-- Ready; not ready with no bound, and one poll below a bound of 3; at a bound of 1 and of 3. -/
theorem test_witness_poll :
    let s (thr : Option Byte) (l : Option Nat) (polls : Nat) : State :=
      { coming (.resume 3) (writing [0x41] 0 .poll polls (holding [] thr)) with cfg := { Config.default with txPollLimit := l } }
    (∀ x ∈ [s none none 0, s (some 0) none 7, s (some 0) (some 3) 2, s (some 0) (some 1) 1, s none (some 3) 3],
      x.cfg.wf = true ∧ x.sched.inputs = .resume 3 :: [] ∧ x.calls.find? (fun k => k.ctx == 3) = none ∧
      (x.writes.find? (fun w => w.ctx == 3)).map (fun w => (w.txBuf[w.txIdx]?, w.txPhase)) = some (some 0x41, .poll) ∧
      lifeOf 1 x = .attached ∧ select x.cfg x.cfg.kLsr (dlab x) = .lineStatus) ∧
    (s (some 0) (some 3) 2).cfg.txPollLimit = some 3 ∧ (s (some 0) (some 1) 1).cfg.txPollLimit = some 1 := by decide

/-- An occupied holding register; a newline to be doubled, and its second copy; a byte that is not doubled; the index at the end, of a buffer
and of none. -/
theorem test_witness_put :
    let s (buf : List Byte) (idx : Nat) (thr : Option Byte) (dup : Bool) : State :=
      { coming (.resume 3) (writing buf idx .put 0 (holding [] thr)) with cfg := { Config.default with nlDup := dup } }
    (∀ x ∈ [s [0x0A] 0 (some 0) false, s [0x0A] 0 none true, s [0x0A, 0x41] 0 none false],
      x.sched.inputs = .resume 3 :: [] ∧ x.calls.find? (fun k => k.ctx == 3) = none ∧
      (x.writes.find? (fun w => w.ctx == 3)).map (fun w => (w.txBuf[w.txIdx]?, w.txPhase, w.txDup)) = some (some 0x0A, .put, false) ∧
      lifeOf 1 x = .attached ∧ select x.cfg x.cfg.kData (dlab x) = .data) ∧
    ∀ x ∈ [s [0x0A] 1 none true, s [] 0 none false],
      (x.writes.find? (fun w => w.ctx == 3)).map (fun w => decide (w.txBuf.length ≤ w.txIdx)) = some true := by decide

theorem test_witness_transmitter :
    let s := coming .lineTx (holding [] (some 0xFF))
    s.sched.inputs = .lineTx :: [] ∧ s.dev.thr = some 0xFF ∧ s.dev.mdr = s.cfg.mdrNormal ∧
    (coming .lineTx configured).dev.thr = none := by decide

/-- A put about to be made while another context takes a step, and the put itself. -/
theorem test_witness_no_overrun :
    let s (e : Event) : State := coming e (writing [0x41] 0 .put 0 configured)
    (∀ e ∈ [Event.lineRx, .resume 3], (s e).cfg.wf = true ∧ (s e).writes.length ≤ 1 ∧
      select (s e).cfg (s e).cfg.kLsr (dlab (s e)) = .lineStatus ∧ directRequest (nextEvent (s e)) = false ∧ PutReady (s e)) ∧
    (∀ e, NoConfiguring (s e)) ∧ ∃ t, step (s (.resume 3)) = .next t ∧ (t.dev.thr == some 0x41) = true :=
  ⟨by decide, fun _ => noConfiguring_nil rfl, nextIs_next (p := fun t => t.dev.thr == some 0x41) (by decide)⟩

theorem test_witness_stream :
    let s := coming (.resume 3) (writing [0x41] 0 .put 0 configured)
    s.cfg.wf = true ∧ NoConfiguring s ∧ directRequest (nextEvent s) = false ∧
    ∃ t, step s = .next t ∧ (sentBytes t == [0x41]) = true :=
  ⟨rfl, noConfiguring_nil rfl, rfl, nextIs_next (p := fun t => sentBytes t == [0x41]) (by decide)⟩

/-- A newline among the bytes, doubled and not; and an empty buffer. -/
theorem test_witness_transmit_delivers :
    let s (buf : List Byte) (dup : Bool) (n : Nat) : State := { writing buf 0 .poll 0 configured with
      cfg := { Config.default with nlDup := dup }
      sched := { State.reset.sched with
        inputs := (List.replicate n [Event.resume 3, .resume 3, .lineTx]).flatten ++ (.resume 3 :: []) } }
    ∀ x ∈ [(([0x64, 0x0A] : List Byte), true, 3), ([0x64, 0x0A], false, 2), ([], false, 0)],
      let s := s x.1 x.2.1 x.2.2
      s.cfg.wf = true ∧ s.hdl.life = .attached ∧ dlab s = false ∧
      s.dev.mdr = s.cfg.mdrNormal ∧ s.dev.thr = none ∧ s.calls.find? (fun k => k.ctx == 3) = none ∧
      s.writes = [{ ctx := 3, handle := s.hdl.id, txBuf := x.1, txIdx := 0, txPhase := .poll, txPolls := 0, txDup := false }] ∧
      s.sched.inputs = (List.replicate (lineBytes s.cfg x.1).length [Event.resume 3, .resume 3, .lineTx]).flatten ++
        (.resume 3 :: []) := by decide

/-- Enabled; enabled in the latch window; not enabled, and a handle that does not exist; another context. Then the invocation alone, enabled
and not; E1 with a byte, with none, and in the latch window; an idle handler. -/
theorem test_witness_handler_reads :
    let s := as .irq (holding [0xFF] none)
    let l := as .irq { latched with dev := { latched.dev with rxHw := [0x61] } }
    let e (x : State) : State := coming .irqStep { x with irqPhase := .entered }
    (s.sched.agent = .irq ∧ s.dev.rxHw = 0xFF :: [] ∧ s.dev.ier &&& s.cfg.ierRdi ≠ 0 ∧ s.hdl.handlerRegistered = true ∧
      s.hdl.life = .attached ∧ s.irqPhase = .idle ∧ select s.cfg s.cfg.kData (dlab s) = .data) ∧
    (l.sched.agent = .irq ∧ canInvoke l = true ∧ dlab l = true ∧ l.cfg.kData = l.cfg.kDll) ∧
    canInvoke (as .irq configured) = false ∧ 2 ≠ s.hdl.id ∧ configured.sched.agent ≠ .irq ∧
    ((coming .irqEnter s).sched.inputs = .irqEnter :: [] ∧ canInvoke (coming .irqEnter s) = true) ∧
    canInvoke (coming .irqEnter configured) = false ∧
    ((e s).sched.inputs = .irqStep :: [] ∧ (e s).irqPhase = .entered ∧ (e s).dev.rxHw = 0xFF :: []) ∧
    (e configured).dev.rxHw = [] ∧ dlab (e l) = true ∧ (coming .irqStep configured).irqPhase = .idle := by decide

theorem test_witness_stores_or_drops :
    let s (w r : Nat) : State := coming .irqStep { ringed 4 w r [] with irqPhase := .got 0x33 }
    (s 3 0).sched.inputs = .irqStep :: [] ∧ (s 3 0).irqPhase = .got 0x33 ∧
    (s 3 0).ring.readSeen = [0] ∧ cursorNext (s 3 0).cfg.ringSlots (s 3 0).ring.writeIndex = 0 ∧
    cursorNext (s 2 0).cfg.ringSlots (s 2 0).ring.writeIndex ≠ 0 := by decide

/-- A full ring of two slots with an older view still listed; an empty ring with a fresh view. -/
theorem test_witness_full_ring :
    (let s : State := coming .irqStep { ringed 2 1 0 [(0, 0x01)] with irqPhase := .got 0x02 }
     RingInv s ∧ s.sched.inputs = .irqStep :: [] ∧ s.irqPhase = .got 0x02 ∧ ringFull s = true) ∧
    (let s : State := coming .irqStep { ringed 2 0 0 [] with irqPhase := .got 0x02 }
     RingInv s ∧ ringFull s = false ∧ ∀ v ∈ s.ring.readSeen, v = s.ring.readIndex) := by decide

theorem test_witness_publishes :
    let s := coming .irqStep { waiting 32 31 31 [(31, 0x7E)] 1 false with irqPhase := .stored 0 }
    s.sched.inputs = .irqStep :: [] ∧ s.irqPhase = .stored 0 ∧
    consumerOf 1 s = some { ctx := 1, phase := .waiting, cancelReq := false } ∧ s.consLock = .free ∧
    s.hdl.life = .attached ∧ ∃ t, step { s with irqPhase := .got 0 } = .next t :=
  ⟨rfl, rfl, by decide, rfl, rfl, _, rfl⟩

/-- An invocation that stores, and one that drops on a full ring. -/
theorem test_witness_invocation_ends :
    (let s := coming .irqStep { ringed 32 31 31 [(31, 0x7E)] with irqPhase := .stored 0 }
     LifeInv s ∧ s.irqPhase ≠ .idle ∧ ∃ t, step s = .next t ∧ (t.irqPhase == .idle) = true) ∧
    (let s := coming .irqStep { ringed 2 1 0 [(0, 0x01)] with irqPhase := .got 0x02 }
     LifeInv s ∧ s.irqPhase ≠ .idle ∧ ringFull s = true ∧ s.ring.readSeen = [s.ring.readIndex]) :=
  ⟨⟨by decide, by decide, nextIs_next (by decide)⟩, by decide⟩

/-- A byte listed and none, each with room for one more and with none (2.5: depth 1, and 15 of 16). -/
theorem test_witness_receiver :
    let s (rx : List Byte) (n depth : Nat) : State := coming .lineRx
      { holding (List.replicate n 0x10) none with
        cfg := { Config.default with rxHwDepth := depth }, line := { txLine := [], rxLine := rx } }
    (s [0x11] 15 16).sched.inputs = .lineRx :: [] ∧ (s [0x11] 15 16).line.rxLine = 0x11 :: [] ∧
    (s [0x11] 15 16).dev.rxHw.length < (s [0x11] 15 16).cfg.rxHwDepth ∧
    (s [0x11] 1 1).cfg.rxHwDepth ≤ (s [0x11] 1 1).dev.rxHw.length ∧ (s [] 15 16).line.rxLine = [] ∧
    (s [] 15 16).dev.rxHw.length < (s [] 15 16).cfg.rxHwDepth ∧
    (s [] 1 1).cfg.rxHwDepth ≤ (s [] 1 1).dev.rxHw.length := by decide

/-- A byte stored at the top slot and about to be published, the producer having seen an older `read_index`. -/
theorem test_witness_ring :
    let s : State := coming .irqStep { ringed 4 3 2 [(1, 0x31), (2, 0x32), (3, 0x33)] with
      irqPhase := .stored 0
      ring := { (ringed 4 3 2 [(1, 0x31), (2, 0x32), (3, 0x33)]).ring with readSeen := [1, 2] } }
    RingInv s ∧ LifeInv s ∧ ∃ t, step s = .next t ∧ (ringHeld t == [0x32, 0x33]) = true :=
  ⟨by decide, by decide, nextIs_next (by decide)⟩

theorem test_witness_reader_calls : HostTurn configured 0 ∧ usable 1 configured = true := by decide

/-- The last byte of the ring at the wrap; an empty ring; a held lock; a consumer in phase TAKING; a torn-down handle. -/
theorem test_witness_dequeue :
    let s := coming (.dequeue 1) (waiting 32 0 31 [(31, 0x7E)] 1 false)
    let e := coming (.dequeue 1) (waiting 32 3 3 [] 1 false)
    (s.sched.inputs = .dequeue 1 :: [] ∧ (consumerOf 1 s).map Consumer.phase = some .waiting ∧ s.consLock = .free ∧
      s.ring.writeIndex ≠ s.ring.readIndex ∧ s.hdl.life = .attached) ∧
    ({ s with hdl := { s.hdl with life := .tornDown } } : State).hdl.life ≠ .attached ∧
    ((consumerOf 1 e).isSome = true ∧ e.ring.writeIndex = e.ring.readIndex) ∧
    ({ s with consLock := .held 2 } : State).consLock ≠ .free ∧
    (consumerOf 1 { s with cons := [{ ctx := 1, phase := .taking, cancelReq := false }] }).map Consumer.phase = some .taking := by
  decide

/-- A byte there; an empty ring that the consumer may still see as not empty, by the 0 of attach; a view that makes it look empty. -/
theorem test_witness_lock_then_take :
    (let s := waiting 2 1 0 [(0, 0x61)] 1 false
     mayTest 1 s = true ∧ (∀ r ∈ s.cons, r.ctx = 1 → r.phase = .waiting) ∧ sinceWake 1 s.ring.published = [1] ∧
     s.ring.writeIndex ≠ s.ring.readIndex) ∧
    (let s : State := { waiting 32 1 1 [(0, 0x61)] 1 false with
       ring := { (ringed 32 1 1 [(0, 0x61)]).ring with published := [{ value := 0, woke := [] }, { value := 1, woke := [2] }] } }
     mayTest 1 s = true ∧ (∀ r ∈ s.cons, r.ctx = 1 → r.phase = .waiting) ∧ sinceWake 1 s.ring.published = [0, 1] ∧
     s.ring.writeIndex = s.ring.readIndex ∧ 0 ≠ s.ring.readIndex) := by decide

/-- R71 and R68: from the last signal that woke the context on; and everything since attach where none has. -/
theorem test_since_wake :
    let l : List Publication := [{ value := 0, woke := [] }, { value := 1, woke := [1, 2] }, { value := 2, woke := [2] }]
    sinceWake 1 l = [1, 2] ∧ sinceWake 2 l = [2] ∧ sinceWake 3 l = [0, 1, 2] := by decide

/-- Under the lock the test is made again (R201): an empty ring, and a torn-down handle (R223), gives no byte, and the consumer waits again
with the lock free; cancelled, it is then interrupted (R204). -/
theorem test_retest_under_the_lock :
    nextIs (step { coming (.takeLocked 1) (ringed 32 1 1 [(0, 0x61)]) with
        cons := [{ ctx := 1, phase := .taking, cancelReq := false }], consLock := .held 1 })
      (fun t => t.consLock == .free && t.cons == [{ ctx := 1, phase := .waiting, cancelReq := false }] && t.answers == []) = true ∧
    (let s : State := { coming (.takeLocked 1) (ringed 32 2 1 [(1, 0x61)]) with
       hdl := { configured.hdl with life := .tornDown }
       cons := [{ ctx := 1, phase := .taking, cancelReq := true }]
       consLock := .held 1 }
     nextIs (step s) (fun t => t.consLock == .free && t.answers == [] && t.ring == s.ring &&
       (interruptedStep 1 t).answers == [(.host 1, .interruptedError)]) = true) := by
  decide

theorem test_witness_cancel :
    (as .envCancel (waiting 32 3 3 [] 1 false)).sched.agent = .envCancel ∧
    HostTurn (waiting 32 3 3 [] 1 false) 0 ∧ usable 1 (waiting 32 3 3 [] 1 false) = true ∧
    (∀ r ∈ (waiting 32 3 3 [] 1 false).cons, r.ctx ≠ 2) := by decide

theorem test_witness_interrupted :
    let s (x : Bool) : State := coming (.interrupted 1) (waiting 32 3 3 [] 1 x)
    (s true).sched.inputs = .interrupted 1 :: [] ∧ consumerOf 1 (s true) = some { ctx := 1, phase := .waiting, cancelReq := true } ∧
    consumerOf 1 (s false) = some { ctx := 1, phase := .waiting, cancelReq := false } := by decide

theorem test_witness_interrupted_error :
    let s := coming (.interrupted 1) (waiting 32 3 3 [] 1 true)
    ∃ t, step s = .next t ∧ (t.answers == s.answers ++ [(.host 1, .interruptedError)]) = true := nextIs_next (by decide)

theorem test_witness_lock :
    let s : State := { coming (.takeLocked 1) (ringed 32 3 3 []) with
      cons := [{ ctx := 1, phase := .taking, cancelReq := true }, { ctx := 2, phase := .waiting, cancelReq := false }]
      consLock := .held 1 }
    LockInv s ∧ ∃ t, step s = .next t ∧ (t.consLock == .free) = true := ⟨by decide, nextIs_next (by decide)⟩

theorem test_witness_cursors :
    let s := coming (.dequeue 1) (waiting 32 0 31 [(31, 0x7E)] 1 false)
    ¬ OnAttachLine .emptyRing s ∧ ∃ t, step s = .next t ∧ (t.ring.readIndex != s.ring.readIndex) = true :=
  ⟨(fun ⟨_, h, _⟩ => by cases h), nextIs_next (by decide)⟩

theorem test_witness_attach_arguments :
    HostTurn configured 0 ∧ (0x40000002 % 4 ≠ 0 ∨ 1 = 0) ∧ (0x40000000 % 4 ≠ 0 ∨ 0 = 0) ∧ (0 % 4 = 0 ∧ 1 ≤ 1) := by decide

/-- The window: as ENV_ATTACH says, held by the live handle, outside the address space, available at the last place that fits. The interrupt
line: not available; available with and without a handle of the device. -/
theorem test_witness_attach_resources :
    let w (base : Nat) (s : State) : State :=
      { inAttach .testWindow s with calls := [{ ctx := 0, kind := .attach { atLine .testWindow with base := base } }] }
    ((w 0 State.reset).sched.inputs = .resume 0 :: [] ∧
      (w 0 State.reset).calls.find? (fun k => k.ctx == 0) =
        some { ctx := 0, kind := .attach { atLine .testWindow with base := 0 } }) ∧
    ({ w 0 State.reset with env := { windowAvail := false, irqAvail := true } } : State).env.windowAvail = false ∧
    windowHeld 0x40000000 (w 0x40000000 configured) = true ∧ windowFits Config.default (2 ^ 32 - 32) = false ∧
    ((w (2 ^ 32 - 36) State.reset).env.windowAvail = true ∧ windowHeld (2 ^ 32 - 36) (w (2 ^ 32 - 36) State.reset) = false ∧
      windowFits Config.default (2 ^ 32 - 36) = true) ∧
    ({ inAttach .testIrq State.reset with env := { windowAvail := true, irqAvail := false } } : State).env.irqAvail = false ∧
    ((inAttach .testIrq configured).env.irqAvail = true ∧ deviceOwned (inAttach .testIrq configured) = true) ∧
    deviceOwned (inAttach .testIrq State.reset) = false ∧ handleLive configured = true := by decide

theorem test_witness_attach_fills_in :
    let s : State := { inAttach .makeHandle State.reset with
      sched := { State.reset.sched with inputs := List.replicate 7 (.resume 0) ++ [] } }
    s.calls.find? (fun k => k.ctx == 0) = some { ctx := 0, kind := .attach (atLine .makeHandle) } ∧
    s.sched.inputs = List.replicate 7 (.resume 0) ++ [] := by decide

/-- A4 over already, A5, and the two lines of A6. -/
theorem test_witness_attach_registers :
    (∀ l ∈ [AttachLine.configure, .register, .setAttached, .giveHandle],
      (inAttach l (attaching 9)).sched.inputs = .resume 0 :: [] ∧
      (inAttach l (attaching 9)).calls.find? (fun k => k.ctx == 0) = some { ctx := 0, kind := .attach (atLine l) }) ∧
    configureDone (inAttach .configure (attaching 9)) = true := by decide

/-- With and without the receive interrupt, from a hostile power-on state, at the last window that fits. -/
theorem test_witness_whole_attach :
    let s (irq : Bool) (n : Nat) : State := { State.reset with
      cfg := { Config.default with rxIrqEnabled := irq }
      dev := { thr := some 0x55, rxHw := [0xAA], lcr := 0x80, dll := 0xFF, dlh := 0xFF, mdr := 0xFF, ier := 0xFF }
      sched := { State.reset.sched with
        inputs := .request (.host 2) 0 (encode Config.default (.attach 0xFFFFFFDC 1 9)) :: (List.replicate n (.resume 2) ++ []) } }
    ∀ irq n, (irq = true ∧ n = 21) ∨ (irq = false ∧ n = 20) →
      (s irq n).cfg.wf = true ∧ busy 2 (s irq n) = false ∧ 0xFFFFFFDC % 4 = 0 ∧ 1 ≤ 1 ∧
      windowFits (s irq n).cfg 0xFFFFFFDC = true ∧ (s irq n).env.windowAvail = true ∧ (s irq n).env.irqAvail = true ∧
      windowHeld 0xFFFFFFDC (s irq n) = false ∧ deviceOwned (s irq n) = false ∧
      (s irq n).sched.inputs = .request (.host 2) 0 (encode (s irq n).cfg (.attach 0xFFFFFFDC 1 9)) ::
        (List.replicate (12 + configureWrites (s irq n).cfg) (.resume 2) ++ []) := by
  rintro _ irq n (⟨rfl, rfl⟩ | ⟨rfl, rfl⟩) <;> decide

theorem test_witness_detach :
    (HostTurn configured 0 ∧ usable 1 configured = true ∧ configured.cons = [] ∧ ∀ w ∈ configured.writes, w.handle ≠ 1) ∧
    (HostTurn (waiting 32 3 3 [] 1 false) 0 ∧ usable 1 (waiting 32 3 3 [] 1 false) = true ∧ (waiting 32 3 3 [] 1 false).cons ≠ []) ∧
    (let s := writing [0x41] 0 .poll 0 configured
     HostTurn s 0 ∧ usable 1 s = true ∧ ∃ w ∈ s.writes, w.handle = 1) := by decide

theorem test_witness_tears_down :
    let s (h : Nat) : State := { coming (.resume 0) configured with calls := [{ ctx := 0, kind := .detach h }] }
    (s 1).sched.inputs = .resume 0 :: [] ∧ (s 1).calls.find? (fun k => k.ctx == 0) = some { ctx := 0, kind := .detach (s 1).hdl.id } ∧
    (s 1).irqPhase = .idle ∧ 0 ≠ (s 0).hdl.id ∧ ({ s 1 with irqPhase := .got 0x61 } : State).irqPhase ≠ .idle := by decide

/-- At A5, and with a handle being filled in. -/
theorem test_witness_lifecycle :
    (LifeInv (inAttach .register (attaching 9)) ∧
      ∃ t, step (inAttach .register (attaching 9)) = .next t ∧ t.hdl.handlerRegistered = true) ∧
    LifeInv (inAttach .emptyLogs { configured with
      hdl := { configured.hdl with life := .detached, handlerRegistered := false, cfgStep := 0 } }) :=
  ⟨⟨by decide, nextIs_next (by decide)⟩, by decide⟩

theorem test_witness_positions :
    let s := coming (.resume 3) { writing [0x41, 0x42] 0 .put 0 (waiting 32 3 3 [] 1 false) with
      dev := { configured.dev with rxHw := List.replicate 16 0x10 } }
    (ContextInv s ∧ WritesInv s ∧ FifoInv s) ∧ ∃ t, step s = .next t ∧ (t.writes.map PendingWrite.txIdx == [1]) = true :=
  ⟨by decide, nextIs_next (by decide)⟩

theorem test_witness_fixed_fields :
    LifeInv (coming .lineRx configured) ∧ handleLive (coming .lineRx configured) = true ∧
    ∃ t, step (coming .lineRx configured) = .next t ∧ (t.hdl == configured.hdl) = true := ⟨by decide, by decide, nextIs_next (by decide)⟩

theorem test_witness_operations_frame :
    registerOf configured.cfg (.detach 1) = none ∧ registerOf State.reset.cfg (.attach 0 1 0) = none ∧
    (∃ t, exec (.detach 1) configured = .next t ∧ (t.hdl.id == configured.hdl.id) = true) ∧
    ∃ t, exec (.attach 0 1 0) State.reset = .next t ∧ (t.calls.length == 1) = true :=
  ⟨rfl, rfl, nextIs_next (by decide), nextIs_next (by decide)⟩

end Sys2Proof.Tests
end

section
/-! PROOFS. Scope (00_scope.md): the step of a request (R8, R11, R80, R86). -/

namespace Sys2Proof.Machine

/-- A request that decodes is fetched as the operation it stands for. -/
theorem fetch_eq_next {r : Request} {s : State} {i : Instr} (h : decodeRequest s.cfg (dlab s) r = .ok i) :
    fetch r s = .next i := by
  rw [fetch, h]

/-- A request's turn is decided by what the request is fetched as before the event is consumed: taking the turn leaves the parameters and
the latch bit as they are (R86). -/
theorem step_request {s : State} {a : Agent} {on : Nat} {r : Request} {rest : List Event}
    (h : s.sched.inputs = .request a on r :: rest) :
    step s = andThen (fetch r s) fun i => exec i (turnOf (.request a on r) rest s) := by
  have hfetch : fetch r (turnOf (.request a on r) rest s) = fetch r s := rfl
  rw [step_inputs h, runEvent, hfetch]

/-- Settles O6: the fetched operation is the decoded one, and the turn's agent and handle are the event's by definition. -/
theorem stepRunsTheDecodedRequest : Obligations.StepRunsTheDecodedRequest := by
  intro s a on r rest i hinputs hdecode
  refine ⟨?_, rfl, rfl⟩
  rw [step_request hinputs, fetch_eq_next hdecode, andThen_next]

end Sys2Proof.Machine
end

section
/-! PROOFS. State (10_state.md): what one turn can be (R8, R11), and what each agent's step leaves unchanged. -/

namespace Sys2Proof.Machine

/-! ## One turn -/

/-- What the turn of an event can be, where it answers: one constructor per kind of step of an agent (R8). A register request is one of the
two generic transactions by a host (R89, R100, R101), an operation request one of the eight block-level operations (R82). -/
inductive Turn (s : State) : Event → State → Prop where
  | registerRead {a on bytes k t} : hostRead k s = .next t → Turn s (.request a on (.reg bytes)) t
  | registerWrite {a on bytes k v t} : hostWrite k v s = .next t → Turn s (.request a on (.reg bytes)) t
  | attach {a on code ops base clockHz irqLine t} : execAttach base clockHz irqLine s = .next t →
      Turn s (.request a on (.op code ops)) t
  | detach {a on code ops h t} : execDetach h s = .next t → Turn s (.request a on (.op code ops)) t
  | lineConfigure {a on code ops h t} : execLineConfigure h s = .next t → Turn s (.request a on (.op code ops)) t
  | transmitBytes {a on code ops h buf t} : execTransmitBytes h buf s = .next t → Turn s (.request a on (.op code ops)) t
  | onReceiveInterrupt {a on code ops h t} : execOnReceiveInterrupt h s = .next t → Turn s (.request a on (.op code ops)) t
  | readOneByte {a on code ops h t} : execReadOneByte h s = .next t → Turn s (.request a on (.op code ops)) t
  | cancel {a on code ops h c t} : execCancel h c s = .next t → Turn s (.request a on (.op code ops)) t
  | readLossCounter {a on code ops h t} : execReadLossCounter h s = .next t → Turn s (.request a on (.op code ops)) t
  | attachLine {c a t} : s.calls.find? (fun k => k.ctx == c) = some { ctx := c, kind := .attach a } →
      resumeAttach c a s = .next t → Turn s (.resume c) t
  | configureWrite {c h t} : { ctx := c, kind := .lineConfigure h } ∈ s.calls → resumeLineConfigure c h s = .next t →
      Turn s (.resume c) t
  | detachEnd {c h} : { ctx := c, kind := .detach h } ∈ s.calls → Turn s (.resume c) (resumeDetach c h s)
  | transmit {c w t} : s.writes.find? (fun x => x.ctx == c) = some w → transmitStep w s = .next t → Turn s (.resume c) t
  | outsideEveryCall {c} : Turn s (.resume c) s
  | dequeue {c} : Turn s (.dequeue c) (dequeueStep c s)
  | interrupted {c} : Turn s (.interrupted c) (interruptedStep c s)
  | lock {c} : Turn s (.lock c) (lockStep c s)
  | takeLocked {c} : Turn s (.takeLocked c) (takeLockedStep c s)
  | irqEnter : Turn s .irqEnter (irqEnterStep s)
  | irqStep {t} : Machine.irqStep s = .next t → Turn s .irqStep t
  | lineTx : Turn s .lineTx (lineTxStep s)
  | lineRx : Turn s .lineRx (lineRxStep s)
  | envAttach {window irq} : Turn s (.envAttach window irq) (envAttachStep window irq s)

/-- An operation that a read of a register decodes to is a host's read transaction (R89). -/
theorem readInstr_exec {r : Register} {i : Instr} (h : readInstr r = some i) (s : State) : ∃ k, exec i s = hostRead k s := by
  cases r
  case reserved => cases h
  all_goals
    cases h
    exact ⟨_, rfl⟩

/-- An operation that a write of a register decodes to is a host's write transaction (R89). -/
theorem writeInstr_exec {r : Register} {v : Word} {i : Instr} (h : writeInstr v r = some i) (s : State) :
    ∃ k, exec i s = hostWrite k v s := by
  cases r
  case reserved => cases h
  all_goals
    cases h
    exact ⟨_, rfl⟩

/-- A register request that answers is one of the two generic transactions by a host (R81, R89). -/
theorem registerRequest_turn {s t : State} {a : Agent} {on : Nat} {bytes : List Byte} {i : Instr}
    (hi : decodeReg s.cfg (dlab s) bytes = .ok i) (h : exec i s = .next t) : Turn s (.request a on (.reg bytes)) t := by
  unfold decodeReg at hi
  split at hi
  · dsimp only at hi
    split at hi
    · rename_i hj
      cases hi
      split at hj
      · obtain ⟨k, hk⟩ := writeInstr_exec hj s
        exact .registerWrite (hk ▸ h)
      · obtain ⟨k, hk⟩ := readInstr_exec hj s
        exact .registerRead (hk ▸ h)
    · cases hi
  · cases hi

/-- An operation request decodes to no register transaction (R82). -/
theorem decodeOp_registerOf {code : BitVec 4} {operands : List Nat} {i : Instr} (cfg : Config) (h : decodeOp code operands = .ok i) :
    registerOf cfg i = none := by
  unfold decodeOp at h
  repeat' split at h
  all_goals cases h
  all_goals rfl

/-- An operation request that answers is the request of one of the eight block-level operations (R82). -/
theorem operationRequest_turn {s t : State} {a : Agent} {on : Nat} {code : BitVec 4} {operands : List Nat} {i : Instr}
    (hi : decodeOp code operands = .ok i) (h : exec i s = .next t) : Turn s (.request a on (.op code operands)) t := by
  have hr := decodeOp_registerOf s.cfg hi
  cases i
  case attach => exact .attach h
  case detach => exact .detach h
  case lineConfigure => exact .lineConfigure h
  case transmitBytes => exact .transmitBytes h
  case onReceiveInterrupt => exact .onReceiveInterrupt h
  case readOneByte => exact .readOneByte h
  case cancel => exact .cancel h
  case readLossCounter => exact .readLossCounter h
  all_goals cases hr

/-- A context's own step that answers belongs to the call it is inside (R11). -/
theorem resumeStep_turn {c : Nat} {s t : State} (h : resumeStep c s = .next t) : Turn s (.resume c) t := by
  unfold resumeStep at h
  split at h
  · rename_i k hk
    have hmem := List.mem_of_find?_eq_some hk
    have hctx := List.find?_some hk
    obtain ⟨d, kind⟩ := k
    obtain rfl : d = c := by simpa using hctx
    cases kind
    case attach a => exact .attachLine hk h
    case lineConfigure => exact .configureWrite hmem h
    case detach =>
      cases h
      exact .detachEnd hmem
  · split at h
    · exact .transmit ‹_› h
    · cases h
      exact .outsideEveryCall

/-- What one step can be: the turn of the next event, taken in the state itself but for the scheduling data (R8, R11). -/
theorem step_turn {s t : State} (h : step s = .next t) : ∃ q, Turn { s with sched := q } (nextEvent s) t := by
  obtain ⟨q, hq⟩ := takeTurn_eq s
  rw [step, hq] at h
  refine ⟨q, ?_⟩
  generalize nextEvent s = e at h ⊢
  cases e
  case request a on r =>
    obtain ⟨i, hi, hx⟩ := runEvent_request_next h
    cases r
    case reg => exact registerRequest_turn hi hx
    case op => exact operationRequest_turn hi hx
  case resume => exact resumeStep_turn h
  case irqStep => exact .irqStep h
  all_goals
    cases h
    constructor

/-! ## What a step leaves unchanged -/

/-- `t` is `s` after at most one register transaction: only device registers, the transaction log and the draws may differ (R100, R101). -/
abbrev AfterTransaction (s t : State) : Prop :=
  ∃ d l q, t = { s with dev := d, obs := { s.obs with txnLog := l }, sched := q }

/-- `t` is `s` after a consumer's step: only the ring, the consumer records with their lock, the answers and the draws may differ (R201). -/
abbrev AfterConsumer (s t : State) : Prop :=
  ∃ r cs k x q, t = { s with ring := r, cons := cs, consLock := k, answers := x, sched := q }

/-- A read transaction moves no byte of the transmit side (R100, R102). -/
theorem regRead_frame {h k : Nat} {s t : State} {v : Word} (hr : regRead h k s = .next (v, t)) :
    AfterTransaction s t ∧ t.dev.thr = s.dev.thr := by
  obtain rfl | rfl | ⟨-, _, _, -, -, rfl⟩ := readRegister_next (regRead_next hr).2
  all_goals exact ⟨⟨_, _, _, rfl⟩, rfl⟩

/-- A write transaction (R101). -/
theorem regWrite_frame {h k : Nat} {s t : State} {v : Word} (hw : regWrite h k v s = .next t) : AfterTransaction s t := by
  obtain ⟨_, rfl, -⟩ := writeRegister_next (regWrite_next hw).2
  exact ⟨_, _, _, rfl⟩

theorem hostRead_frame {k : Nat} {s t : State} (h : hostRead k s = .next t) :
    ∃ d l q x, t = { s with dev := d, obs := { s.obs with txnLog := l }, sched := q, answers := x } := by
  obtain ⟨_, _, _, -, -, -, hr, rfl⟩ := hostRead_next h
  obtain ⟨⟨_, _, _, rfl⟩, -⟩ := regRead_frame hr
  exact ⟨_, _, _, _, rfl⟩

theorem hostWrite_frame {k : Nat} {v : Word} {s t : State} (h : hostWrite k v s = .next t) : AfterTransaction s t := by
  obtain ⟨_, -, -, -, hw⟩ := hostWrite_next h
  exact regWrite_frame hw

/-- Only the nine writes of line configuration are in its table (R132). -/
theorem configureWrite_lt {cfg : Config} {divisor i : Nat} {w : Nat × Byte} (h : configureWrite cfg divisor i = some w) : i < 9 := by
  by_contra hi
  obtain ⟨j, rfl⟩ := Nat.exists_eq_add_of_le (Nat.le_of_not_lt hi)
  rw [Nat.add_comm] at h
  cases h

/-- A step of line configuration is a transaction that may move `cfg_step` on, at most to the end of the sequence (R31, R132). -/
theorem lineConfigureStep_frame {s t : State} (h : lineConfigureStep s = .next t) :
    ∃ d l q n, t = { s with dev := d, obs := { s.obs with txnLog := l }, sched := q, hdl := { s.hdl with cfgStep := n } } ∧
      s.hdl.cfgStep ≤ n ∧ (s.hdl.cfgStep ≤ 9 → n ≤ 9) := by
  obtain ⟨k, b, u, hk, hu, rfl⟩ | ⟨-, rfl⟩ := lineConfigureStep_next h
  · obtain ⟨_, _, _, rfl⟩ := regWrite_frame hu
    exact ⟨_, _, _, _, rfl, Nat.le_succ _, fun _ => configureWrite_lt hk⟩
  · exact ⟨_, _, _, _, rfl, le_rfl, id⟩

/-- A later step of LINE_CONFIGURE is a step of the sequence, the end of the call, or both (R132, log 19). -/
theorem resumeLineConfigure_cases {c h : Nat} {s t : State} (hr : resumeLineConfigure c h s = .next t) :
    t = endCall c s ∨ ∃ u, lineConfigureStep s = .next u ∧ (t = endCall c u ∨ t = u) := by
  unfold resumeLineConfigure at hr
  split at hr
  · cases hr
    exact .inl rfl
  · obtain ⟨u, hu, ht⟩ := andThen_eq_next.mp hr
    cases ht
    refine .inr ⟨u, hu, ?_⟩
    split
    · exact .inl rfl
    · exact .inr rfl

/-- A step of a transmit call (R151). -/
theorem transmitStep_frame {w : PendingWrite} {s t : State} (h : transmitStep w s = .next t) :
    ∃ d o q ws x, t = { s with dev := d, obs := o, sched := q, writes := ws, answers := x } := by
  obtain ⟨-, rfl⟩ | ⟨b, -, ⟨-, -, rfl⟩ | ⟨-, -, hp⟩ | ⟨-, hp⟩⟩ := transmitStep_next h
  · exact ⟨_, _, _, _, _, rfl⟩
  · exact ⟨_, _, _, _, _, rfl⟩
  · obtain ⟨_, _, hr, ⟨-, rfl⟩ | ⟨-, rfl⟩⟩ := pollStep_next hp
    all_goals
      obtain ⟨⟨_, _, _, rfl⟩, -⟩ := regRead_frame hr
      exact ⟨_, _, _, _, _, rfl⟩
  · obtain ⟨_, hw, rfl⟩ := putStep_next hp
    obtain ⟨_, _, _, rfl⟩ := regWrite_frame hw
    exact ⟨_, _, _, _, _, rfl⟩

/-- A step of the handler in progress touches neither the consumers nor the calls nor the transmit side (R173). -/
theorem irqStep_frame {s t : State} (h : irqStep s = .next t) :
    (∃ d r o q p, t = { s with dev := d, ring := r, obs := o, sched := q, irqPhase := p }) ∧
      t.dev.thr = s.dev.thr ∧ (s.irqPhase = .idle → t.irqPhase = .idle) := by
  obtain ⟨hp, rfl⟩ | ⟨hp, _, _, hr, rfl⟩ | ⟨b, hp, rfl⟩ | ⟨_, hp, rfl⟩ := irqStep_next h
  · exact ⟨⟨_, _, _, _, _, rfl⟩, rfl, id⟩
  · obtain ⟨⟨_, _, _, rfl⟩, hthr⟩ := regRead_frame hr
    exact ⟨⟨_, _, _, _, _, rfl⟩, hthr, by simp [hp]⟩
  · obtain ⟨-, hs⟩ | ⟨-, hs⟩ := handlerStore_cases (observedRead s) b s.drew
    all_goals
      rw [hs]
      exact ⟨⟨_, _, _, _, _, rfl⟩, rfl, by simp [hp]⟩
  · exact ⟨⟨_, _, _, _, _, rfl⟩, rfl, by simp [hp]⟩

/-- LINE_RX touches the receive side of the device, its own supply and the draws (R180). -/
theorem lineRxStep_frame (s : State) :
    ∃ x l q, lineRxStep s = { s with dev := { s.dev with rxHw := x }, line := { s.line with rxLine := l }, sched := q } := by
  unfold lineRxStep
  split
  all_goals
    obtain ⟨-, hb⟩ | ⟨-, hb⟩ := receiveByte_cases _ _
    all_goals exact ⟨_, _, _, hb⟩

theorem dequeueStep_frame (c : Nat) (s : State) : AfterConsumer s (dequeueStep c s) := by
  obtain ⟨-, h⟩ | ⟨-, h⟩ := dequeueStep_cases c s
  all_goals exact ⟨_, _, _, _, _, h⟩

theorem interruptedStep_frame (c : Nat) (s : State) : AfterConsumer s (interruptedStep c s) := by
  obtain h | ⟨_, -, -, -, h⟩ := interruptedStep_cases c s
  all_goals exact ⟨_, _, _, _, _, h⟩

theorem lockStep_frame (c : Nat) (s : State) : AfterConsumer s (lockStep c s) := by
  obtain ⟨-, h⟩ | ⟨-, -, h⟩ | ⟨-, -, h⟩ := lockStep_cases c s
  all_goals exact ⟨_, _, _, _, _, h⟩

theorem takeLockedStep_frame (c : Nat) (s : State) : AfterConsumer s (takeLockedStep c s) := by
  obtain h | ⟨-, -, -, h⟩ | ⟨-, -, h⟩ := takeLockedStep_cases c s
  all_goals exact ⟨_, _, _, _, _, h⟩

end Sys2Proof.Machine
end

section
/-! PROOFS. State (10_state.md): the lock of the dequeue critical section (R29, R73, R201). -/

namespace Sys2Proof.Machine

/-- A record found for a context is that context's (R29). -/
theorem consumerOf_mem {c : Nat} {s : State} {r : Consumer} (h : consumerOf c s = some r) : r ∈ s.cons ∧ r.ctx = c :=
  ⟨List.mem_of_find?_eq_some h, by simpa using List.find?_some h⟩

/-- With one record per context, a context's record is the one found for it (R29). -/
theorem eq_of_consumer_ctx {s : State} (h : LockInv s) {r r' : Consumer} (hr : r ∈ s.cons) (hr' : r' ∈ s.cons)
    (hc : r.ctx = r'.ctx) : r = r' :=
  List.inj_on_of_nodup_map h.1 hr hr' hc

/-- A change of the records that keeps each one's context keeps one record per context. -/
theorem nodup_ctx_map {cs : List Consumer} (h : (cs.map Consumer.ctx).Nodup) {f : Consumer → Consumer}
    (hf : ∀ r, (f r).ctx = r.ctx) : ((cs.map f).map Consumer.ctx).Nodup := by
  have hcomp : Consumer.ctx ∘ f = Consumer.ctx := funext hf
  rwa [List.map_map, hcomp]

/-- Ending calls keeps one record per context. -/
theorem nodup_ctx_filter {cs : List Consumer} (h : (cs.map Consumer.ctx).Nodup) (p : Consumer → Bool) :
    ((cs.filter p).map Consumer.ctx).Nodup :=
  h.sublist (List.filter_sublist.map _)

/-- A context that is in no call has no record (R209). -/
theorem ctx_ne_of_not_busy {c : Nat} {s : State} (hb : busy c s = false) : ∀ r ∈ s.cons, r.ctx ≠ c := by
  simp only [busy, Bool.or_eq_false_iff, List.any_eq_false, beq_iff_eq] at hb
  exact hb.1.1

/-- Where the lock is free, or context `c` holds it, no record of another context is in phase TAKING (R73). -/
theorem LockInv.not_taking {s : State} (h : LockInv s) {c : Nat} (hl : s.consLock = .free ∨ s.consLock = .held c) {r : Consumer}
    (hr : r ∈ s.cons) (hc : r.ctx ≠ c) : r.phase ≠ .taking := by
  obtain ⟨-, htaking, -⟩ := h
  intro hp
  have hheld := htaking r hr hp
  rcases hl with hl | hl <;> simp_all

/-- A free lock and no record in phase TAKING (R73). -/
theorem lockInv_of_free {s : State} (hn : (s.cons.map Consumer.ctx).Nodup) (hw : ∀ r ∈ s.cons, r.phase ≠ .taking)
    (hl : s.consLock = .free) : LockInv s :=
  ⟨hn, fun r hr hp => absurd hp (hw r hr), .inl hl⟩

/-- READ_ONE_BYTE adds a waiting record of a context that had none (R201 D1). -/
theorem LockInv.readOneByte {s : State} (h : LockInv s) {c : Nat} (hb : busy c s = false) :
    LockInv { s with cons := s.cons ++ [{ ctx := c, phase := .waiting, cancelReq := false }] } := by
  obtain ⟨hn, htaking, hlock⟩ := h
  refine ⟨?_, ?_, ?_⟩
  · simpa [List.nodup_append, hn] using ctx_ne_of_not_busy hb
  · intro r hr hp
    obtain hr | hr := List.mem_append.mp hr
    · exact htaking r hr hp
    · simp_all
  · exact hlock.imp_right fun ⟨r, hr, hp⟩ => ⟨r, List.mem_append_left _ hr, hp⟩

/-- CANCEL changes no phase (R204). -/
theorem LockInv.markCancelled {s : State} (h : LockInv s) (c : Nat) : LockInv (markCancelled c s) := by
  obtain ⟨hn, htaking, hlock⟩ := h
  have hctx (r : Consumer) : (if r.ctx = c then { r with cancelReq := true } else r).ctx = r.ctx := by split <;> rfl
  have hphase (r : Consumer) : (if r.ctx = c then { r with cancelReq := true } else r).phase = r.phase := by split <;> rfl
  refine ⟨nodup_ctx_map hn hctx, ?_, hlock.imp_right ?_⟩
  · simpa [hctx, hphase] using htaking
  · rintro ⟨r, hr, hp, hl⟩
    exact ⟨_, List.mem_map_of_mem hr, (hphase r).trans hp, by rw [hctx]; exact hl⟩

/-- Taking the byte ends the context's call and leaves the lock free (R201 D2). -/
theorem LockInv.takeByte {s : State} (h : LockInv s) {c : Nat} (hl : s.consLock = .free ∨ s.consLock = .held c) :
    LockInv (takeByte c s) := by
  refine lockInv_of_free (nodup_ctx_filter h.1 _) (fun r hr => ?_) rfl
  obtain ⟨hr, hc⟩ := List.mem_filter.mp hr
  exact h.not_taking hl hr (by simpa using hc)

/-- The holder of the lock waits again and leaves it free (R201). -/
theorem LockInv.backToWaiting {s : State} (h : LockInv s) {c : Nat} (hl : s.consLock = .held c) :
    LockInv (setPhase c .waiting { s with consLock := .free }) := by
  refine lockInv_of_free (nodup_ctx_map h.1 fun r => by split <;> rfl) (fun r hr => ?_) rfl
  obtain ⟨x, hx, rfl⟩ := List.mem_map.mp hr
  split
  · simp
  · exact h.not_taking (.inr hl) hx ‹_›

/-- A waiting consumer takes the free lock (R201, R73). -/
theorem LockInv.takeLock {s : State} (h : LockInv s) {c : Nat} (hm : mayTest c s = true) :
    LockInv (setPhase c .taking { s.drew with consLock := .held c }) := by
  obtain ⟨⟨w, hw, -⟩, hfree, -⟩ := mayTest_iff.mp hm
  obtain ⟨hw, hwc⟩ := consumerOf_mem hw
  refine ⟨nodup_ctx_map h.1 fun r => by split <;> rfl, fun r hr hp => ?_,
    .inr ⟨{ w with phase := .taking }, ?_, rfl, by simp [hwc]⟩⟩
  · obtain ⟨x, hx, rfl⟩ := List.mem_map.mp hr
    split at hp
    · simp_all
    · exact absurd hp (h.not_taking (.inl hfree) hx ‹_›)
  · exact List.mem_map.mpr ⟨w, hw, if_pos hwc⟩

/-- A waiting record does not hold the lock, so the call it is of can end (R204 D3). -/
theorem LockInv.endWaiting {s : State} (h : LockInv s) {w : Consumer} (hw : w ∈ s.cons) (hp : w.phase = .waiting) :
    LockInv (endConsumer w.ctx s) := by
  obtain ⟨hn, htaking, hlock⟩ := id h
  refine ⟨nodup_ctx_filter hn _, fun r hr => htaking r (List.mem_filter.mp hr).1, hlock.imp_right ?_⟩
  rintro ⟨r, hr, hrp, hl⟩
  have hne : r.ctx ≠ w.ctx := fun hc => by
    rw [eq_of_consumer_ctx h hr hw hc, hp] at hrp
    cases hrp
  exact ⟨r, List.mem_filter.mpr ⟨hr, by simpa using hne⟩, hrp, hl⟩

/-- A line of `attach` leaves the consumers and the lock as they are, or is the line of A3 that empties them (R220). -/
theorem resumeAttach_consumers {c : Nat} {a : AttachCall} {s t : State} (h : resumeAttach c a s = .next t) :
    (t.cons = s.cons ∧ t.consLock = s.consLock) ∨ (t.cons = [] ∧ t.consLock = .free) := by
  cases hl : a.line <;> simp only [resumeAttach, hl, Host.Outcome.next.injEq] at h
  case emptyContexts => exact .inr (h ▸ ⟨rfl, rfl⟩)
  all_goals left
  case testWindow =>
    obtain ht | ⟨-, -, -, ht⟩ := attachTestWindow_cases c a s
    all_goals exact h ▸ ht ▸ ⟨rfl, rfl⟩
  case testIrq =>
    obtain ⟨_, ht⟩ | ⟨-, -, ht⟩ := attachTestIrq_cases c a s
    all_goals exact h ▸ ht ▸ ⟨rfl, rfl⟩
  case configure =>
    obtain ⟨-, rfl⟩ | ⟨-, u, hu, rfl⟩ := attachConfigure_next h
    · exact ⟨rfl, rfl⟩
    · obtain ⟨_, _, _, _, rfl, -⟩ := lineConfigureStep_frame hu
      split
      all_goals exact ⟨rfl, rfl⟩
  all_goals exact h ▸ ⟨rfl, rfl⟩

/-- Every turn keeps the lock's discipline: only the consumer's own steps, CANCEL and the line of `attach` that empties the records touch
the records or the lock. -/
theorem LockInv.turn {s t : State} {e : Event} (h : LockInv s) (ht : Turn s e t) : LockInv t := by
  cases ht
  case registerRead hx =>
    obtain ⟨_, _, _, _, rfl⟩ := hostRead_frame hx
    exact h
  case registerWrite hx =>
    obtain ⟨_, _, _, rfl⟩ := hostWrite_frame hx
    exact h
  case attach hx =>
    obtain ⟨_, -, -, ⟨-, rfl⟩ | ⟨-, -, rfl⟩⟩ := execAttach_next hx
    all_goals exact h
  case detach hx =>
    obtain ⟨_, -, -, -, -, -, rfl⟩ := execDetach_next hx
    exact h
  case lineConfigure hx =>
    obtain ⟨_, _, -, -, -, -, hu, rfl⟩ := execLineConfigure_next hx
    obtain ⟨_, _, _, _, rfl, -⟩ := lineConfigureStep_frame hu
    exact h
  case transmitBytes hx =>
    obtain ⟨_, -, -, -, rfl⟩ := execTransmitBytes_next hx
    exact h
  case onReceiveInterrupt hx =>
    obtain ⟨-, -, -, _, _, hr, rfl⟩ := execOnReceiveInterrupt_next hx
    obtain ⟨⟨_, _, _, rfl⟩, -⟩ := regRead_frame hr
    exact h
  case readOneByte hx =>
    obtain ⟨_, -, hb, -, rfl⟩ := execReadOneByte_next hx
    exact h.readOneByte hb
  case cancel hx =>
    obtain ⟨-, rfl⟩ := execCancel_next hx
    exact h.markCancelled _
  case readLossCounter hx =>
    obtain ⟨_, -, -, -, rfl⟩ := execReadLossCounter_next hx
    exact h
  case attachLine hx =>
    obtain ⟨hc, hl⟩ | ⟨hc, hl⟩ := resumeAttach_consumers hx
    · simpa only [LockInv, hc, hl] using h
    · exact lockInv_of_free (by simp [hc]) (by simp [hc]) hl
  case configureWrite hx =>
    obtain rfl | ⟨_, hu, ht⟩ := resumeLineConfigure_cases hx
    · exact h
    · obtain ⟨_, _, _, _, rfl, -⟩ := lineConfigureStep_frame hu
      obtain rfl | rfl := ht
      all_goals exact h
  case detachEnd c on _ =>
    obtain ⟨-, ht⟩ | ⟨-, -, ht⟩ | ⟨-, -, ht⟩ := resumeDetach_cases c on s
    all_goals
      rw [ht]
      exact h
  case transmit hx =>
    obtain ⟨_, _, _, _, _, rfl⟩ := transmitStep_frame hx
    exact h
  case outsideEveryCall => exact h
  case dequeue c =>
    obtain ⟨-, ht⟩ | ⟨hd, ht⟩ := dequeueStep_cases c s
    all_goals rw [ht]
    · exact h
    · obtain ⟨-, hfree, -⟩ := dequeueEnabled_iff.mp hd
      exact h.takeByte (.inl hfree)
  case interrupted c =>
    obtain ht | ⟨r, hr, hp, -, ht⟩ := interruptedStep_cases c s
    all_goals rw [ht]
    · exact h
    · obtain ⟨hmem, rfl⟩ := consumerOf_mem hr
      exact h.endWaiting hmem hp
  case lock c =>
    obtain ⟨-, ht⟩ | ⟨-, -, ht⟩ | ⟨hm, -, ht⟩ := lockStep_cases c s
    all_goals rw [ht]
    · exact h
    · exact h
    · exact h.takeLock hm
  case takeLocked c =>
    obtain ht | ⟨hl, -, -, ht⟩ | ⟨hl, -, ht⟩ := takeLockedStep_cases c s
    all_goals rw [ht]
    · exact h
    · exact h.takeByte (.inr hl)
    · exact h.backToWaiting hl
  case irqEnter =>
    unfold irqEnterStep
    split
    all_goals exact h
  case irqStep hx =>
    obtain ⟨⟨_, _, _, _, _, rfl⟩, -⟩ := irqStep_frame hx
    exact h
  case lineTx =>
    obtain ht | ⟨_, -, -, ht⟩ := lineTxStep_cases s
    all_goals
      rw [ht]
      exact h
  case lineRx =>
    obtain ⟨_, _, _, ht⟩ := lineRxStep_frame s
    rw [ht]
    exact h
  case envAttach => exact h

/-- Settles O48: a step is a turn, and every turn keeps the lock's discipline. -/
theorem everyStepKeepsTheLock : Obligations.EveryStepKeepsTheLock := by
  intro s t h hs
  obtain ⟨q, ht⟩ := step_turn hs
  exact LockInv.turn (s := { s with sched := q }) h ht

end Sys2Proof.Machine
end

section
/-! PROOFS. State (10_state.md): the parameters and the handle's fields (R6, R27), and the serial line with the transmitted stream (R50,
R155, R157). -/

namespace Sys2Proof.Machine

/-! ## What a turn leaves of the parameters, the handle and the line -/

/-- The handle's number, arguments and divisor (R27). -/
def Handle.identity (h : Handle) : Nat × Nat × Nat × Nat × Nat := (h.id, h.base, h.clockHz, h.irqLine, h.divisor)

theorem Handle.identity_eq_iff {h h' : Handle} :
    h.identity = h'.identity ↔
      h.id = h'.id ∧ h.base = h'.base ∧ h.clockHz = h'.clockHz ∧ h.irqLine = h'.irqLine ∧ h.divisor = h'.divisor := by
  simp [Handle.identity]

/-- The parameters, the handle's identity and the line are as they were (R6, R27, R50). -/
abbrev KeepsHandleAndLine (s t : State) : Prop :=
  t.cfg = s.cfg ∧ t.hdl.identity = s.hdl.identity ∧ t.line.txLine = s.line.txLine

/-- The turns outside `attach` in which a register may be written: a direct request (R288), a write of LINE_CONFIGURE (R132), a step of a
transmit call (R151). -/
abbrev MayWriteRegister (s : State) (e : Event) (t : State) : Prop :=
  directRequest e = true ∨ (∃ h, execLineConfigure h s = .next t) ∨ (∃ c h, { ctx := c, kind := .lineConfigure h } ∈ s.calls) ∨
    ∃ w, transmitStep w s = .next t

/-- A turn is a line of `attach`, or LINE_TX's byte, or it keeps the parameters, the handle's identity and the line; and unless it may write
a register it keeps the holding register too. -/
theorem Turn.handleAndLine {s t : State} {e : Event} (ht : Turn s e t) :
    (∃ c a, e = .resume c ∧ s.calls.find? (fun k => k.ctx == c) = some { ctx := c, kind := .attach a } ∧
      resumeAttach c a s = .next t) ∨
    (∃ b, s.dev.thr = some b ∧ s.dev.mdr = s.cfg.mdrNormal ∧
      t = { s with line := { s.line with txLine := s.line.txLine ++ [b] }, dev := { s.dev with thr := none } }) ∨
    (KeepsHandleAndLine s t ∧ (t.dev.thr = s.dev.thr ∨ MayWriteRegister s e t)) := by
  cases ht
  case attachLine c a hf hx => exact .inl ⟨c, a, rfl, hf, hx⟩
  all_goals right
  case lineTx =>
    obtain ht | ht := lineTxStep_cases s
    · rw [ht]
      exact .inr ⟨⟨rfl, rfl, rfl⟩, .inl rfl⟩
    · exact .inl ht
  all_goals right
  case registerRead hx =>
    obtain ⟨_, _, _, _, rfl⟩ := hostRead_frame hx
    exact ⟨⟨rfl, rfl, rfl⟩, .inr (.inl rfl)⟩
  case registerWrite hx =>
    obtain ⟨_, _, _, rfl⟩ := hostWrite_frame hx
    exact ⟨⟨rfl, rfl, rfl⟩, .inr (.inl rfl)⟩
  case attach hx =>
    obtain ⟨_, -, -, ⟨-, rfl⟩ | ⟨-, -, rfl⟩⟩ := execAttach_next hx
    all_goals exact ⟨⟨rfl, rfl, rfl⟩, .inl rfl⟩
  case detach hx =>
    obtain ⟨_, -, -, -, -, -, rfl⟩ := execDetach_next hx
    exact ⟨⟨rfl, rfl, rfl⟩, .inl rfl⟩
  case lineConfigure hx =>
    refine ⟨?_, .inr (.inr (.inl ⟨_, hx⟩))⟩
    obtain ⟨_, _, -, -, -, -, hu, rfl⟩ := execLineConfigure_next hx
    obtain ⟨_, _, _, _, rfl, -⟩ := lineConfigureStep_frame hu
    exact ⟨rfl, rfl, rfl⟩
  case transmitBytes hx =>
    obtain ⟨_, -, -, -, rfl⟩ := execTransmitBytes_next hx
    exact ⟨⟨rfl, rfl, rfl⟩, .inl rfl⟩
  case onReceiveInterrupt hx =>
    obtain ⟨-, -, -, _, _, hr, rfl⟩ := execOnReceiveInterrupt_next hx
    obtain ⟨⟨_, _, _, rfl⟩, hthr⟩ := regRead_frame hr
    exact ⟨⟨rfl, rfl, rfl⟩, .inl hthr⟩
  case readOneByte hx =>
    obtain ⟨_, -, -, -, rfl⟩ := execReadOneByte_next hx
    exact ⟨⟨rfl, rfl, rfl⟩, .inl rfl⟩
  case cancel hx =>
    obtain ⟨-, rfl⟩ := execCancel_next hx
    exact ⟨⟨rfl, rfl, rfl⟩, .inl rfl⟩
  case readLossCounter hx =>
    obtain ⟨_, -, -, -, rfl⟩ := execReadLossCounter_next hx
    exact ⟨⟨rfl, rfl, rfl⟩, .inl rfl⟩
  case configureWrite hmem hx =>
    refine ⟨?_, .inr (.inr (.inr (.inl ⟨_, _, hmem⟩)))⟩
    obtain rfl | ⟨_, hu, ht⟩ := resumeLineConfigure_cases hx
    · exact ⟨rfl, rfl, rfl⟩
    · obtain ⟨_, _, _, _, rfl, -⟩ := lineConfigureStep_frame hu
      obtain rfl | rfl := ht
      all_goals exact ⟨rfl, rfl, rfl⟩
  case detachEnd c on _ =>
    obtain ⟨-, ht⟩ | ⟨-, -, ht⟩ | ⟨-, -, ht⟩ := resumeDetach_cases c on s
    all_goals
      rw [ht]
      exact ⟨⟨rfl, rfl, rfl⟩, .inl rfl⟩
  case transmit hx =>
    refine ⟨?_, .inr (.inr (.inr (.inr ⟨_, hx⟩)))⟩
    obtain ⟨_, _, _, _, _, rfl⟩ := transmitStep_frame hx
    exact ⟨rfl, rfl, rfl⟩
  case dequeue c =>
    obtain ⟨_, _, _, _, _, ht⟩ := dequeueStep_frame c s
    exact ht ▸ ⟨⟨rfl, rfl, rfl⟩, .inl rfl⟩
  case interrupted c =>
    obtain ⟨_, _, _, _, _, ht⟩ := interruptedStep_frame c s
    exact ht ▸ ⟨⟨rfl, rfl, rfl⟩, .inl rfl⟩
  case lock c =>
    obtain ⟨_, _, _, _, _, ht⟩ := lockStep_frame c s
    exact ht ▸ ⟨⟨rfl, rfl, rfl⟩, .inl rfl⟩
  case takeLocked c =>
    obtain ⟨_, _, _, _, _, ht⟩ := takeLockedStep_frame c s
    exact ht ▸ ⟨⟨rfl, rfl, rfl⟩, .inl rfl⟩
  case irqEnter =>
    unfold irqEnterStep
    split
    all_goals exact ⟨⟨rfl, rfl, rfl⟩, .inl rfl⟩
  case irqStep hx =>
    obtain ⟨⟨_, _, _, _, _, rfl⟩, hthr, -⟩ := irqStep_frame hx
    exact ⟨⟨rfl, rfl, rfl⟩, .inl hthr⟩
  case lineRx =>
    obtain ⟨_, _, _, ht⟩ := lineRxStep_frame s
    exact ht ▸ ⟨⟨rfl, rfl, rfl⟩, .inl rfl⟩
  all_goals exact ⟨⟨rfl, rfl, rfl⟩, .inl rfl⟩

/-- What a line of `attach` does to the parameters, the handle and the line: three lines of A3 write the handle's number and arguments, one
empties the line (R220, log 14, log 27). -/
theorem resumeAttach_handleAndLine {c : Nat} {a : AttachCall} {s t : State} (h : resumeAttach c a s = .next t) :
    t.cfg = s.cfg ∧
    (t.hdl.identity = s.hdl.identity ∨ ((a.line = .setArguments ∨ a.line = .setDivisor) ∧ t.hdl.id = s.hdl.id) ∨
      (a.line = .makeHandle ∧ t.hdl.id = s.hdl.id + 1)) ∧
    (t.line.txLine = s.line.txLine ∨ (a.line = .emptyLogs ∧ t.line.txLine = [])) := by
  cases hl : a.line <;> simp only [resumeAttach, hl, Host.Outcome.next.injEq] at h
  case makeHandle => exact h ▸ ⟨rfl, .inr (.inr ⟨rfl, rfl⟩), .inl rfl⟩
  case setArguments => exact h ▸ ⟨rfl, .inr (.inl ⟨.inl rfl, rfl⟩), .inl rfl⟩
  case setDivisor => exact h ▸ ⟨rfl, .inr (.inl ⟨.inr rfl, rfl⟩), .inl rfl⟩
  case emptyLogs => exact h ▸ ⟨rfl, .inl rfl, .inr ⟨rfl, rfl⟩⟩
  case testWindow =>
    obtain ht | ⟨-, -, -, ht⟩ := attachTestWindow_cases c a s
    all_goals exact h ▸ ht ▸ ⟨rfl, .inl rfl, .inl rfl⟩
  case testIrq =>
    obtain ⟨_, ht⟩ | ⟨-, -, ht⟩ := attachTestIrq_cases c a s
    all_goals exact h ▸ ht ▸ ⟨rfl, .inl rfl, .inl rfl⟩
  case configure =>
    obtain ⟨-, rfl⟩ | ⟨-, u, hu, rfl⟩ := attachConfigure_next h
    · exact ⟨rfl, .inl rfl, .inl rfl⟩
    · obtain ⟨_, _, _, _, rfl, -⟩ := lineConfigureStep_frame hu
      split
      all_goals exact ⟨rfl, .inl rfl, .inl rfl⟩
  all_goals exact h ▸ ⟨rfl, .inl rfl, .inl rfl⟩

/-- A line of `attach` whose turn is next (R220). -/
theorem onAttachLine_of_find {s : State} {c : Nat} {a : AttachCall} (he : nextEvent s = .resume c)
    (hf : s.calls.find? (fun k => k.ctx == c) = some { ctx := c, kind := .attach a }) : OnAttachLine a.line s := by
  refine ⟨a, ?_, rfl⟩
  simp [callOf, he, hf]

/-- The lines of A3 that write the handle's number or arguments find no live handle (R220, R222). -/
theorem LifeInv.not_live_of_fills {s : State} (h : LifeInv s) {c : Nat} {a : AttachCall}
    (hmem : { ctx := c, kind := .attach a } ∈ s.calls)
    (hl : a.line = .makeHandle ∨ a.line = .setArguments ∨ a.line = .setDivisor) : handleLive s = false := by
  obtain ⟨-, -, -, -, -, -, hok⟩ := h
  have hc := hok _ hmem
  rcases hl with hl | hl | hl <;> simp_all [callOk, handleLive]

/-- Settles O58: only `attach` writes the handle's number, arguments and divisor, and its lines that do find no live handle. -/
theorem parametersAndHandleFieldsAreFixed : Obligations.ParametersAndHandleFieldsAreFixed := by
  intro s t hs
  obtain ⟨q, ht⟩ := step_turn hs
  obtain ⟨c, a, he, hf, hx⟩ | ⟨_, -, -, rfl⟩ | ⟨⟨hcfg, hid, -⟩, -⟩ := ht.handleAndLine
  case inr.inl => exact ⟨rfl, fun _ _ => ⟨rfl, rfl, rfl, rfl, rfl⟩, .inl rfl⟩
  case inr.inr =>
    have hsame := Handle.identity_eq_iff.mp hid
    exact ⟨hcfg, fun _ _ => hsame, .inl hsame.1⟩
  have hmem := List.mem_of_find?_eq_some hf
  obtain ⟨hcfg, hid | ⟨hl, hid⟩ | ⟨hl, hid⟩, -⟩ := resumeAttach_handleAndLine hx
  · have hsame := Handle.identity_eq_iff.mp hid
    exact ⟨hcfg, fun _ _ => hsame, .inl hsame.1⟩
  · exact ⟨hcfg, fun h hlive => absurd hlive (by simp [h.not_live_of_fills hmem (.inr hl)]), .inl hid⟩
  · exact ⟨hcfg, fun h hlive => absurd hlive (by simp [h.not_live_of_fills hmem (.inl hl)]),
      .inr ⟨hl ▸ onAttachLine_of_find he hf, hid⟩⟩

/-! ## The transmitted stream -/

/-- FIFO_CONTROL, which can clear the holding register, and DATA, which can load it, are each reached at their own offset only (R86). -/
theorem select_offset {cfg : Config} {k : Nat} {latch : Bool} :
    (select cfg k latch = .fifoControl → k = cfg.kFcr) ∧ (select cfg k latch = .data → k = cfg.kData) := by
  unfold select
  repeat' split
  all_goals simp_all

/-- A write of any register but FIFO_CONTROL leaves the holding register, or is a write of DATA that loads it (R103). -/
theorem writeRegister_thr {r : Register} {v : Word} {s t : State} (h : writeRegister r v s = .next t) (hr : r ≠ .fifoControl) :
    t.dev.thr = s.dev.thr ∨ (r = .data ∧ s.dev.thr = none ∧ t.dev.thr = some (low8 v)) := by
  cases r
  case fifoControl => exact absurd rfl hr
  case data =>
    rw [writeRegister, writeData] at h
    split at h <;> cases h
    exact .inr ⟨rfl, ‹_›, rfl⟩
  case intEnable =>
    rw [writeRegister, writeIntEnable] at h
    split at h <;> cases h
    exact .inl rfl
  case lineControl =>
    rw [writeRegister, writeLineControl] at h
    split at h <;> cases h
    exact .inl rfl
  case lineStatus => cases h
  case reserved => cases h
  all_goals
    cases h
    exact .inl rfl

/-- The same for a write transaction, by its offset (R101, R86). -/
theorem regWrite_thr {h k : Nat} {v : Word} {s t : State} (hw : regWrite h k v s = .next t) (hk : k ≠ s.cfg.kFcr) :
    t.dev.thr = s.dev.thr ∨ (k = s.cfg.kData ∧ s.dev.thr = none ∧ t.dev.thr = some (low8 v)) :=
  (writeRegister_thr (regWrite_next hw).2 fun hr => hk (select_offset.1 hr)).imp_right fun ⟨hr, hthr⟩ => ⟨select_offset.2 hr, hthr⟩

/-- The transmitted stream is the line followed by the holding register (R50, R156). -/
theorem sentBytes_eq {s t : State} (hl : t.line.txLine = s.line.txLine) (hthr : t.dev.thr = s.dev.thr) : sentBytes t = sentBytes s := by
  rw [sentBytes, sentBytes, hl, hthr]

/-- FIFO_CONTROL, DATA and MODE_SELECT have offsets of their own (R86). -/
theorem offsets_apart {cfg : Config} (h : cfg.wf = true) : cfg.kData ≠ cfg.kFcr ∧ cfg.kMdr ≠ cfg.kFcr ∧ cfg.kMdr ≠ cfg.kData := by
  have hn := (Config.wf_offsets h).1
  simp only [List.nodup_cons, List.mem_cons, not_or] at hn
  obtain ⟨⟨-, -, hmdr, hdata, -⟩, -, -, ⟨hmd, -⟩, -⟩ := hn
  exact ⟨Ne.symm hdata, Ne.symm hmdr, hmd⟩

/-- A step of a transmit call leaves the stream, or is a put that adds its byte and logs it (R151, R153, R155). -/
theorem transmitStep_sentBytes {w : PendingWrite} {s t : State} (hwf : s.cfg.wf = true) (h : transmitStep w s = .next t) :
    sentBytes t = sentBytes s ∨ ∃ b, sentBytes t = sentBytes s ++ [b] ∧ t.obs.pollLog = s.obs.pollLog ++ [.put b] := by
  obtain ⟨-, rfl⟩ | ⟨b, -, ⟨-, -, rfl⟩ | ⟨-, -, hp⟩ | ⟨-, hp⟩⟩ := transmitStep_next h
  · exact .inl rfl
  · exact .inl rfl
  · obtain ⟨_, _, hr, ⟨-, rfl⟩ | ⟨-, rfl⟩⟩ := pollStep_next hp
    all_goals
      obtain ⟨⟨_, _, _, rfl⟩, hthr⟩ := regRead_frame hr
      exact .inl (sentBytes_eq rfl hthr)
  · obtain ⟨_, hw, rfl⟩ := putStep_next hp
    have hthr := regWrite_thr hw (offsets_apart hwf).1
    obtain ⟨_, _, _, rfl⟩ := regWrite_frame hw
    obtain hthr | ⟨-, hnone, hsome⟩ := hthr
    · exact .inl (sentBytes_eq rfl hthr)
    · refine .inr ⟨b, ?_, rfl⟩
      simpa [sentBytes, advanceWrite, hnone, zext32, low8] using hsome

/-- LINE_CONFIGURE's own request writes MODE_SELECT's offset, so it leaves the stream (W1 of R132). -/
theorem execLineConfigure_thr {h : Nat} {s t : State} (hwf : s.cfg.wf = true) (hx : execLineConfigure h s = .next t) :
    t.dev.thr = s.dev.thr := by
  obtain ⟨_, _, -, -, -, hzero, hu, rfl⟩ := execLineConfigure_next hx
  obtain ⟨k, b, _, hk, hw, rfl⟩ | ⟨-, rfl⟩ := lineConfigureStep_next hu
  · rw [hzero] at hk
    cases hk
    obtain hthr | ⟨hdata, -⟩ := regWrite_thr hw (offsets_apart hwf).2.1
    · exact hthr
    · exact absurd hdata (offsets_apart hwf).2.2
  · rfl

/-- With no configuration in progress and no direct register request, a turn leaves the transmitted stream or adds the byte it puts. -/
theorem Turn.sentBytes {s t : State} {e : Event} (ht : Turn s e t) (hwf : s.cfg.wf = true) (hn : NoConfiguring s)
    (hd : directRequest e = false) :
    sentBytes t = sentBytes s ∨ ∃ b, Machine.sentBytes t = Machine.sentBytes s ++ [b] ∧ t.obs.pollLog = s.obs.pollLog ++ [.put b] := by
  obtain ⟨c, a, -, hf, -⟩ | ⟨b, hb, -, rfl⟩ | ⟨⟨-, -, hl⟩, hthr | hreq | ⟨_, hx⟩ | ⟨_, h, hmem⟩ | ⟨_, hx⟩⟩ := ht.handleAndLine
  · exact absurd rfl ((hn _ (List.mem_of_find?_eq_some hf)).1 a)
  · exact .inl (by simp [Machine.sentBytes, hb])
  · exact .inl (sentBytes_eq hl hthr)
  · exact absurd hreq (by simp [hd])
  · exact .inl (sentBytes_eq hl (execLineConfigure_thr hwf hx))
  · exact absurd rfl ((hn _ hmem).2 h)
  · exact transmitStep_sentBytes hwf hx

/-- Settles O31: LINE_TX's byte and the line of `attach` are the only writes of the line; and outside configuration and direct requests only
a put adds to the stream. -/
theorem theStreamGrowsOnlyByPuts : Obligations.TheStreamGrowsOnlyByPuts := by
  intro s t hs
  obtain ⟨q, ht⟩ := step_turn hs
  refine ⟨?_, fun hwf hn hd => Turn.sentBytes (s := { s with sched := q }) ht hwf hn hd⟩
  obtain ⟨c, a, he, hf, hx⟩ | ⟨b, hb, hm, rfl⟩ | ⟨⟨-, -, hl⟩, -⟩ := ht.handleAndLine
  · obtain ⟨-, -, hl | ⟨ha, hl⟩⟩ := resumeAttach_handleAndLine hx
    · exact .inl hl
    · exact .inr (.inr ⟨ha ▸ onAttachLine_of_find he hf, hl⟩)
  · exact .inr (.inl ⟨b, hb, hm, rfl, rfl⟩)
  · exact .inl hl

end Sys2Proof.Machine
end

section
/-! PROOFS. State (10_state.md): the lifecycle's invariant (R31, R40, R220, R223, R274 item 6). -/

namespace Sys2Proof.Machine

/-! ## The calls in progress -/

/-- The part of the lifecycle's invariant that speaks of the handle and the handler, not of the calls (R31, R40, R220). -/
abbrev HandleOk (s : State) : Prop :=
  s.hdl.cfgStep ≤ 9 ∧
  (s.hdl.life = .attached → configureDone s = true) ∧
  (s.hdl.handlerRegistered = true → configureDone s = true ∧ handleLive s = true) ∧
  (handleLive s = false → s.irqPhase = .idle)

/-- The lifecycle's invariant is that part and the calls' part: one call per context, one handle in the making, every call in its place. -/
theorem lifeInv_iff {s : State} :
    LifeInv s ↔ HandleOk s ∧ (s.calls.map HostCall.ctx).Nodup ∧ (s.calls.filter isMaking).length ≤ 1 ∧
      ∀ k ∈ s.calls, callOk s k = true := by
  simp only [LifeInv, HandleOk, and_assoc]

/-- Where a detach stands, spelled out (R223). -/
theorem callOk_detach {s : State} {c h : Nat} :
    callOk s { ctx := c, kind := .detach h } = true ↔
      h ≤ s.hdl.id ∧ (h = s.hdl.id → s.hdl.handlerRegistered = false ∧ notYetReturned h s = false ∧
        (s.hdl.life = .attached ∨ s.hdl.life = .tornDown)) := by
  simp only [callOk, Bool.and_eq_true, decide_eq_true_eq, Bool.or_eq_true, bne_iff_ne, Bool.not_eq_true', beq_iff_eq, and_assoc,
    imp_iff_not_or, ne_eq]

/-- `attach` has made the handle numbered `h` ATTACHED and not returned it: the call that is at its return (R220 A6). -/
theorem notYetReturned_iff {s : State} {h : Nat} :
    notYetReturned h s = true ↔
      ∃ c a, { ctx := c, kind := .attach a } ∈ s.calls ∧ a.line = .giveHandle ∧ a.made = h := by
  simp only [notYetReturned, List.any_eq_true, Option.any_eq_true, Bool.and_eq_true, beq_iff_eq]
  constructor
  · rintro ⟨⟨c, kind⟩, hk, a, ha, hl⟩
    cases kind <;> cases ha
    exact ⟨c, a, hk, hl⟩
  · rintro ⟨c, a, hk, hl⟩
    exact ⟨_, hk, a, rfl, hl⟩

/-- A call that is making a handle is an attach at one of the lines from A3 to A6's first (R220). -/
theorem isMaking_attach {c : Nat} {a : AttachCall} : isMaking { ctx := c, kind := .attach a } = a.line.makesHandle := by
  simp [isMaking, attachOf]

/-- With one call per context, at most one call is making a handle exactly when any two that are have the same context. -/
theorem making_le_one_iff {cs : List HostCall} (hn : (cs.map HostCall.ctx).Nodup) :
    (cs.filter isMaking).length ≤ 1 ↔
      ∀ j ∈ cs, ∀ k ∈ cs, isMaking j = true → isMaking k = true → j.ctx = k.ctx := by
  have hnf : ((cs.filter isMaking).map HostCall.ctx).Nodup := hn.sublist (List.filter_sublist.map _)
  constructor
  · intro hle j hj k hk hmj hmk
    have hjf := List.mem_filter.mpr ⟨hj, hmj⟩
    have hkf := List.mem_filter.mpr ⟨hk, hmk⟩
    match hf : cs.filter isMaking with
    | [] => simp [hf] at hjf
    | [x] => simp_all
    | x :: y :: rest => simp [hf] at hle
  · intro h
    match hf : cs.filter isMaking with
    | [] => simp
    | [x] => simp
    | x :: y :: rest =>
      have hx : x ∈ cs ∧ isMaking x = true := List.mem_filter.mp (by simp [hf])
      have hy : y ∈ cs ∧ isMaking y = true := List.mem_filter.mp (by simp [hf])
      rw [hf] at hnf
      simp [h x hx.1 y hy.1 hx.2 hy.2] at hnf

/-- A call stays where it is while the handle keeps its number and its life, `cfg_step` only goes up, no handler is registered, and no
attach comes to its return. -/
theorem callOk_mono {s t : State} {k : HostCall} (hcfg : t.cfg = s.cfg) (hid : t.hdl.id = s.hdl.id) (hlife : t.hdl.life = s.hdl.life)
    (hstep : s.hdl.cfgStep ≤ t.hdl.cfgStep) (hreg : s.hdl.handlerRegistered = false → t.hdl.handlerRegistered = false)
    (hret : ∀ h, notYetReturned h s = false → notYetReturned h t = false) (hk : callOk s k = true) : callOk t k = true := by
  have hdone : configureDone s = true → configureDone t = true := by
    simp only [configureDone, hcfg, decide_eq_true_eq]
    exact fun h => h.trans hstep
  obtain ⟨c, kind⟩ := k
  cases kind
  case attach a => cases hl : a.line <;> simp_all [callOk, handleLive]
  case detach h =>
    rw [callOk_detach] at hk ⊢
    rw [hid, hlife]
    exact ⟨hk.1, fun hh => ⟨hreg (hk.2 hh).1, hret _ (hk.2 hh).2.1, (hk.2 hh).2.2⟩⟩
  case lineConfigure => rfl

/-- A call that makes no handle stays where it is when another one's attach, which has not yet made the handle ATTACHED, moves on: on the
same handle, or to a new one. -/
theorem callOk_of_not_making {s t : State} {k : HostCall} (hm : isMaking k = false) (hk : callOk s k = true)
    (hlife : s.hdl.life ≠ .attached) (hid : (t.hdl.id = s.hdl.id ∧ s.hdl.life ≠ .tornDown) ∨ s.hdl.id < t.hdl.id) :
    callOk t k = true := by
  obtain ⟨c, kind⟩ := k
  cases kind
  case attach a => cases hl : a.line <;> simp_all [callOk, isMaking, attachOf, AttachLine.makesHandle]
  case detach h =>
    rw [callOk_detach] at hk ⊢
    obtain ⟨hle, heq⟩ := hk
    have hne : h ≠ t.hdl.id := by
      rintro rfl
      obtain ⟨he, ht⟩ | hlt := hid
      · obtain ⟨-, -, hl | hl⟩ := heq he
        · exact hlife hl
        · exact ht hl
      · exact absurd hle (by omega)
    exact ⟨by omega, fun he => absurd he hne⟩
  case lineConfigure => rfl

/-- No attach comes to its return where every attach that is there was there before. -/
theorem notYetReturned_mono {s t : State}
    (hsub : ∀ c a, a.line = .giveHandle → { ctx := c, kind := .attach a } ∈ t.calls → { ctx := c, kind := .attach a } ∈ s.calls) (h : Nat)
    (hs : notYetReturned h s = false) : notYetReturned h t = false := by
  rw [← Bool.not_eq_true] at hs ⊢
  rintro ht
  obtain ⟨c, a, hmem, hl, hmade⟩ := notYetReturned_iff.mp ht
  exact hs (notYetReturned_iff.mpr ⟨c, a, hsub c a hl hmem, hl, hmade⟩)

/-! ## The steps of the lifecycle -/

/-- Calls may end, `cfg_step` may go up and a handler may be unregistered, while the handle keeps its number and its life. -/
theorem LifeInv.mono {s t : State} (h : LifeInv s) (ht : HandleOk t) (hcalls : t.calls.Sublist s.calls) (hcfg : t.cfg = s.cfg)
    (hid : t.hdl.id = s.hdl.id) (hlife : t.hdl.life = s.hdl.life) (hstep : s.hdl.cfgStep ≤ t.hdl.cfgStep)
    (hreg : s.hdl.handlerRegistered = false → t.hdl.handlerRegistered = false) : LifeInv t := by
  obtain ⟨-, hn, hmaking, hok⟩ := lifeInv_iff.mp h
  refine lifeInv_iff.mpr ⟨ht, hn.sublist (hcalls.map _), (hcalls.filter _).length_le.trans hmaking, fun k hk => ?_⟩
  exact callOk_mono hcfg hid hlife hstep hreg (notYetReturned_mono fun _ _ _ hm => hcalls.subset hm) (hok k (hcalls.subset hk))

/-- The end of a call (R256). -/
theorem LifeInv.endCall {s : State} (h : LifeInv s) (c : Nat) : LifeInv (endCall c s) :=
  h.mono (lifeInv_iff.mp h).1 List.filter_sublist rfl rfl rfl le_rfl id

/-- A step of line configuration (R31, R132). -/
theorem LifeInv.lineConfigureStep {s t : State} (h : LifeInv s) (ht : lineConfigureStep s = .next t) : LifeInv t := by
  obtain ⟨_, _, _, n, rfl, hle, hn⟩ := lineConfigureStep_frame ht
  obtain ⟨⟨hmax, hattached, hreg, hidle⟩, -⟩ := lifeInv_iff.mp h
  have hdone (hd : configureDone s = true) : configureDone { s with hdl := { s.hdl with cfgStep := n } } = true := by
    simp only [configureDone, decide_eq_true_eq] at hd ⊢
    exact hd.trans hle
  exact h.mono ⟨hn hmax, fun hl => hdone (hattached hl), fun hr => ⟨hdone (hreg hr).1, (hreg hr).2⟩, hidle⟩ (.refl _) rfl rfl rfl hle id

/-- A context that is in no call begins one: a detach, a LINE_CONFIGURE, or an attach at A2 (R209, R220, R223). -/
theorem LifeInv.addCall {s : State} (h : LifeInv s) {c : Nat} {kind : CallKind} (hb : busy c s = false)
    (hline : ∀ a, kind = .attach a → a.line = .testWindow) (hok : callOk s { ctx := c, kind := kind } = true) :
    LifeInv { s with calls := s.calls ++ [{ ctx := c, kind := kind }] } := by
  obtain ⟨hhandle, hn, hmaking, hcalls⟩ := lifeInv_iff.mp h
  have hfresh : ∀ k ∈ s.calls, k.ctx ≠ c := by
    simp only [busy, Bool.or_eq_false_iff, List.any_eq_false, beq_iff_eq] at hb
    exact hb.2
  have hnew : isMaking { ctx := c, kind := kind } = false := by
    cases kind
    case attach a => rw [isMaking_attach, hline a rfl, AttachLine.makesHandle]
    all_goals rfl
  have hret (j : Nat) : notYetReturned j s = false →
      notYetReturned j { s with calls := s.calls ++ [{ ctx := c, kind := kind }] } = false := by
    refine notYetReturned_mono (fun d a hl hm => ?_) j
    obtain hm | hm := List.mem_append.mp hm
    · exact hm
    · simp only [List.mem_singleton, HostCall.mk.injEq] at hm
      simp [hline a hm.2.symm] at hl
  refine lifeInv_iff.mpr ⟨hhandle, ?_, ?_, fun k hk => callOk_mono (s := s) rfl rfl rfl le_rfl id hret ?_⟩
  · simpa [List.nodup_append, hn] using hfresh
  · simpa [List.filter_append, hnew] using hmaking
  · obtain hk | hk := List.mem_append.mp hk
    · exact hcalls k hk
    · rwa [List.mem_singleton.mp hk]

/-- DETACH's request: the handler is unregistered, and the context is inside the call (R223 T1). -/
theorem LifeInv.detach {s : State} (h : LifeInv s) {c on : Nat} (hb : busy c s = false) (hu : usable on s = true) :
    LifeInv { s with
      hdl := { s.hdl with handlerRegistered := false }
      calls := s.calls ++ [{ ctx := c, kind := .detach on }] } := by
  obtain ⟨⟨hmax, hattached, hreg, hidle⟩, -⟩ := lifeInv_iff.mp h
  obtain ⟨hon, hret⟩ := usable_iff.mp hu
  obtain ⟨rfl, hlife⟩ := lifeOf_attached hon
  have hquiet : LifeInv { s with hdl := { s.hdl with handlerRegistered := false } } :=
    h.mono ⟨hmax, hattached, nofun, hidle⟩ (.refl _) rfl rfl rfl le_rfl fun _ => rfl
  exact hquiet.addCall hb nofun (callOk_detach.mpr ⟨le_rfl, fun _ => ⟨rfl, hret, .inl hlife⟩⟩)

/-- While an attach is making a handle, no other call is (R222). -/
theorem LifeInv.others_not_making {s : State} (h : LifeInv s) {j : HostCall} (hj : j ∈ s.calls) (hm : isMaking j = true) :
    ∀ k ∈ s.calls, k.ctx ≠ j.ctx → isMaking k = false := by
  obtain ⟨-, hn, hmaking, -⟩ := lifeInv_iff.mp h
  intro k hk hne
  rw [← Bool.not_eq_true]
  exact fun hmk => hne ((making_le_one_iff hn).mp hmaking k hk j hj hmk hm)

/-- After an attach has gone on to a line, its call is at that line and every other call is as it was. -/
theorem mem_toLine_calls {c : Nat} {a : AttachCall} {l : AttachLine} {s : State} {k : HostCall} (hk : k ∈ (toLine c a l s).calls) :
    k = { ctx := c, kind := .attach { a with line := l } } ∨ (k ∈ s.calls ∧ k.ctx ≠ c) := by
  rw [toLine_calls] at hk
  obtain ⟨x, hx, rfl⟩ := List.mem_map.mp hk
  split
  · rename_i hc
    exact .inl (hc ▸ rfl)
  · exact .inr ⟨hx, ‹_›⟩

/-- An attach goes on to a line, from a state `u` that the line before has left: what is to be shown of the handle, of the call at its new
line, and of the other calls (R220). -/
theorem LifeInv.toLine {s u : State} (h : LifeInv s) {c : Nat} {a : AttachCall} {l : AttachLine} (hcalls : u.calls = s.calls)
    (hu : HandleOk u) (hnew : callOk u { ctx := c, kind := .attach { a with line := l } } = true)
    (hothers : ∀ k ∈ s.calls, k.ctx ≠ c → callOk (toLine c a l u) k = true)
    (hmaking : l.makesHandle = true → ∀ k ∈ s.calls, k.ctx ≠ c → isMaking k = false) : LifeInv (toLine c a l u) := by
  obtain ⟨-, hn, hone, -⟩ := lifeInv_iff.mp h
  have hn' : ((Machine.toLine c a l u).calls.map HostCall.ctx).Nodup := by
    have hctx : HostCall.ctx ∘ (fun x => if x.ctx = c then { x with kind := .attach { a with line := l } } else x) = HostCall.ctx :=
      funext fun x => by simp only [Function.comp]; split <;> rfl
    rwa [toLine_calls, List.map_map, hctx, hcalls]
  refine lifeInv_iff.mpr ⟨hu, hn', (making_le_one_iff hn').mpr fun j hj k hk hmj hmk => ?_, fun k hk => ?_⟩
  · obtain rfl | ⟨hj, hjc⟩ := mem_toLine_calls hj <;> obtain rfl | ⟨hk, hkc⟩ := mem_toLine_calls hk
    · rfl
    · exact absurd hmk (by simp [hmaking (isMaking_attach.symm.trans hmj) k (hcalls ▸ hk) hkc])
    · exact absurd hmj (by simp [hmaking (isMaking_attach.symm.trans hmk) j (hcalls ▸ hj) hjc])
    · exact (making_le_one_iff hn).mp hone j (hcalls ▸ hj) k (hcalls ▸ hk) hmj hmk
  · obtain rfl | ⟨hk, hkc⟩ := mem_toLine_calls hk
    · exact hnew
    · exact hothers k (hcalls ▸ hk) hkc

/-- An attach that has passed a line before its return, on the handle as it is: A2, and A4 once the sequence is over (R220). -/
theorem LifeInv.nextLine {s : State} (h : LifeInv s) {c : Nat} {a : AttachCall} {l : AttachLine} (hl : l ≠ .giveHandle)
    (hnew : callOk s { ctx := c, kind := .attach { a with line := l } } = true)
    (hmaking : l.makesHandle = true → ∀ k ∈ s.calls, k.ctx ≠ c → isMaking k = false) : LifeInv (Machine.toLine c a l s) := by
  obtain ⟨hhandle, -, -, hok⟩ := lifeInv_iff.mp h
  refine h.toLine rfl hhandle hnew (fun k hk _ => callOk_mono (s := s) rfl rfl rfl le_rfl id ?_ (hok k hk)) hmaking
  refine notYetReturned_mono fun d b hb hm => ?_
  obtain hm | ⟨hm, -⟩ := mem_toLine_calls hm
  · cases hm
    exact absurd hb hl
  · exact hm

/-- A line of an attach that is making its handle, which is not ATTACHED yet: the other calls are where they were, on the same handle or
with a new one made (R220, R222). -/
theorem LifeInv.makingLine {s u : State} (h : LifeInv s) {c : Nat} {a b : AttachCall} {l : AttachLine}
    (hmem : { ctx := c, kind := .attach a } ∈ s.calls) (hm : a.line.makesHandle = true) (hlife : s.hdl.life ≠ .attached)
    (hcalls : u.calls = s.calls) (hid : (u.hdl.id = s.hdl.id ∧ s.hdl.life ≠ .tornDown) ∨ s.hdl.id < u.hdl.id) (hu : HandleOk u)
    (hnew : callOk u { ctx := c, kind := .attach { b with line := l } } = true) : LifeInv (Machine.toLine c b l u) := by
  have hnot := h.others_not_making hmem (isMaking_attach.trans hm)
  obtain ⟨-, -, -, hok⟩ := lifeInv_iff.mp h
  exact h.toLine hcalls hu hnew (fun k hk hkc => callOk_of_not_making (hnot k hk hkc) (hok k hk) hlife hid) fun _ => hnot

/-- The lines of A3 that fill in the DETACHED handle (R220). -/
def AttachLine.fillsHandle : AttachLine → Bool
  | .setArguments | .setDivisor | .emptyRing | .emptyContexts | .emptyLogs | .setAttaching => true
  | .testWindow | .testIrq | .makeHandle | .configure | .register | .setAttached | .giveHandle => false

/-- At a line of A3 that fills in the handle, the attach stands on the DETACHED handle it has made (R220). -/
theorem callOk_fills {s : State} {c : Nat} {a : AttachCall} (hl : a.line.fillsHandle = true) :
    callOk s { ctx := c, kind := .attach a } = true ↔ s.hdl.life = .detached ∧ a.made = s.hdl.id := by
  cases hline : a.line <;> simp_all [callOk, AttachLine.fillsHandle]

theorem makesHandle_of_fillsHandle {l : AttachLine} (h : l.fillsHandle = true) : l.makesHandle = true := by
  cases l <;> simp_all [AttachLine.fillsHandle, AttachLine.makesHandle]

/-- A DETACHED handle has no handler and no invocation in progress. -/
theorem HandleOk.detached {s : State} (h : HandleOk s) (hlife : s.hdl.life = .detached) :
    s.hdl.handlerRegistered = false ∧ s.irqPhase = .idle := by
  obtain ⟨-, -, hreg, hidle⟩ := h
  have hnot : handleLive s = false := by simp [handleLive, hlife]
  refine ⟨?_, hidle hnot⟩
  rw [← Bool.not_eq_true]
  exact fun hr => absurd (hreg hr).2 (by simp [hnot])

/-- A DETACHED handle with no handler and no invocation in progress is as it has to be. -/
theorem handleOk_of_detached {s : State} (hstep : s.hdl.cfgStep ≤ 9) (hlife : s.hdl.life = .detached)
    (hreg : s.hdl.handlerRegistered = false) (hidle : s.irqPhase = .idle) : HandleOk s :=
  ⟨hstep, by simp [hlife], by simp [hreg], fun _ => hidle⟩

/-- A line of A3 that goes on filling in the handle (R220). -/
theorem LifeInv.fillingLine {s u : State} (h : LifeInv s) {c : Nat} {a : AttachCall} {l : AttachLine}
    (hmem : { ctx := c, kind := .attach a } ∈ s.calls) (ha : a.line.fillsHandle = true) (hl : l.fillsHandle = true)
    (hcalls : u.calls = s.calls) (hid : u.hdl.id = s.hdl.id) (hlife : u.hdl.life = s.hdl.life) (hstep : u.hdl.cfgStep ≤ 9)
    (hreg : u.hdl.handlerRegistered = s.hdl.handlerRegistered) (hidle : s.irqPhase = .idle → u.irqPhase = .idle) :
    LifeInv (Machine.toLine c a l u) := by
  obtain ⟨hhandle, -, -, hok⟩ := lifeInv_iff.mp h
  obtain ⟨hdet, hmade⟩ := (callOk_fills ha).mp (hok _ hmem)
  obtain ⟨hr, hi⟩ := hhandle.detached hdet
  refine h.makingLine hmem (makesHandle_of_fillsHandle ha) (by simp [hdet]) hcalls (.inl ⟨hid, by simp [hdet]⟩) ?_ ?_
  · exact handleOk_of_detached hstep (hlife.trans hdet) (hreg.trans hr) (hidle hi)
  · exact (callOk_fills (a := { a with line := l }) hl).mpr ⟨hlife.trans hdet, hmade.trans hid.symm⟩

/-- A4: the next write, and A5 once the sequence is over (R220, R135). -/
theorem LifeInv.attachConfigure {s t : State} (h : LifeInv s) {c : Nat} {a : AttachCall}
    (hmem : { ctx := c, kind := .attach a } ∈ s.calls) (ha : a.line = .configure) (ht : attachConfigure c a s = .next t) : LifeInv t := by
  have toRegister {v : State} (hv : LifeInv v) (hmemv : { ctx := c, kind := .attach a } ∈ v.calls) (hd : configureDone v = true) :
      LifeInv (Machine.toLine c a .register v) := by
    obtain ⟨-, -, -, hok⟩ := lifeInv_iff.mp hv
    have hc := hok _ hmemv
    refine hv.nextLine nofun (by simp_all [callOk]) fun _ => ?_
    exact hv.others_not_making hmemv (isMaking_attach.trans (by rw [ha, AttachLine.makesHandle]))
  obtain ⟨hd, rfl⟩ | ⟨-, u, hu, rfl⟩ := attachConfigure_next ht
  · exact toRegister h hmem hd
  · have hlife := h.lineConfigureStep hu
    obtain ⟨_, _, _, _, rfl, -⟩ := lineConfigureStep_frame hu
    split
    · exact toRegister hlife hmem ‹_›
    · exact hlife

/-- A2: the attempt fails, or goes on with the window, and then, where the device has no handle, with the interrupt line (R220, R222). -/
theorem LifeInv.attachTest {s : State} (h : LifeInv s) (c : Nat) (a : AttachCall) :
    LifeInv (attachTestWindow c a s) ∧ LifeInv (attachTestIrq c a s) := by
  constructor
  · obtain ht | ⟨-, -, -, ht⟩ := attachTestWindow_cases c a s
    all_goals rw [ht]
    · exact h.endCall c
    · exact h.nextLine nofun rfl nofun
  · obtain ⟨_, ht⟩ | ⟨-, hfree, ht⟩ := attachTestIrq_cases c a s
    all_goals rw [ht]
    · exact h.endCall c
    · simp only [deviceOwned, Bool.or_eq_false_iff, List.any_eq_false, Bool.not_eq_true] at hfree
      exact h.nextLine nofun (by simp [callOk, hfree.1]) fun _ k hk _ => hfree.2 k hk

/-- A3's first line: the device has no live handle, so no invocation is in progress (R220, R222). -/
theorem LifeInv.attachMakeHandle {s : State} (h : LifeInv s) {c : Nat} {a : AttachCall}
    (hmem : { ctx := c, kind := .attach a } ∈ s.calls) (ha : a.line = .makeHandle) : LifeInv (attachMakeHandle c a s) := by
  obtain ⟨⟨-, -, -, hidle⟩, -⟩ := lifeInv_iff.mp h
  have hnot := h.not_live_of_fills hmem (.inl ha)
  refine h.makingLine hmem (by rw [ha, AttachLine.makesHandle]) (fun hl => ?_) rfl (.inr (Nat.lt_succ_self _)) ?_ ?_
  · simp [handleLive, hl] at hnot
  · exact handleOk_of_detached (Nat.zero_le _) rfl rfl (hidle hnot)
  · simp [callOk]

/-- A3's last line: the handle is ATTACHING (R220). -/
theorem LifeInv.attachSetAttaching {s : State} (h : LifeInv s) {c : Nat} {a : AttachCall}
    (hmem : { ctx := c, kind := .attach a } ∈ s.calls) (ha : a.line = .setAttaching) : LifeInv (attachSetAttaching c a s) := by
  obtain ⟨hhandle, -, -, hok⟩ := lifeInv_iff.mp h
  obtain ⟨hdet, hmade⟩ := (callOk_fills (by rw [ha, AttachLine.fillsHandle])).mp (hok _ hmem)
  obtain ⟨hreg, -⟩ := hhandle.detached hdet
  refine h.makingLine hmem (by rw [ha, AttachLine.makesHandle]) (by simp [hdet]) rfl (.inl ⟨rfl, by simp [hdet]⟩) ?_ ?_
  · exact ⟨hhandle.1, nofun, by simp [hreg], nofun⟩
  · simp [callOk, hmade]

/-- A5 and A6's first line: the handle is ATTACHING and configured; the handler is registered, then the handle is ATTACHED (R220). -/
theorem LifeInv.attachRegister {s : State} (h : LifeInv s) {c : Nat} {a : AttachCall}
    (hmem : { ctx := c, kind := .attach a } ∈ s.calls) :
    (a.line = .register → LifeInv (attachRegister c a s)) ∧ (a.line = .setAttached → LifeInv (attachSetAttached c a s)) := by
  obtain ⟨⟨hmax, -, hreg, -⟩, -, -, hok⟩ := lifeInv_iff.mp h
  have hc := hok _ hmem
  constructor
  all_goals
    intro ha
    simp only [callOk, ha, Bool.and_eq_true, beq_iff_eq] at hc
    obtain ⟨⟨hlife, hmade⟩, hdone⟩ := hc
    refine h.makingLine hmem (by rw [ha, AttachLine.makesHandle]) (by simp [hlife]) rfl (.inl ⟨rfl, by simp [hlife]⟩) ?_ ?_
  · exact ⟨hmax, fun _ => hdone, fun _ => ⟨hdone, by simp [handleLive, hlife]⟩, by simp [handleLive, hlife]⟩
  · simpa [callOk, configureDone, hlife, hmade] using hdone
  · exact ⟨hmax, fun _ => hdone, fun _ => ⟨hdone, rfl⟩, nofun⟩
  · simp [callOk, hmade]

/-- Every line of `attach` (R220). -/
theorem LifeInv.attachLine {s t : State} (h : LifeInv s) {c : Nat} {a : AttachCall}
    (hmem : { ctx := c, kind := .attach a } ∈ s.calls) (ht : resumeAttach c a s = .next t) : LifeInv t := by
  obtain ⟨⟨hmax, -⟩, -⟩ := lifeInv_iff.mp h
  cases hl : a.line <;> simp only [resumeAttach, hl, Host.Outcome.next.injEq] at ht
  case configure => exact h.attachConfigure hmem hl ht
  all_goals subst ht
  case testWindow => exact (h.attachTest c a).1
  case testIrq => exact (h.attachTest c a).2
  case makeHandle => exact h.attachMakeHandle hmem hl
  case setAttaching => exact h.attachSetAttaching hmem hl
  case register => exact (h.attachRegister hmem).1 hl
  case setAttached => exact (h.attachRegister hmem).2 hl
  case giveHandle => exact h.endCall c
  case emptyContexts => exact h.fillingLine hmem (by rw [hl]; rfl) rfl rfl rfl rfl (Nat.zero_le _) rfl fun _ => rfl
  all_goals exact h.fillingLine hmem (by rw [hl]; rfl) rfl rfl rfl rfl hmax rfl id

/-- T2 on the latest handle: its handler is unregistered, no invocation is in progress, and its attach is over and has returned it, so no
other call stands on it but a detach (R223). -/
theorem LifeInv.tearDown {s : State} (h : LifeInv s) {c : Nat} (hmem : { ctx := c, kind := .detach s.hdl.id } ∈ s.calls)
    (hidle : s.irqPhase = .idle) : LifeInv (tearDown s) := by
  obtain ⟨⟨hmax, -⟩, hn, hone, hok⟩ := lifeInv_iff.mp h
  obtain ⟨-, hdet⟩ := callOk_detach.mp (hok _ hmem)
  obtain ⟨hreg, hret, hlife⟩ := hdet rfl
  refine lifeInv_iff.mpr ⟨⟨hmax, nofun, fun hr => ?_, fun _ => hidle⟩, hn, hone, fun k hk => ?_⟩
  · exact absurd hr (by simp [hreg])
  obtain ⟨d, kind⟩ := k
  have hkok := hok _ hk
  cases kind
  case lineConfigure => rfl
  case detach on =>
    rw [callOk_detach] at hkok ⊢
    exact ⟨hkok.1, fun he => ⟨hreg, (hkok.2 he).2.1, .inr rfl⟩⟩
  case attach b =>
    cases hb : b.line
    case giveHandle =>
      have hmade : b.made = s.hdl.id := by simp_all [callOk]
      rw [(notYetReturned_iff (s := s)).mpr ⟨d, b, hk, hb, hmade⟩] at hret
      cases hret
    all_goals rcases hlife with hlife | hlife <;> simp_all [callOk, handleLive]

/-- The later step of a detach (R223). -/
theorem LifeInv.detachEnd {s : State} (h : LifeInv s) {c on : Nat} (hmem : { ctx := c, kind := .detach on } ∈ s.calls) :
    LifeInv (resumeDetach c on s) := by
  obtain ⟨-, ht⟩ | ⟨hidle, rfl, ht⟩ | ⟨-, -, ht⟩ := resumeDetach_cases c on s
  all_goals rw [ht]
  · exact h
  · exact (h.tearDown hmem hidle).endCall c
  · exact h.endCall c

/-- The handler is invoked only on a live handle (R250). -/
theorem handleLive_of_canInvoke {s : State} (h : canInvoke s = true) : handleLive s = true := by
  simp only [canInvoke, Bool.and_eq_true] at h
  exact h.1.2

/-- A step of the interrupt context, which has none without a live handle (R173, R250). -/
theorem LifeInv.handler {s t : State} (h : LifeInv s) (hcfg : t.cfg = s.cfg) (hhdl : t.hdl = s.hdl) (hcalls : t.calls = s.calls)
    (hidle : handleLive s = false → t.irqPhase = .idle) : LifeInv t := by
  obtain ⟨⟨hmax, hattached, hreg, -⟩, -⟩ := lifeInv_iff.mp h
  refine h.mono ?_ (hcalls ▸ .refl _) hcfg (by rw [hhdl]) (by rw [hhdl]) (by rw [hhdl]) (by rw [hhdl]; exact id)
  simpa only [HandleOk, configureDone, handleLive, hcfg, hhdl] using ⟨hmax, hattached, hreg, hidle⟩

/-- Every turn keeps the lifecycle's invariant: only the lifecycle's own steps and the interrupt context's touch what it speaks of. -/
theorem LifeInv.turn {s t : State} {e : Event} (h : LifeInv s) (ht : Turn s e t) : LifeInv t := by
  cases ht
  case registerRead hx =>
    obtain ⟨_, _, _, _, rfl⟩ := hostRead_frame hx
    exact h
  case registerWrite hx =>
    obtain ⟨_, _, _, rfl⟩ := hostWrite_frame hx
    exact h
  case attach hx =>
    obtain ⟨_, -, hb, ⟨-, rfl⟩ | ⟨-, -, rfl⟩⟩ := execAttach_next hx
    · exact h
    · exact h.addCall hb (fun _ ha => by cases ha; rfl) rfl
  case detach hx =>
    obtain ⟨_, -, hb, hu, -, -, rfl⟩ := execDetach_next hx
    exact h.detach hb hu
  case lineConfigure hx =>
    obtain ⟨_, _, -, hb, -, -, hu, rfl⟩ := execLineConfigure_next hx
    have hlife := h.lineConfigureStep hu
    obtain ⟨_, _, _, _, rfl, -⟩ := lineConfigureStep_frame hu
    exact hlife.addCall hb nofun rfl
  case transmitBytes hx =>
    obtain ⟨_, -, -, -, rfl⟩ := execTransmitBytes_next hx
    exact h
  case onReceiveInterrupt hx =>
    obtain ⟨-, -, hi, _, _, hr, rfl⟩ := execOnReceiveInterrupt_next hx
    obtain ⟨⟨_, _, _, rfl⟩, -⟩ := regRead_frame hr
    exact h.handler rfl rfl rfl fun hnot => absurd (handleLive_of_canInvoke hi) (by simp [hnot])
  case readOneByte hx =>
    obtain ⟨_, -, -, -, rfl⟩ := execReadOneByte_next hx
    exact h
  case cancel hx =>
    obtain ⟨-, rfl⟩ := execCancel_next hx
    exact h
  case readLossCounter hx =>
    obtain ⟨_, -, -, -, rfl⟩ := execReadLossCounter_next hx
    exact h
  case attachLine hf hx => exact h.attachLine (List.mem_of_find?_eq_some hf) hx
  case configureWrite c _ _ hx =>
    obtain rfl | ⟨_, hu, rfl | rfl⟩ := resumeLineConfigure_cases hx
    · exact h.endCall c
    · exact (h.lineConfigureStep hu).endCall c
    · exact h.lineConfigureStep hu
  case detachEnd hmem => exact h.detachEnd hmem
  case transmit hx =>
    obtain ⟨_, _, _, _, _, rfl⟩ := transmitStep_frame hx
    exact h
  case outsideEveryCall => exact h
  case dequeue c =>
    obtain ⟨_, _, _, _, _, ht⟩ := dequeueStep_frame c s
    exact ht ▸ h
  case interrupted c =>
    obtain ⟨_, _, _, _, _, ht⟩ := interruptedStep_frame c s
    exact ht ▸ h
  case lock c =>
    obtain ⟨_, _, _, _, _, ht⟩ := lockStep_frame c s
    exact ht ▸ h
  case takeLocked c =>
    obtain ⟨_, _, _, _, _, ht⟩ := takeLockedStep_frame c s
    exact ht ▸ h
  case irqEnter =>
    unfold irqEnterStep
    split
    · exact h.handler rfl rfl rfl fun hnot => absurd (handleLive_of_canInvoke ‹_›) (by simp [hnot])
    · exact h
  case irqStep hx =>
    obtain ⟨⟨_, _, _, _, _, rfl⟩, -, hidle⟩ := irqStep_frame hx
    obtain ⟨⟨-, -, -, hnone⟩, -⟩ := lifeInv_iff.mp h
    exact h.handler rfl rfl rfl fun hnot => hidle (hnone hnot)
  case lineTx =>
    obtain ht | ⟨_, -, -, ht⟩ := lineTxStep_cases s
    all_goals
      rw [ht]
      exact h
  case lineRx =>
    obtain ⟨_, _, _, ht⟩ := lineRxStep_frame s
    exact ht ▸ h
  case envAttach => exact h

/-- Settles O56: a step is a turn, and every turn keeps the lifecycle's invariant. -/
theorem everyStepKeepsTheLifecycle : Obligations.EveryStepKeepsTheLifecycle := by
  intro s t h hs
  obtain ⟨q, ht⟩ := step_turn hs
  exact LifeInv.turn (s := { s with sched := q }) h ht

end Sys2Proof.Machine
end

section
/-! PROOFS. State (10_state.md): the named bits of LINE_STATUS (R34, R35, R47, R85), and power-on (R52, R270). -/

namespace Sys2Proof.Machine

/-- Two one-bit masks that differ share no bit (R119). -/
theorem oneBit_disjoint {m n : Byte} (hm : Config.oneBit m = true) (hn : Config.oneBit n = true) (hne : m ≠ n) : m &&& n = 0 := by
  have hbits : ∀ i < 8, ∀ j < 8, 1#8 <<< i ≠ 1#8 <<< j → 1#8 <<< i &&& 1#8 <<< j = 0 := by decide
  obtain ⟨i, hi, rfl⟩ := Config.oneBit_cases hm
  obtain ⟨j, hj, rfl⟩ := Config.oneBit_cases hn
  exact hbits i hi j hj hne

/-- A mask of one bit has a bit (R119). -/
theorem oneBit_ne_zero {m : Byte} (hm : Config.oneBit m = true) : m ≠ 0 := by
  rintro rfl
  cases hm

/-- Disjoint masks stay disjoint in a 32-bit value (R10, R85). -/
theorem zext32_disjoint {m n : Byte} (h : m &&& n = 0) : zext32 m &&& zext32 n = 0 := by
  rw [zext32, zext32, ← BitVec.setWidth_and, h]
  rfl

/-- A mask with a bit keeps it in a 32-bit value (R10, R85). -/
theorem zext32_ne_zero {m : Byte} (h : m ≠ 0) : zext32 m ≠ 0 := fun hz =>
  h (by simpa [zext32] using congrArg (BitVec.setWidth 8) hz)

/-- A value whose bits under two disjoint masks are replaced by `x` and `y`, read back: each mask shows its own bits, and every other bit is
the value's (R112). -/
theorem masked_bits {a b x y : Word} (hab : a &&& b = 0) (hx : x &&& a = x) (hy : y &&& b = y) (u : Word) :
    ((u &&& ~~~ (a ||| b)) ||| x ||| y) &&& a = x ∧ ((u &&& ~~~ (a ||| b)) ||| x ||| y) &&& b = y ∧
    ((u &&& ~~~ (a ||| b)) ||| x ||| y) &&& ~~~ (a ||| b) = u &&& ~~~ (a ||| b) := by
  refine ⟨?_, ?_, ?_⟩
  all_goals
    ext i hi
    have habi : (a[i] && b[i]) = false := by simp [← BitVec.getElem_and, hab]
    have hxi : (x[i] && a[i]) = x[i] := by rw [← BitVec.getElem_and, hx]
    have hyi : (y[i] && b[i]) = y[i] := by rw [← BitVec.getElem_and, hy]
    simp only [BitVec.getElem_and, BitVec.getElem_or, BitVec.getElem_not]
    grind

/-- Settles O16: the two masks share no bit, so each shows its own flag alone. -/
theorem lineStatusShowsThreAndDataReady : Obligations.LineStatusShowsThreAndDataReady := by
  intro s u hwf
  obtain ⟨-, hthre, hdr, -, -, -, hne, -⟩ := Config.wf_masks hwf
  have hflag (p : Bool) (m : Word) : (if p then m else 0) &&& m = if p then m else 0 := by cases p <;> simp
  obtain ⟨h1, h2, h3⟩ := masked_bits (zext32_disjoint (oneBit_disjoint hthre hdr hne)) (hflag (thre s) _) (hflag (dataReady s) _) u
  refine ⟨?_, ?_, h3⟩
  · rw [transmitReady, threField, lineStatusValue, h1]
    simpa [thre] using fun _ => zext32_ne_zero (oneBit_ne_zero hthre)
  · rw [lineStatusValue, h2]
    simpa [dataReady] using fun _ => zext32_ne_zero (oneBit_ne_zero hdr)

/-- Settles O60: every value of the power-on state is written out, so each invariant is a finite check. -/
theorem powerOnMeetsEveryInvariant : Obligations.PowerOnMeetsEveryInvariant := by
  refine ⟨rfl, rfl, rfl, rfl, rfl, rfl, rfl, ?_, ?_, ?_, ?_, ?_, ?_, ?_⟩
  all_goals decide

end Sys2Proof.Machine
end

section
/-! PROOFS. Memory (20_memory.md): what one register transaction may change (R66, R100, R101). -/

namespace Sys2Proof.Machine

/-- A register read is a host's read transaction (R89). -/
theorem exec_registerRead {i : Instr} (h : isRegisterRead i = true) (s : State) : ∃ k, exec i s = hostRead k s :=
  match i, h with
  | .rdData, _ | .rdIer, _ | .rdFcr, _ | .rdLcr, _ | .rdDll, _ | .rdLsr, _ | .rdMdr, _ | .rdDlh, _ => ⟨_, rfl⟩

/-- A register operation that is no read is a host's write transaction (R89). -/
theorem exec_registerWrite {cfg : Config} {i : Instr} (hreg : (registerOf cfg i).isSome = true) (hwrite : isRegisterRead i = false)
    (s : State) : ∃ k v, exec i s = hostWrite k v s :=
  match i, hreg, hwrite with
  | .wrData _, _, _ | .wrIer _, _, _ | .wrFcr _, _, _ | .wrLcr _, _, _ => ⟨_, _, rfl⟩
  | .wrDll _, _, _ | .wrLsr _, _, _ | .wrMdr _, _, _ | .wrDlh _, _, _ => ⟨_, _, rfl⟩

/-- Settles O18: a read is logged and answered, and the register's own read changes nothing, or draws, or removes the oldest byte. -/
theorem readTransactionsFrame : Obligations.ReadTransactionsFrame := by
  intro s t i hi hx
  obtain ⟨k, hk⟩ := exec_registerRead hi s
  obtain ⟨c, v, u, -, -, -, hr, rfl⟩ := hostRead_next (hk ▸ hx)
  obtain rfl | rfl | ⟨hdata, b, _, hb, -, rfl⟩ := readRegister_next (regRead_next hr).2
  · exact ⟨rfl, ⟨k, rfl, fun _ => rfl⟩, ⟨c, v, rfl⟩, .inl rfl⟩
  · exact ⟨rfl, ⟨k, rfl, fun _ => rfl⟩, ⟨c, v, rfl⟩, .inl rfl⟩
  · exact ⟨rfl, ⟨k, rfl, absurd hdata⟩, ⟨c, v, rfl⟩, .inr ⟨b, hb⟩⟩

/-- `e` is `d` but for what a write of register `r` may store or clear; LINE_STATUS and a reserved offset have no write (R101). -/
def WritesOnly (r : Register) (d e : Device) : Prop :=
  match r with
  | .data => e = { d with thr := e.thr }
  | .intEnable => e = { d with ier := e.ier }
  | .fifoControl => e = { d with thr := e.thr, rxHw := e.rxHw }
  | .lineControl => e = { d with lcr := e.lcr }
  | .divisorLow => e = { d with dll := e.dll }
  | .divisorHigh => e = { d with dlh := e.dlh }
  | .modeSelect => e = { d with mdr := e.mdr }
  | .lineStatus | .reserved => False

/-- A write of a register that answers writes that register only (R101, R103 to R117). -/
theorem writeRegister_writesOnly {r : Register} {v : Word} {s t : State} (h : writeRegister r v s = .next t) :
    WritesOnly r s.dev t.dev := by
  cases r
  case data =>
    rw [writeRegister, writeData] at h
    split at h <;> cases h
    rfl
  case intEnable =>
    rw [writeRegister, writeIntEnable] at h
    split at h <;> cases h
    rfl
  case fifoControl =>
    rw [writeRegister, writeFifoControl] at h
    split at h <;> cases h
    rfl
  case lineControl =>
    rw [writeRegister, writeLineControl] at h
    split at h <;> cases h
    rfl
  case lineStatus => cases h
  case reserved => cases h
  all_goals
    cases h
    rfl

/-- Settles O19: a write is logged, and the register's own write changes the register reached. -/
theorem writeTransactionsFrame : Obligations.WriteTransactionsFrame := by
  intro s t i hreg hwrite hx
  obtain ⟨k, v, hk⟩ := exec_registerWrite hreg hwrite s
  obtain ⟨-, -, -, -, hw⟩ := hostWrite_next (hk ▸ hx)
  have hr := (regWrite_next hw).2
  obtain ⟨_, ht, -⟩ := writeRegister_next hr
  exact ⟨k, v, by rw [ht], (writeRegister_writesOnly hr :)⟩

end Sys2Proof.Machine
end

section
/-! PROOFS. Memory (20_memory.md): the total order of register transactions (R64, R51). -/

namespace Sys2Proof.Machine

/-- The transaction log is as it was, or has one entry more (R64). -/
abbrev LogsAtMostOne (s t : State) : Prop := t.obs.txnLog = s.obs.txnLog ∨ ∃ x, t.obs.txnLog = s.obs.txnLog ++ [x]

/-- A read transaction is logged once (R100). -/
theorem regRead_txnLog {h k : Nat} {s t : State} {v : Word} (hr : regRead h k s = .next (v, t)) :
    t.obs.txnLog = s.obs.txnLog ++ [.read k (select s.cfg k (dlab s))] := by
  obtain rfl | rfl | ⟨-, _, _, -, -, rfl⟩ := readRegister_next (regRead_next hr).2
  all_goals rfl

/-- A write transaction is logged once (R101). -/
theorem regWrite_txnLog {h k : Nat} {v : Word} {s t : State} (hw : regWrite h k v s = .next t) :
    t.obs.txnLog = s.obs.txnLog ++ [.write k (select s.cfg k (dlab s)) v] := by
  obtain ⟨_, rfl, -⟩ := writeRegister_next (regWrite_next hw).2
  rfl

/-- A step of line configuration is at most one write (R132). -/
theorem lineConfigureStep_logs {s t : State} (h : lineConfigureStep s = .next t) : LogsAtMostOne s t := by
  obtain ⟨_, _, _, -, hw, rfl⟩ | ⟨-, rfl⟩ := lineConfigureStep_next h
  · exact .inr ⟨_, (regWrite_txnLog hw :)⟩
  · exact .inl rfl

/-- A later step of LINE_CONFIGURE is at most one write (R132, log 19). -/
theorem resumeLineConfigure_logs {c h : Nat} {s t : State} (hx : resumeLineConfigure c h s = .next t) : LogsAtMostOne s t := by
  obtain rfl | ⟨_, hu, rfl | rfl⟩ := resumeLineConfigure_cases hx
  · exact .inl rfl
  · exact (lineConfigureStep_logs hu :)
  · exact (lineConfigureStep_logs hu :)

/-- A4's step is at most one write (R220). -/
theorem attachConfigure_logs {c : Nat} {a : AttachCall} {s t : State} (h : attachConfigure c a s = .next t) : LogsAtMostOne s t := by
  obtain ⟨-, rfl⟩ | ⟨-, u, hu, rfl⟩ := attachConfigure_next h
  · exact .inl rfl
  · split
    all_goals exact (lineConfigureStep_logs hu :)

/-- A step of a transmit call is at most one transaction: a poll's read or a put's write (R151). -/
theorem transmitStep_logs {w : PendingWrite} {s t : State} (h : transmitStep w s = .next t) : LogsAtMostOne s t := by
  obtain ⟨-, rfl⟩ | ⟨_, -, ⟨-, -, rfl⟩ | ⟨-, -, hp⟩ | ⟨-, hp⟩⟩ := transmitStep_next h
  · exact .inl rfl
  · exact .inl rfl
  · obtain ⟨_, _, hr, ⟨-, rfl⟩ | ⟨-, rfl⟩⟩ := pollStep_next hp
    all_goals exact .inr ⟨_, (regRead_txnLog hr :)⟩
  · obtain ⟨_, hw, rfl⟩ := putStep_next hp
    exact .inr ⟨_, (regWrite_txnLog hw :)⟩

/-- A step of the handler in progress is at most one transaction, E1's read (R173). -/
theorem irqStep_logs {s t : State} (h : irqStep s = .next t) : LogsAtMostOne s t := by
  obtain ⟨-, rfl⟩ | ⟨-, _, _, hr, rfl⟩ | ⟨b, -, rfl⟩ | ⟨_, -, rfl⟩ := irqStep_next h
  · exact .inl rfl
  · exact .inr ⟨_, (regRead_txnLog hr :)⟩
  · obtain ⟨-, hs⟩ | ⟨-, hs⟩ := handlerStore_cases (observedRead s) b s.drew
    all_goals exact .inl (hs ▸ rfl)
  · exact .inl rfl

/-- A line of `attach` is at most one transaction, or the line of A3 that empties the log (R220, log 15). -/
theorem resumeAttach_logs {c : Nat} {a : AttachCall} {s t : State} (h : resumeAttach c a s = .next t) :
    LogsAtMostOne s t ∨ (a.line = .emptyLogs ∧ t.obs.txnLog = []) := by
  cases hl : a.line <;> simp only [resumeAttach, hl, Host.Outcome.next.injEq] at h
  case emptyLogs => exact .inr ⟨rfl, h ▸ rfl⟩
  all_goals left
  case testWindow =>
    obtain ht | ⟨-, -, -, ht⟩ := attachTestWindow_cases c a s
    all_goals exact .inl (h ▸ ht ▸ rfl)
  case testIrq =>
    obtain ⟨_, ht⟩ | ⟨-, -, ht⟩ := attachTestIrq_cases c a s
    all_goals exact .inl (h ▸ ht ▸ rfl)
  case configure => exact attachConfigure_logs h
  all_goals exact .inl (h ▸ rfl)

/-- A turn is a line of `attach`, or logs at most one transaction (R64). -/
theorem Turn.logs {s t : State} {e : Event} (ht : Turn s e t) :
    (∃ c a, e = .resume c ∧ s.calls.find? (fun k => k.ctx == c) = some { ctx := c, kind := .attach a } ∧
      resumeAttach c a s = .next t) ∨ LogsAtMostOne s t := by
  cases ht
  case attachLine c a hf hx => exact .inl ⟨c, a, rfl, hf, hx⟩
  all_goals right
  case registerRead hx =>
    obtain ⟨_, _, _, -, -, -, hr, rfl⟩ := hostRead_next hx
    exact .inr ⟨_, (regRead_txnLog hr :)⟩
  case registerWrite hx =>
    obtain ⟨_, -, -, -, hw⟩ := hostWrite_next hx
    exact .inr ⟨_, (regWrite_txnLog hw :)⟩
  case attach hx =>
    obtain ⟨_, -, -, ⟨-, rfl⟩ | ⟨-, -, rfl⟩⟩ := execAttach_next hx
    all_goals exact .inl rfl
  case detach hx =>
    obtain ⟨_, -, -, -, -, -, rfl⟩ := execDetach_next hx
    exact .inl rfl
  case lineConfigure hx =>
    obtain ⟨_, _, -, -, -, -, hu, rfl⟩ := execLineConfigure_next hx
    exact (lineConfigureStep_logs hu :)
  case transmitBytes hx =>
    obtain ⟨_, -, -, -, rfl⟩ := execTransmitBytes_next hx
    exact .inl rfl
  case onReceiveInterrupt hx =>
    obtain ⟨-, -, -, _, _, hr, rfl⟩ := execOnReceiveInterrupt_next hx
    exact .inr ⟨_, (regRead_txnLog hr :)⟩
  case readOneByte hx =>
    obtain ⟨_, -, -, -, rfl⟩ := execReadOneByte_next hx
    exact .inl rfl
  case cancel hx =>
    obtain ⟨-, rfl⟩ := execCancel_next hx
    exact .inl rfl
  case readLossCounter hx =>
    obtain ⟨_, -, -, -, rfl⟩ := execReadLossCounter_next hx
    exact .inl rfl
  case configureWrite hx => exact resumeLineConfigure_logs hx
  case detachEnd c on _ =>
    obtain ⟨-, ht⟩ | ⟨-, -, ht⟩ | ⟨-, -, ht⟩ := resumeDetach_cases c on s
    all_goals
      rw [ht]
      exact .inl rfl
  case transmit hx => exact transmitStep_logs hx
  case outsideEveryCall => exact .inl rfl
  case dequeue c =>
    obtain ⟨_, _, _, _, _, ht⟩ := dequeueStep_frame c s
    exact .inl (ht ▸ rfl)
  case interrupted c =>
    obtain ⟨_, _, _, _, _, ht⟩ := interruptedStep_frame c s
    exact .inl (ht ▸ rfl)
  case lock c =>
    obtain ⟨_, _, _, _, _, ht⟩ := lockStep_frame c s
    exact .inl (ht ▸ rfl)
  case takeLocked c =>
    obtain ⟨_, _, _, _, _, ht⟩ := takeLockedStep_frame c s
    exact .inl (ht ▸ rfl)
  case irqEnter =>
    unfold irqEnterStep
    split
    all_goals exact .inl rfl
  case irqStep hx => exact irqStep_logs hx
  case lineTx =>
    obtain ht | ⟨_, -, -, ht⟩ := lineTxStep_cases s
    all_goals
      rw [ht]
      exact .inl rfl
  case lineRx =>
    obtain ⟨_, _, _, ht⟩ := lineRxStep_frame s
    exact .inl (ht ▸ rfl)
  case envAttach => exact .inl rfl

/-- Settles O20: a step is a turn, a turn outside `attach` logs at most one transaction, and of the lines of `attach` only the one that
starts the logs empties it. -/
theorem transactionsAreLoggedOneAtATime : Obligations.TransactionsAreLoggedOneAtATime := by
  intro s t hs
  obtain ⟨q, ht⟩ := step_turn hs
  rw [← or_assoc]
  obtain ⟨c, a, he, hf, hx⟩ | hlog := ht.logs
  · exact (resumeAttach_logs hx).imp_right fun ⟨hl, hempty⟩ => ⟨hl ▸ onAttachLine_of_find he hf, hempty⟩
  · exact .inl hlog

end Sys2Proof.Machine
end

section
/-! PROOFS. Encoding (30_encoding.md): which register an offset reaches (R86, R67). -/

namespace Sys2Proof

open Sys2Proof.Machine (Register Request)

/-- The offset parameter of a register of the map (R41). -/
def offsetOf (cfg : Config) : Register → Option Nat
  | .data => some cfg.kData
  | .intEnable => some cfg.kIer
  | .fifoControl => some cfg.kFcr
  | .lineControl => some cfg.kLcr
  | .divisorLow => some cfg.kDll
  | .divisorHigh => some cfg.kDlh
  | .lineStatus => some cfg.kLsr
  | .modeSelect => some cfg.kMdr
  | .reserved => none

/-- Every register of the map has its offset among the eight (R41). -/
theorem offsetOf_mem {cfg : Config} {r : Register} {k : Nat} (h : offsetOf cfg r = some k) : k ∈ cfg.offsets := by
  cases r <;> cases h
  all_goals simp [Config.offsets]

/-- An offset that selects a register is that register's offset parameter, whatever the latch bit (R86). -/
theorem offsetOf_select (cfg : Config) (k : Nat) (latch : Bool) :
    select cfg k latch = .reserved ∨ offsetOf cfg (select cfg k latch) = some k := by
  unfold select
  repeat' split
  all_goals simp_all [offsetOf]

/-- DATA and INT_ENABLE are reached with the latch clear only (R86, R67). -/
theorem select_needs_clear {cfg : Config} {k : Nat} {latch : Bool}
    (h : select cfg k latch = .data ∨ select cfg k latch = .intEnable) : latch = false := by
  revert h
  unfold select
  repeat' split
  all_goals simp_all

/-- Settles O5: DATA and INT_ENABLE need the latch clear and the divisor registers need it set; under a legal setting each register is
reached where its turn in `select` comes; and what is selected is selected at its own offset. -/
theorem theLatchDecidesWhatAnOffsetReaches : Obligations.TheLatchDecidesWhatAnOffsetReaches := by
  intro cfg hwf
  obtain ⟨hdata, hier, -, hlcr, -⟩ := select_clear hwf
  obtain ⟨hdll, hdlh, hlcr'⟩ := select_set hwf
  refine ⟨fun k => ⟨?_, ?_, ?_, ?_⟩, hdll, hdlh, hdata, hier, ?_, ?_⟩
  · exact fun h => Bool.noConfusion (select_needs_clear (.inl h))
  · exact fun h => Bool.noConfusion (select_needs_clear (.inr h))
  · exact fun h => Bool.noConfusion ((select_divisor cfg k false).1.mp h).1
  · exact fun h => Bool.noConfusion ((select_divisor cfg k false).2.mp h).1
  · rintro (_ | _)
    · exact hlcr
    · exact hlcr'
  · exact fun k latch hk => (offsetOf_select cfg k latch).resolve_right fun h => hk (offsetOf_mem h)

end Sys2Proof
end

section
/-! PROOFS. Encoding (30_encoding.md): decoding and encoding undo each other (R81, R82, R87, R88). -/

namespace Sys2Proof

open Sys2Proof.Machine

/-! ## Register requests -/

/-- The transaction that a direction, a `wdata` and a selected register make (R87). -/
def transaction (w : Bool) (v : Word) (r : Register) : Option Instr := if w then writeInstr v r else readInstr r

/-- The `wdata` that an operation's encoding carries: its operand for a register write, zero for a read (R81). -/
def wdataOf : Instr → Word
  | .wrData v | .wrIer v | .wrFcr v | .wrLcr v | .wrDll v | .wrLsr v | .wrMdr v | .wrDlh v => v
  | _ => 0

/-- No transaction is on an offset that selects nothing (R88 (a)). -/
theorem transaction_reserved (w : Bool) (v : Word) : transaction w v .reserved = none := by
  cases w <;> rfl

/-- A register request of five bytes is the transaction its fields make, or is reserved (R81, R88 (a)). -/
theorem decodeReg_five (cfg : Config) (latch : Bool) (wk d3 d2 d1 d0 : Byte) :
    decodeReg cfg latch [wk, d3, d2, d1, d0] =
      (transaction (requestIsWrite wk) (requestData d3 d2 d1 d0) (select cfg (requestOffset wk) latch)).elim
        (.error .reservedOffset) .ok := by
  simp only [decodeReg, transaction]
  split
  all_goals simp [*]

/-- A register request of any other length is rejected as such (R62). -/
theorem decodeReg_badLength {bytes : List Byte} (h : bytes.length ≠ 5) (cfg : Config) (latch : Bool) :
    decodeReg cfg latch bytes = .error .badLength := by
  unfold decodeReg
  split
  · exact absurd rfl h
  · rfl

/-- What decodes on the register interface is five bytes and the transaction their fields make (R81). -/
theorem decodeReg_eq_ok {cfg : Config} {latch : Bool} {bytes : List Byte} {i : Instr} (h : decodeReg cfg latch bytes = .ok i) :
    ∃ wk d3 d2 d1 d0, bytes = [wk, d3, d2, d1, d0] ∧
      transaction (requestIsWrite wk) (requestData d3 d2 d1 d0) (select cfg (requestOffset wk) latch) = some i := by
  unfold decodeReg at h
  split at h
  · dsimp only at h
    split at h
    next htrans =>
      cases h
      exact ⟨_, _, _, _, _, rfl, htrans⟩
    · cases h
  · cases h

/-- An encoded register request decodes to the transaction of its direction, `wdata` and offset (R81). -/
theorem decodeRequest_regRequest (cfg : Config) (latch w : Bool) {k : Nat} (hk : k < 128) (v : Word) :
    decodeRequest cfg latch (regRequest w k v) = (transaction w v (select cfg k latch)).elim (.error .reservedOffset) .ok := by
  obtain ⟨hw, ho⟩ := request_fields w hk
  rw [regRequest, decodeRequest, decodeReg_five, hw, ho, request_data]

/-- The first byte of a request is its direction bit and its offset (R81). -/
theorem ofBool_append_requestOffset (wk : Byte) : BitVec.ofBool (requestIsWrite wk) ++ BitVec.ofNat 7 (requestOffset wk) = wk := by
  revert wk
  decide

/-- The last four bytes of a request are its `wdata`, from bit 31 down (R81). -/
theorem extract_requestData (d3 d2 d1 d0 : Byte) :
    (requestData d3 d2 d1 d0).extractLsb' 24 8 = d3 ∧ (requestData d3 d2 d1 d0).extractLsb' 16 8 = d2 ∧
    (requestData d3 d2 d1 d0).extractLsb' 8 8 = d1 ∧ (requestData d3 d2 d1 d0).extractLsb' 0 8 = d0 := by
  refine ⟨?_, ?_, ?_, BitVec.extractLsb'_append_eq_right⟩
  · exact (BitVec.extractLsb'_append_eq_of_le (by decide)).trans
      ((BitVec.extractLsb'_append_eq_of_le (by decide)).trans BitVec.extractLsb'_append_eq_left)
  · exact (BitVec.extractLsb'_append_eq_of_le (by decide)).trans
      ((BitVec.extractLsb'_append_eq_of_le (by decide)).trans BitVec.extractLsb'_append_eq_right)
  · exact (BitVec.extractLsb'_append_eq_of_le (by decide)).trans BitVec.extractLsb'_append_eq_right

/-- A request's five bytes are the encoding of its fields (R81). -/
theorem regRequest_fields (wk d3 d2 d1 d0 : Byte) :
    regRequest (requestIsWrite wk) (requestOffset wk) (requestData d3 d2 d1 d0) = .reg [wk, d3, d2, d1, d0] := by
  obtain ⟨h3, h2, h1, h0⟩ := extract_requestData d3 d2 d1 d0
  rw [regRequest, ofBool_append_requestOffset, h3, h2, h1, h0]

/-- An operation on a register is encoded as a request at that register's offset, and is the transaction of that request's direction and
`wdata` there (R87, R89). -/
theorem encode_register {cfg : Config} {i : Instr} {r : Register} {k : Nat} (h : registerOf cfg i = some (r, k)) :
    encode cfg i = regRequest (!isRegisterRead i) k (wdataOf i) ∧ transaction (!isRegisterRead i) (wdataOf i) r = some i ∧
    offsetOf cfg r = some k := by
  cases i <;> cases h
  all_goals exact ⟨rfl, rfl, rfl⟩

/-- A register read reaches a register (R87). -/
theorem isRegisterRead_of_no_register {cfg : Config} {i : Instr} (h : registerOf cfg i = none) : isRegisterRead i = false := by
  cases i <;> cases h
  all_goals rfl

/-- What a transaction is: an operation of its direction on its register, with its `wdata` where it writes (R87, R88 (e)). -/
theorem transaction_eq_some {w : Bool} {v : Word} {r : Register} {i : Instr} (h : transaction w v r = some i) (cfg : Config) :
    isRegisterRead i = !w ∧ wdataOf i = (if w then v else 0) ∧ ∃ k, registerOf cfg i = some (r, k) := by
  cases w
  all_goals
    cases r <;> cases h
    all_goals exact ⟨rfl, rfl, _, rfl⟩

/-- An operation on a register is reachable where its offset selects that register (R87). -/
theorem reachable_iff {cfg : Config} {latch : Bool} {i : Instr} {r : Register} {k : Nat} (h : registerOf cfg i = some (r, k)) :
    reachable cfg latch i = true ↔ select cfg k latch = r := by
  rw [reachable, h, decide_eq_true_iff]

/-- A transaction at the register an offset selects is reachable, and is encoded at that very offset (R86, R87). -/
theorem transaction_select {cfg : Config} {latch w : Bool} {k : Nat} {v : Word} {i : Instr}
    (h : transaction w v (select cfg k latch) = some i) :
    reachable cfg latch i = true ∧ isRegisterRead i = !w ∧ encode cfg i = regRequest w k (if w then v else 0) := by
  obtain ⟨hread, hwdata, k', hreg⟩ := transaction_eq_some h cfg
  obtain ⟨hencode, -, hoff⟩ := encode_register hreg
  have hk : k' = k := by
    obtain hres | hsel := offsetOf_select cfg k latch
    · rw [hres] at hoff
      cases hoff
    · exact Option.some.inj (hoff.symm.trans hsel)
  subst hk
  exact ⟨(reachable_iff hreg).mpr rfl, hread, by rw [hencode, hread, hwdata, Bool.not_not]⟩

/-! ## Operation requests -/

/-- A transmit buffer is the bytes whose values its operands are (R82, R150). -/
theorem decodeBuffer_eq_some {len : Nat} {operands : List Nat} {buf : List Byte} :
    decodeBuffer len operands = some buf ↔ buf.length = len ∧ buf.map BitVec.toNat = operands := by
  unfold decodeBuffer
  constructor
  · intro h
    split at h
    next hok =>
      obtain ⟨rfl, hbytes⟩ := hok
      cases h
      have hback : ∀ n ∈ operands, (BitVec.ofNat 8 n).toNat = n := fun n hn =>
        Nat.mod_eq_of_lt (of_decide_eq_true (List.all_eq_true.mp hbytes n hn))
      refine ⟨List.length_map _, ?_⟩
      rw [List.map_map]
      exact (List.map_congr_left hback).trans (List.map_id _)
    · cases h
  · rintro ⟨rfl, rfl⟩
    have hbytes : (buf.map BitVec.toNat).all (fun n => decide (n < 256)) = true := by
      simpa using fun b _ => b.isLt
    have hback : (BitVec.ofNat 8 ∘ BitVec.toNat : Byte → Byte) = id := by
      ext1 b
      simp
    rw [if_pos ⟨List.length_map _, hbytes⟩, List.map_map, hback, List.map_id]

/-- A block-level operation decodes from its own encoding (R82). -/
theorem decode_encode_operation {cfg : Config} {latch : Bool} {i : Instr} (h : registerOf cfg i = none) :
    decodeRequest cfg latch (encode cfg i) = .ok i := by
  cases i
  case transmitBytes h buf =>
    have hbuf : decodeBuffer buf.length (buf.map BitVec.toNat) = some buf := decodeBuffer_eq_some.mpr ⟨rfl, rfl⟩
    simp [encode, decodeRequest, decodeOp, hbuf]
  case attach | detach | lineConfigure | onReceiveInterrupt | readOneByte | cancel | readLossCounter => rfl
  all_goals cases h

/-- What an operation request decodes to has that request as its encoding (R82). -/
theorem encode_of_decodeOp {code : BitVec 4} {operands : List Nat} {i : Instr} (cfg : Config) (h : decodeOp code operands = .ok i) :
    encode cfg i = .op code operands := by
  have hcode : code = BitVec.ofNat 4 code.toNat := by simp
  unfold decodeOp at h
  rw [hcode]
  generalize code.toNat = n at h ⊢
  split at h
  case h_4 => -- TRANSMIT_BYTES, whose operands hold a buffer
    split at h
    · split at h
      next hbuf =>
        obtain ⟨rfl, rfl⟩ := decodeBuffer_eq_some.mp hbuf
        cases h
        rfl
      · cases h
    · cases h
  case h_9 => cases h -- a reserved code
  all_goals
    split at h <;> cases h
    rfl

/-- An operation code from 1000 up is rejected as reserved (R88 (c)). -/
theorem decodeOp_reserved {code : BitVec 4} (h : 8 ≤ code.toNat) (operands : List Nat) :
    decodeOp code operands = .error .reservedOpCode := by
  obtain ⟨n, hn⟩ := Nat.exists_eq_add_of_le' h
  unfold decodeOp
  rw [hn]
  rfl

/-! ## Both directions -/

/-- Settles O2: a register operation's request decodes to the transaction at the register its offset selects, which is its own where it is
reachable; a block-level operation's request has its code and its operands. -/
theorem encodeThenDecodeGivesTheOperation : Obligations.EncodeThenDecodeGivesTheOperation := by
  intro cfg latch i hwf hreach
  cases hreg : registerOf cfg i with
  | none => exact decode_encode_operation hreg
  | some p =>
    obtain ⟨r, k⟩ := p
    obtain ⟨hencode, htrans, hoff⟩ := encode_register hreg
    obtain ⟨-, -, -, -, hrange⟩ := Config.wf_offsets hwf
    rw [hencode, decodeRequest_regRequest _ _ _ (hrange k (offsetOf_mem hoff)), (reachable_iff hreg).mp hreach, htrans, Option.elim_some]

/-- What decodes is reachable: a transaction at the register its request selected, or an operation that needs no register (R87). -/
theorem reachable_of_decodeRequest {cfg : Config} {latch : Bool} {r : Request} {i : Instr}
    (h : decodeRequest cfg latch r = .ok i) : reachable cfg latch i = true := by
  cases r with
  | reg bytes =>
    obtain ⟨_, _, _, _, _, -, htrans⟩ := decodeReg_eq_ok h
    exact (transaction_select htrans).1
  | op code operands => rw [reachable, decodeOp_registerOf cfg h]

/-- Settles O3: what a register request decodes to is encoded at the request's own offset, so its encoding differs from the request at
most in a read's `wdata`; what an operation request decodes to has its code and operands as encoding. -/
theorem decodeThenEncodeGivesTheRequest : Obligations.DecodeThenEncodeGivesTheRequest := by
  intro cfg latch r i hwf hdecode
  have hreach := reachable_of_decodeRequest hdecode
  refine ⟨hreach, encodeThenDecodeGivesTheOperation cfg latch i hwf hreach, ?_⟩
  cases r with
  | reg bytes =>
    obtain ⟨wk, d3, d2, d1, d0, rfl, htrans⟩ := decodeReg_eq_ok hdecode
    obtain ⟨-, hread, hencode⟩ := transaction_select htrans
    refine ⟨fun h => ?_, fun h => ⟨wk, d3, d2, d1, d0, rfl, ?_, ?_⟩⟩
    · have hw : requestIsWrite wk = true := by simpa [h] using hread
      rw [hencode, if_pos hw, regRequest_fields]
    · simpa [h] using hread
    · have hw : requestIsWrite wk = false := by simpa [h] using hread
      have hzero : requestData 0 0 0 0 = 0 := rfl
      rw [hencode, if_neg (by simp [hw]), ← hzero, regRequest_fields]
  | op code operands =>
    have hread := isRegisterRead_of_no_register (decodeOp_registerOf cfg hdecode)
    exact ⟨fun _ => encode_of_decodeOp cfg hdecode, by simp [hread]⟩

/-- A request that decoding rejects is refused under the rejection's name (R88). -/
theorem fetch_eq_refused {r : Request} {s : State} {e : DecodeReject} (h : decodeRequest s.cfg (dlab s) r = .error e) :
    fetch r s = .refused (rejectionOf e) := by
  rw [fetch, h]

/-- Settles O4: a wrong length, a reserved offset and a reserved code are each rejected by their own branch of the decoder, and a rejected
request is refused where it is fetched. -/
theorem reservedEncodingsAreRefused : Obligations.ReservedEncodingsAreRefused := by
  refine ⟨fun cfg latch bytes hlen => decodeReg_badLength hlen cfg latch, ?_,
    fun cfg latch code operands hcode => decodeOp_reserved hcode operands, ?_⟩
  · intro cfg latch wk d3 d2 d1 d0 hres
    rw [decodeRequest, decodeReg_five, hres, transaction_reserved, Option.elim_none]
  · intro s a on r rest e hinputs hdecode
    rw [step_request hinputs, fetch_eq_refused hdecode, andThen_refused]

/-- Settles O1: each word and each request is evaluated. -/
theorem tableWordsDecode : Obligations.TableWordsDecode := by
  unfold Obligations.TableWordsDecode
  decide

end Sys2Proof
end

section
/-! PROOFS. Register access (40_register_access.md): the generic transactions behind the register requests (R89, R100, R101). -/

namespace Sys2Proof.Machine

/-- An operation on a register is the generic transaction at that register's offset, with its own `wdata` where it writes (R89). -/
theorem exec_register {s : State} {i : Instr} {r : Register} {k : Nat} (h : registerOf s.cfg i = some (r, k)) :
    exec i s = if isRegisterRead i then hostRead k s else hostWrite k (wdataOf i) s := by
  cases i <;> cases h
  all_goals rfl

/-- A transaction at the register an offset selects is an operation on that register at that very offset (R86, R87). -/
theorem registerOf_transaction_select {cfg : Config} {latch w : Bool} {k : Nat} {v : Word} {i : Instr}
    (h : transaction w v (select cfg k latch) = some i) : registerOf cfg i = some (select cfg k latch, k) := by
  obtain ⟨-, -, k', hreg⟩ := transaction_eq_some h cfg
  obtain ⟨-, -, hoff⟩ := encode_register hreg
  obtain hres | hsel := offsetOf_select cfg k latch
  · rw [hres, transaction_reserved] at h
    cases h
  · rw [hreg, Option.some.inj (hoff.symm.trans hsel)]

/-- Settles O7: the decoded operation is on the register the request's offset selects, at that offset, and has the request's direction and
`wdata`; so its meaning is the generic transaction with these. -/
theorem registerRequestsAreTheGenericTransactions : Obligations.RegisterRequestsAreTheGenericTransactions := by
  intro s wk d3 d2 d1 d0 i _ hdecode
  obtain ⟨_, _, _, _, _, hbytes, htrans⟩ := decodeReg_eq_ok hdecode
  cases hbytes
  obtain ⟨hread, hwdata, -⟩ := transaction_eq_some htrans s.cfg
  rw [exec_register (registerOf_transaction_select htrans), hread, hwdata]
  cases requestIsWrite wk <;> rfl

end Sys2Proof.Machine
end

section
/-! PROOFS. Register access (40_register_access.md): what each register's read answers and each register's write does (R102 to R117). -/

namespace Sys2Proof.Machine

/-! ## A host's transaction at a register -/

section
variable {s : State} {c k : Nat} {r : Register}

/-- Where a register request is admitted, what the selected register's own read yields is answered (R100). -/
theorem hostRead_ready {v : Word} {t : State} (hready : HostReady s c) (hsel : select s.cfg k (dlab s) = r)
    (hread : readRegister r (s.logTxn (.read k r)) = .next (v, t)) : hostRead k s = .next (t.reply (.host c) (.rdata v)) := by
  obtain ⟨⟨hagent, hfree⟩, husable⟩ := hready
  rw [hostRead_usable hagent hfree husable, hsel, hread, andThen_next]

/-- Where a register request is admitted, the outcome of the selected register's own write is the outcome (R101). -/
theorem hostWrite_ready {v : Word} {o : Result} (hready : HostReady s c) (hsel : select s.cfg k (dlab s) = r)
    (hwrite : writeRegister r v (s.logTxn (.write k r v)) = o) : hostWrite k v s = o := by
  obtain ⟨⟨hagent, hfree⟩, husable⟩ := hready
  rw [hostWrite_usable hagent hfree husable, hsel, hwrite]

end

/-- With the latch set DIVISOR_LOW is reached at its offset, whatever register shares it (R86). -/
theorem select_divisorLow {s : State} {k : Nat} (hlatch : dlab s = true) (hk : k = s.cfg.kDll) :
    select s.cfg k (dlab s) = .divisorLow := (select_divisor _ _ _).1.mpr ⟨hlatch, hk⟩

/-- With the latch set DIVISOR_HIGH is reached at its offset where that is not DIVISOR_LOW's, whatever register shares it (R86). -/
theorem select_divisorHigh {s : State} {k : Nat} (hlatch : dlab s = true) (hne : s.cfg.kDll ≠ s.cfg.kDlh) (hk : k = s.cfg.kDlh) :
    select s.cfg k (dlab s) = .divisorHigh := (select_divisor _ _ _).2.mpr ⟨hlatch, hk ▸ hne.symm, hk⟩

/-! ## The data register, the receive enable and the flags -/

section
variable {s : State} {v : Word}

/-- A read of DATA takes the oldest received byte (R102). -/
theorem readData_of_cons {b : Byte} {rest : List Byte} (h : s.dev.rxHw = b :: rest) :
    readData s = .next (zext32 b, { s with dev := { s.dev with rxHw := rest } }) := by
  rw [readData, h]

/-- A read of DATA with nothing received draws a free value (R102, D13). -/
theorem readData_of_nil (h : s.dev.rxHw = []) : readData s = .next (Config.any32 s.sched.draws, s.drew) := by
  rw [readData, h, drawWord]

/-- A write of DATA loads an empty holding register (R103). -/
theorem writeData_of_empty (h : s.dev.thr = none) :
    writeData v s = .next { s with dev := { s.dev with thr := some (low8 v) } } := by
  rw [writeData, h]

/-- A write of DATA overruns an occupied holding register (R103, D12). -/
theorem writeData_of_occupied (h : s.dev.thr ≠ none) : writeData v s = .fault .txOverrun := by
  obtain ⟨b, hb⟩ := Option.ne_none_iff_exists'.mp h
  rw [writeData, hb]

/-- A write of INT_ENABLE with no bit but the receive enable is stored (R105). -/
theorem writeIntEnable_of_named (h : low8 v &&& ~~~ s.cfg.ierRdi = 0) :
    writeIntEnable v s = .next { s with dev := { s.dev with ier := low8 v } } := if_neg (not_not.mpr h)

/-- A write of INT_ENABLE with any other bit is refused (R105, D41). -/
theorem writeIntEnable_of_unnamed (h : low8 v &&& ~~~ s.cfg.ierRdi ≠ 0) : writeIntEnable v s = .refused .unnamedEnableBit :=
  if_pos h

/-- A write of FIFO_CONTROL with no unnamed bit empties the queues whose clear bits it has (R107). -/
theorem writeFifoControl_of_named (h : low8 v &&& ~~~ (s.cfg.fcrClearRcvr ||| s.cfg.fcrClearXmit) = 0) :
    writeFifoControl v s = .next { s with dev := { s.dev with
      rxHw := if low8 v &&& s.cfg.fcrClearRcvr = 0 then s.dev.rxHw else []
      thr := if low8 v &&& s.cfg.fcrClearXmit = 0 then s.dev.thr else none } } := by
  simp only [writeFifoControl, h, ne_eq, not_true_eq_false, if_false, ite_not]

/-- Data-ready falls exactly where nothing received waits (R35). -/
theorem dataReady_eq_false_iff : dataReady s = false ↔ s.dev.rxHw = [] := by
  simp [dataReady]

/-- With nothing received there is neither data-ready nor a receive request (R35, R39). -/
theorem flags_of_nil (h : s.dev.rxHw = []) : dataReady s = false ∧ irqLevel s = false := by
  simp [irqLevel, dataReady, h]

/-- With a byte received the receive request is the receive enable (R39). -/
theorem irqLevel_of_ne_nil (h : s.dev.rxHw ≠ []) : irqLevel s = ((s.dev.ier &&& s.cfg.ierRdi) != 0) := by
  simp [irqLevel, dataReady, h]

/-- The line counts as configured only under the 8-data-bits value (R138). -/
theorem lineConfigured_eq_false (h : s.dev.lcr ≠ s.cfg.lcrWlen8) : lineConfigured s = false := by
  simp [lineConfigured, h]

/-- In a mode other than the normal one the transmitter has no step (R156, D16, log 7). -/
theorem lineTxStep_of_not_normal (h : s.dev.mdr ≠ s.cfg.mdrNormal) : lineTxStep s = s := by
  unfold lineTxStep
  split
  · rw [if_neg h]
  · rfl

end

/-! ## The register operations -/

/-- Settles O8: DATA's own read with a byte waiting and with none, and DIVISOR_LOW's where the latch gives it the offset. -/
theorem readDataTakesTheOldestByte : Obligations.ReadDataTakesTheOldestByte := by
  intro s c hready
  refine ⟨fun b rest hsel hrx => ?_, fun hsel hrx => ?_, fun hlatch hk => ?_⟩
  · have hbefore : s.dev.rxHw ≠ [] := by simp [hrx]
    refine ⟨_, hostRead_ready hready hsel (readData_of_cons hrx), rfl, dataReady_eq_false_iff, fun hlast => ?_, fun hmore => ?_⟩
    · exact (flags_of_nil hlast).2
    · rw [irqLevel_of_ne_nil hbefore]
      exact irqLevel_of_ne_nil hmore
  · exact hostRead_ready hready hsel (readData_of_nil hrx)
  · exact hostRead_ready hready (select_divisorLow hlatch hk) rfl

/-- Settles O9: DATA's own write on an empty and on an occupied holding register, and DIVISOR_LOW's where the latch gives it the offset. -/
theorem writeDataLoadsTheHoldingRegister : Obligations.WriteDataLoadsTheHoldingRegister := by
  intro s c v hready
  refine ⟨fun hsel hthr => ?_, fun b hsel hthr => ?_, fun hlatch hk => ?_⟩
  · exact ⟨_, hostWrite_ready hready hsel (writeData_of_empty hthr), rfl, rfl⟩
  · exact hostWrite_ready hready hsel (writeData_of_occupied (by simp [hthr]))
  · exact hostWrite_ready hready (select_divisorLow hlatch hk) rfl

/-- Settles O10: each of the five registers' own reads yields the stored byte and the state as it is. -/
theorem storedRegistersReadBack : Obligations.StoredRegistersReadBack := by
  intro s c hready
  refine ⟨?_, ?_, ?_, ?_, ?_⟩
  all_goals exact fun hsel => hostRead_ready hready hsel rfl

/-- Settles O11: INT_ENABLE's own write with and without another bit, and DIVISOR_HIGH's where the latch gives it the offset; the request
line is a function of the stored byte. -/
theorem writeIntEnable_stores_receiveEnable : Obligations.WriteIntEnable := by
  intro s c v hready
  refine ⟨fun hsel hnamed => ?_, fun hsel hunnamed => ?_, fun hlatch hne hk => ?_⟩
  · exact ⟨_, hostWrite_ready hready hsel (writeIntEnable_of_named hnamed), rfl, rfl⟩
  · exact hostWrite_ready hready hsel (writeIntEnable_of_unnamed hunnamed)
  · exact hostWrite_ready hready (select_divisorHigh hlatch hne hk) rfl

/-- Settles O12: FIFO_CONTROL's own write with and without an unnamed bit; data-ready, the request line and THRE follow the queues. -/
theorem writeFifoControlClears : Obligations.WriteFifoControlClears := by
  intro s c v hready hsel
  refine ⟨fun hnamed => ?_, fun hunnamed => ?_⟩
  · refine ⟨_, hostWrite_ready hready hsel (writeFifoControl_of_named hnamed), rfl, fun hrcvr => ?_, fun hxmit => ?_⟩
    · exact flags_of_nil (if_neg hrcvr)
    · exact Option.isNone_iff_eq_none.mpr (if_neg hxmit)
  · exact hostWrite_ready hready hsel (if_pos hunnamed)

/-- Settles O13: LINE_CONTROL is reached whatever the latch is, and its own write stores the three described values only. -/
theorem writeLineControl_stores_describedValues : Obligations.WriteLineControl := by
  intro s c v hwf hready
  obtain ⟨-, -, -, -, -, hlcr, -⟩ := theLatchDecidesWhatAnOffsetReaches s.cfg hwf
  refine ⟨fun hdescribed => ?_, fun hother => ?_⟩
  · exact ⟨_, hostWrite_ready hready (hlcr _) (if_pos hdescribed), rfl, rfl, fun hne => lineConfigured_eq_false hne⟩
  · exact hostWrite_ready hready (hlcr _) (if_neg hother)

/-- Settles O14: the three stores are the registers' own writes; with the latch clear the divisor registers are not selected, and an equal
offset makes the same generic transaction, so the writes of DATA and of INT_ENABLE decide. -/
theorem writeDivisorAndMode : Obligations.WriteDivisorAndMode := by
  intro s c v hready
  have hdivisor := select_divisor s.cfg
  refine ⟨fun hsel => ?_, fun hsel => ?_, fun hsel => ?_, fun hclear => ⟨fun h => ?_, fun h => ?_⟩, fun _ hk => ⟨?_, fun hsel => ⟨?_, ?_⟩⟩,
    fun _ hk => ⟨?_, fun hsel => ⟨?_, ?_⟩⟩⟩
  · exact hostWrite_ready hready hsel rfl
  · exact hostWrite_ready hready hsel rfl
  · exact ⟨_, hostWrite_ready hready hsel rfl, rfl, fun hne => lineTxStep_of_not_normal hne⟩
  · exact absurd ((hdivisor _ _).1.mp h).1 (by simp [hclear])
  · exact absurd ((hdivisor _ _).2.mp h).1 (by simp [hclear])
  · exact congrArg (hostWrite · v s) hk
  · exact fun hempty => hostWrite_ready hready hsel (writeData_of_empty hempty)
  · exact fun hoccupied => hostWrite_ready hready hsel (writeData_of_occupied hoccupied)
  · exact congrArg (hostWrite · v s) hk
  · exact fun hnamed => hostWrite_ready hready hsel (writeIntEnable_of_named hnamed)
  · exact fun hunnamed => hostWrite_ready hready hsel (writeIntEnable_of_unnamed hunnamed)

/-- Settles O15: both registers' own reads draw once and leave every register as it is. -/
theorem readsWithFreeBits : Obligations.ReadsWithFreeBits := by
  intro s c hready
  exact ⟨fun hsel => hostRead_ready hready hsel rfl, fun hsel => hostRead_ready hready hsel rfl⟩

/-- Settles O17: LINE_STATUS's own write is refused, and DIVISOR_LOW's is made where the latch gives it the offset. -/
theorem writeLineStatusIsRefused : Obligations.WriteLineStatusIsRefused := by
  intro s c v hready
  exact ⟨fun hsel => hostWrite_ready hready hsel rfl, fun hlatch hk => hostWrite_ready hready (select_divisorLow hlatch hk) rfl⟩

end Sys2Proof.Machine
end

section
/-! PROOFS. Line configuration (41_line_configuration.md): the divisor (R130, R131), and the sequence W1 to W9 inside `attach` and by
LINE_CONFIGURE (R132 to R137), and what keeps a line configured (R138). -/

namespace Sys2Proof.Machine

/-! ## The divisor -/

/-- A context's turn inside `attach` is the next line of it (R220, R11). -/
theorem step_attachLine {s : State} {c : Nat} {a : AttachCall} {rest : List Event} (hinputs : s.sched.inputs = .resume c :: rest)
    (hfind : s.calls.find? (fun k => k.ctx == c) = some { ctx := c, kind := .attach a }) :
    step s = resumeAttach c a (turnOf (.resume c) rest s) := by
  simp only [step_inputs hinputs, runEvent, resumeStep, hfind]

/-- Settles O22: two truncating divisions are one by the product, whose bounds linear arithmetic gives; the line of `attach` stores the
quotient of the call's own clock. -/
theorem divisorArithmetic : Obligations.DivisorArithmetic := by
  refine ⟨fun clockHz => ?_, fun s c a rest hinputs hfind hline => ?_⟩
  · have hnested : baudDivisor clockHz = clockHz / 16 / 115200 := rfl
    have hone : baudDivisor clockHz = clockHz / 1843200 := Nat.div_div_eq_div_mul clockHz 16 115200
    refine ⟨hnested, hone, ?_, ?_, ?_⟩
    · omega -- exactly below 1843200 Hz it is 0
    · omega -- exactly from 65536 * 1843200 Hz it exceeds 16 bits
    · simp only [divisorHigh, divisorLow, BitVec.toNat_ofNat]
      omega
  · refine ⟨attachSetDivisor c a (turnOf (.resume c) rest s), ?_, rfl⟩
    simp only [step_attachLine hinputs hfind, resumeAttach, hline]

/-! ## One write of the sequence -/

/-- A byte written as the value of a transaction is the byte the register keeps (R10, R49). -/
theorem low8_zext32 (b : Byte) : low8 (zext32 b) = b := by
  simp [low8, zext32]

/-- A handle is ATTACHING only if it is the current one. -/
theorem lifeOf_attaching {h : Nat} {s : State} (hl : lifeOf h s = .attaching) : h = s.hdl.id ∧ s.hdl.life = .attaching := by
  unfold lifeOf at hl
  split at hl
  · exact ⟨‹_›, hl⟩
  · split at hl <;> cases hl

/-- On an ATTACHING handle the next write of the table is made, logged, and counted (R132, R31). -/
theorem lineConfigureStep_writes {s u : State} {k : Nat} {b : Byte} (hlife : s.hdl.life = .attaching)
    (hk : configureWrite s.cfg s.hdl.divisor s.hdl.cfgStep = some (k, b))
    (hwrite : writeRegister (select s.cfg k (dlab s)) (zext32 b) (s.logTxn (.write k (select s.cfg k (dlab s)) (zext32 b))) = .next u) :
    lineConfigureStep s = .next { u with hdl := { u.hdl with cfgStep := u.hdl.cfgStep + 1 } } := by
  have hopen : windowOpen s.hdl.id s = true := by simp [windowOpen, hlife]
  simp only [lineConfigureStep, hk, regWrite, if_pos hopen, hwrite, andThen_next]

/-- LINE_CONFIGURE at the start of an ATTACHING handle's sequence makes the first write and leaves its context inside the call (R132). -/
theorem exec_lineConfigure_begins {s u : State} {c h : Nat} (hturn : HostTurn s c) (hlife : lifeOf h s = .attaching)
    (hzero : s.hdl.cfgStep = 0) (hstep : lineConfigureStep s = .next u) :
    exec (.lineConfigure h) s = .next { u with calls := u.calls ++ [{ ctx := c, kind := .lineConfigure h }] } := by
  obtain ⟨hagent, hfree⟩ := hturn
  show execLineConfigure h s = _
  rw [execLineConfigure, asHost_host _ hagent hfree, if_pos ⟨hlife, hzero⟩, hstep, andThen_next]

/-- Settles O23: the request is admitted on exactly such a handle, and its step is the table's first write. -/
theorem lineConfigureBegins : Obligations.LineConfigureBegins := by
  rintro s c h ⟨hagent, hfree⟩
  refine ⟨fun hlife hzero hsel => ?_, fun hother => ?_⟩
  · have hk : configureWrite s.cfg s.hdl.divisor s.hdl.cfgStep = some (s.cfg.kMdr, s.cfg.mdrDisable) := hzero ▸ rfl
    have hstep := lineConfigureStep_writes (lifeOf_attaching hlife).2 hk (by rw [hsel]; rfl)
    rw [exec_lineConfigure_begins ⟨hagent, hfree⟩ hlife hzero hstep, low8_zext32]
    simp [hzero]
  · exact (asHost_host _ hagent hfree).trans (if_neg hother)

/-! ## What the device holds along the sequence -/

/-- What is known of the device `d` after the first `n` writes, whatever it held before them but for the byte `ier` in INT_ENABLE: W1 may
have reached a divisor register (R86), W3 sets the latch for the divisor, W6 clears it, W7 empties the queues (R132, R134). -/
def DeviceAfterWrites (cfg : Config) (divisor : Nat) (ier : Byte) (d : Device) : Nat → Prop
  | 0 | 1 | 2 => d = { d with ier := ier }
  | 3 => d = { d with ier := ier, lcr := cfg.lcrDlab }
  | 4 => d = { d with ier := ier, lcr := cfg.lcrDlab, dll := divisorLow divisor }
  | 5 => d = { d with ier := ier, lcr := cfg.lcrDlab, dll := divisorLow divisor, dlh := divisorHigh divisor }
  | 6 => d = { d with ier := ier, lcr := cfg.lcrWlen8, dll := divisorLow divisor, dlh := divisorHigh divisor }
  | 7 => d = { d with ier := ier, lcr := cfg.lcrWlen8, dll := divisorLow divisor, dlh := divisorHigh divisor, thr := none, rxHw := [] }
  | 8 => d = { ier := ier, lcr := cfg.lcrWlen8, dll := divisorLow divisor, dlh := divisorHigh divisor, thr := none, rxHw := [],
               mdr := cfg.mdrNormal }
  | _ => d = { ier := cfg.ierRdi, lcr := cfg.lcrWlen8, dll := divisorLow divisor, dlh := divisorHigh divisor, thr := none, rxHw := [],
               mdr := cfg.mdrNormal }

/-- The latch is set while LINE_CONTROL holds the latch bit (R45, R119). -/
theorem dlab_of_lcrDlab {s : State} (hwf : s.cfg.wf = true) (h : s.dev.lcr = s.cfg.lcrDlab) : dlab s = true := by
  obtain ⟨hone, -⟩ := Config.wf_masks hwf
  simpa [dlab, h] using oneBit_ne_zero hone

/-- The latch is clear under the 8-data-bits value (R45, R119). -/
theorem dlab_of_wlen8 {s : State} (hwf : s.cfg.wf = true) (h : s.dev.lcr = s.cfg.lcrWlen8) : dlab s = false := by
  obtain ⟨-, -, -, -, -, -, -, -, hclear, -⟩ := Config.wf_masks hwf
  simp [dlab, h, hclear]

/-- MODE_SELECT's offset reaches MODE_SELECT, or with the latch set a divisor register that shares it (R86). -/
theorem select_kMdr {cfg : Config} (hwf : cfg.wf = true) (latch : Bool) :
    select cfg cfg.kMdr latch = .modeSelect ∨ select cfg cfg.kMdr latch = .divisorLow ∨ select cfg cfg.kMdr latch = .divisorHigh := by
  have hn := (Config.wf_offsets hwf).1
  simp only [List.nodup_cons, List.mem_cons, not_or] at hn
  obtain ⟨⟨-, -, hfcr, -⟩, ⟨-, hlcr, -⟩, ⟨hlsr, -⟩, -⟩ := hn
  unfold select
  split
  · exact .inr (.inl rfl)
  · split
    · exact .inr (.inr rfl)
    · exact .inl (by simp [Ne.symm hfcr, Ne.symm hlcr, Ne.symm hlsr])

/-- The clear command has only named bits, and both of them (R107, R119). -/
theorem writeFifoControl_clearBoth {s : State} (hwf : s.cfg.wf = true) :
    writeFifoControl (zext32 (s.cfg.fcrClearRcvr ||| s.cfg.fcrClearXmit)) s =
      .next { s with dev := { s.dev with rxHw := [], thr := none } } := by
  obtain ⟨-, -, -, -, hrcvr, hxmit, -⟩ := Config.wf_masks hwf
  have hboth (m n : Byte) : (m ||| n) &&& ~~~ (m ||| n) = 0 ∧ (m ||| n) &&& m = m ∧ (m ||| n) &&& n = n := by
    refine ⟨BitVec.and_not_self _, ?_, ?_⟩
    all_goals
      ext i hi
      simp +contextual
  obtain ⟨hnamed, hr, hx⟩ := hboth s.cfg.fcrClearRcvr s.cfg.fcrClearXmit
  rw [writeFifoControl_of_named (by rw [low8_zext32, hnamed]), low8_zext32, hr, hx, if_neg (oneBit_ne_zero hrcvr),
    if_neg (oneBit_ne_zero hxmit)]

/-- Each write of the table is accepted where its turn comes, and brings the device to the next stage (R132, R133, R134). -/
theorem configureWrite_device {s : State} {divisor n k : Nat} {b ier : Byte} (hwf : s.cfg.wf = true)
    (hk : configureWrite s.cfg divisor n = some (k, b)) (hd : DeviceAfterWrites s.cfg divisor ier s.dev n) :
    ∃ d, writeRegister (select s.cfg k (dlab s)) (zext32 b) s = .next { s with dev := d } ∧
      DeviceAfterWrites s.cfg divisor ier d (n + 1) := by
  obtain ⟨-, hier, hfcr, -, -, hmdr⟩ := select_clear hwf
  obtain ⟨hdll, hdlh, -⟩ := select_set hwf
  obtain ⟨-, -, -, -, -, hlcr, -⟩ := theLatchDecidesWhatAnOffsetReaches s.cfg hwf
  have hn := configureWrite_lt hk
  have hplain (v : Byte) (hv : v = 0 ∨ v = s.cfg.lcrDlab ∨ v = s.cfg.lcrWlen8) :
      writeRegister (select s.cfg s.cfg.kLcr (dlab s)) (zext32 v) s = .next { s with dev := { s.dev with lcr := v } } := by
    rw [hlcr, writeRegister, writeLineControl, low8_zext32, if_pos hv]
  interval_cases n <;> cases hk <;> simp only [DeviceAfterWrites] at hd ⊢
  -- one goal for each of W1 to W9, in their order
  · obtain hsel | hsel | hsel := select_kMdr hwf (dlab s)
    all_goals
      rw [hsel]
      exact ⟨_, rfl, by rw [hd]⟩
  · exact ⟨_, hplain _ (.inl rfl), by rw [hd]⟩
  · exact ⟨_, hplain _ (.inr (.inl rfl)), by rw [hd]⟩
  · rw [dlab_of_lcrDlab hwf (by rw [hd]), hdll]
    exact ⟨_, rfl, by rw [hd, low8_zext32]⟩
  · rw [dlab_of_lcrDlab hwf (by rw [hd]), hdlh]
    exact ⟨_, rfl, by rw [hd, low8_zext32]⟩
  · exact ⟨_, hplain _ (.inr (.inr rfl)), by rw [hd]⟩
  · rw [dlab_of_wlen8 hwf (by rw [hd]), hfcr]
    exact ⟨_, writeFifoControl_clearBoth hwf, by rw [hd]⟩
  · rw [dlab_of_wlen8 hwf (by rw [hd]), hmdr]
    exact ⟨_, rfl, by rw [hd, low8_zext32]⟩
  · rw [dlab_of_wlen8 hwf (by rw [hd]), hier]
    have hnamed : low8 (zext32 s.cfg.ierRdi) &&& ~~~ s.cfg.ierRdi = 0 := by rw [low8_zext32, BitVec.and_not_self]
    exact ⟨_, writeIntEnable_of_named hnamed, by rw [hd, low8_zext32]⟩

/-! ## The whole sequence -/

/-- The offsets and values of the first `n` writes of the table (R132). -/
def firstWrites (cfg : Config) (divisor n : Nat) : List (Option (Nat × Word)) :=
  (List.range n).map fun i => (configureWrite cfg divisor i).map fun (k, b) => (k, zext32 b)

/-- From `s` to `t` the first `n` writes of line configuration have run, and nothing else has changed but who is inside which call and the
turns to come. -/
abbrev WrittenFrom (n : Nat) (s t : State) : Prop :=
  t.cfg = s.cfg ∧ t.hdl = { s.hdl with cfgStep := n } ∧ DeviceAfterWrites s.cfg s.hdl.divisor s.dev.ier t.dev n ∧
  t.obs.txnLog.map writtenPair = s.obs.txnLog.map writtenPair ++ firstWrites s.cfg s.hdl.divisor n ∧
  t.ring = s.ring ∧ t.answers = s.answers ∧ t.line = s.line

/-- Before the first write. -/
theorem writtenFrom_zero {s : State} (hzero : s.hdl.cfgStep = 0) : WrittenFrom 0 s s :=
  ⟨rfl, by rw [← hzero], rfl, (List.append_nil _).symm, rfl, rfl, rfl⟩

/-- The sequence is over exactly after its last write (R31, R135). -/
theorem WrittenFrom.configureDone {n : Nat} {s t : State} (h : WrittenFrom n s t) :
    configureDone t = decide (configureWrites s.cfg ≤ n) := by
  obtain ⟨hcfg, hhdl, -⟩ := h
  rw [Machine.configureDone, configureWrites, hcfg, hhdl]

/-- The sequence is within the table (R132). -/
theorem configureWrites_le (cfg : Config) : configureWrites cfg ≤ 9 := by
  unfold configureWrites
  split <;> decide

/-- The table has every write of the sequence (R132). -/
theorem configureWrite_of_lt (cfg : Config) (divisor : Nat) {n : Nat} (h : n < 9) : ∃ k b, configureWrite cfg divisor n = some (k, b) := by
  interval_cases n
  all_goals exact ⟨_, _, rfl⟩

/-- The next write brings the sequence one further, on an ATTACHING handle (R132, R134). -/
theorem WrittenFrom.nextWrite {n : Nat} {s t : State} (h : WrittenFrom n s t) (hwf : s.cfg.wf = true) (hlife : s.hdl.life = .attaching)
    (hn : n < 9) :
    ∃ u, lineConfigureStep t = .next u ∧ WrittenFrom (n + 1) s u ∧ u.calls = t.calls ∧ u.sched = t.sched := by
  obtain ⟨hcfg, hhdl, hdev, hlog, hring, hanswers, hline⟩ := h
  obtain ⟨k, b, hk⟩ := configureWrite_of_lt s.cfg s.hdl.divisor hn
  have hk' : configureWrite t.cfg t.hdl.divisor t.hdl.cfgStep = some (k, b) := by rw [hcfg, hhdl, hk]
  obtain ⟨d, hwrite, hd⟩ := configureWrite_device (s := t.logTxn (.write k (select t.cfg k (dlab t)) (zext32 b)))
    (hcfg ▸ hwf) (hcfg ▸ hk) (hcfg ▸ hdev)
  refine ⟨_, lineConfigureStep_writes (by rw [hhdl, hlife]) hk' hwrite, ⟨hcfg, ?_, hcfg ▸ hd, ?_, hring, hanswers, hline⟩, rfl, rfl⟩
  · simp [hhdl]
  · simp [hlog, firstWrites, List.range_succ, hk, writtenPair]

/-- After the last write the device is the one R134 describes. -/
theorem WrittenFrom.configuredFrom {s t : State} (h : WrittenFrom (configureWrites s.cfg) s t) : ConfiguredFrom s t := by
  obtain ⟨-, hhdl, hdev, hlog, hring, hanswers, hline⟩ := h
  refine ⟨hhdl, ?_, ?_, hring, hanswers, hline⟩
  · rw [configureWrites] at hdev
    cases hirq : s.cfg.rxIrqEnabled <;> simpa [hirq, DeviceAfterWrites] using hdev
  · rw [hlog, configureWrites]
    cases s.cfg.rxIrqEnabled <;> rfl

/-- The next step of a context inside line configuration: the next write, and with the last one the calls in progress become `f` of them
(R135, log 19). -/
def configureThen (f : List HostCall → List HostCall) (s : State) : Result :=
  if configureDone s then .next { s with calls := f s.calls }
  else andThen (lineConfigureStep s) fun t => .next (if configureDone t then { t with calls := f t.calls } else t)

/-- A4 of `attach` is such a step, after which A5 comes (R220); what the calls become does not depend on the rest of the state. -/
theorem attachConfigure_eq (c : Nat) (a : AttachCall) (s t : State) :
    attachConfigure c a t = configureThen (fun calls => (toLine c a .register { s with calls := calls }).calls) t := rfl

/-- A later step of LINE_CONFIGURE on the current handle is such a step, after which the call is over (log 19). -/
theorem resumeLineConfigure_eq (c : Nat) (s : State) :
    resumeLineConfigure c s.hdl.id s = configureThen (List.filter fun k => k.ctx != c) s := by
  simp [resumeLineConfigure, configureThen, endCall]

/-- A run goes on from the state its first step gives. -/
theorem run_succ {s t : State} (h : step s = .next t) (k : Nat) : Host.Core.run core (k + 1) s = Host.Core.run core k t := by
  simp only [Host.Core.run, core, h]

section
variable {s : State} {c : Nat} {f : List HostCall → List HostCall} {inside : List HostCall} (hwf : s.cfg.wf = true)
  (hlife : s.hdl.life = .attaching)
  (hresume : ∀ t, t.hdl.id = s.hdl.id → t.calls = inside → resumeStep c t = configureThen f t)
include hwf hlife hresume

/-- A turn of a context that has writes left makes the next one, and with the last one its calls become `f` of them (R132, R135). -/
theorem step_configureThen {n : Nat} {t : State} {rest : List Event} (hn : n < configureWrites s.cfg) (ht : WrittenFrom n s t)
    (hcalls : t.calls = inside) (hinputs : t.sched.inputs = .resume c :: rest) :
    ∃ u, step t = .next u ∧ WrittenFrom (n + 1) s u ∧ u.sched.inputs = rest ∧
      u.calls = if configureWrites s.cfg ≤ n + 1 then f inside else inside := by
  have hturn : WrittenFrom n s (turnOf (.resume c) rest t) := ht
  obtain ⟨u, hu, hnext, hc, hsched⟩ := hturn.nextWrite hwf hlife (hn.trans_le (configureWrites_le _))
  have hstep : step t = .next (if configureDone u then { u with calls := f u.calls } else u) := by
    obtain ⟨-, hhdl, -⟩ := ht
    have hid : t.hdl.id = s.hdl.id := by rw [hhdl]
    have hmore : configureDone (turnOf (.resume c) rest t) = false := by
      rw [hturn.configureDone]
      exact decide_eq_false (Nat.not_le.mpr hn)
    have hthen : step t = configureThen f (turnOf (.resume c) rest t) := (step_inputs hinputs).trans (hresume _ hid hcalls)
    simp only [hthen, configureThen, hmore, hu, andThen_next, Bool.false_eq_true, if_false]
  rw [hnext.configureDone] at hstep
  refine ⟨_, hstep, ?_⟩
  by_cases hlast : configureWrites s.cfg ≤ n + 1
  · simp only [hlast, decide_true, if_true]
    exact ⟨hnext, by rw [hsched], by rw [hc]; exact congrArg f hcalls⟩
  · simp only [hlast, decide_false, if_false, Bool.false_eq_true]
    exact ⟨hnext, by rw [hsched], hc.trans hcalls⟩

/-- From any point of the sequence, as many turns of the context as there are writes left complete it. -/
theorem run_configureThen {rest : List Event} (left : Nat) :
    ∀ (n : Nat) (t : State), n + (left + 1) = configureWrites s.cfg → WrittenFrom n s t → t.calls = inside →
      t.sched.inputs = List.replicate (left + 1) (.resume c) ++ rest →
      ∃ u, Host.Core.run core (left + 1) t = .next u ∧ ConfiguredFrom s u ∧ u.calls = f inside ∧ u.sched.inputs = rest := by
  induction left with
  | zero =>
    intro n t hn ht hcalls hinputs
    obtain ⟨u, hstep, hu, hrest, hc⟩ := step_configureThen hwf hlife hresume (by omega) ht hcalls hinputs
    exact ⟨u, run_succ hstep 0, WrittenFrom.configuredFrom (hn ▸ hu), by rw [hc, if_pos (by omega)], hrest⟩
  | succ left ih =>
    intro n t hn ht hcalls hinputs
    obtain ⟨u, hstep, hu, hrest, hc⟩ := step_configureThen hwf hlife hresume (by omega) ht hcalls hinputs
    rw [if_neg (by omega)] at hc
    obtain ⟨v, hrun, hv⟩ := ih (n + 1) u (by omega) hu hc hrest
    exact ⟨v, (run_succ hstep _).trans hrun, hv⟩

end

/-- A context outside every call has no record among the calls in progress. -/
theorem ctx_ne_of_outside {c : Nat} {s : State} (hfree : busy c s = false) : ∀ k ∈ s.calls, k.ctx ≠ c := by
  simp only [busy, Bool.or_eq_false_iff, List.any_eq_false, beq_iff_eq] at hfree
  exact hfree.2

/-- The request LINE_CONFIGURE is the first write, after which its context is inside the call (R132, log 19). -/
theorem step_lineConfigure {s : State} {c on : Nat} {rest : List Event} (hwf : s.cfg.wf = true) (hlife : s.hdl.life = .attaching)
    (hzero : s.hdl.cfgStep = 0) (hfree : busy c s = false)
    (hinputs : s.sched.inputs = .request (.host c) on (encode s.cfg (.lineConfigure s.hdl.id)) :: rest) :
    ∃ t, step s = .next t ∧ WrittenFrom 1 s t ∧ t.calls = s.calls ++ [{ ctx := c, kind := .lineConfigure s.hdl.id }] ∧
      t.sched.inputs = rest := by
  have hdecode : decodeRequest s.cfg (dlab s) (encode s.cfg (.lineConfigure s.hdl.id)) = .ok (.lineConfigure s.hdl.id) :=
    decode_encode_operation rfl
  obtain ⟨hexec, hagent, -⟩ := stepRunsTheDecodedRequest s _ _ _ _ _ hinputs hdecode
  obtain ⟨u, hu, hone, hcalls, hsched⟩ := WrittenFrom.nextWrite (t := turnOf (.request (.host c) on _) rest s) (writtenFrom_zero hzero)
    hwf hlife (by decide)
  have hbegins := exec_lineConfigure_begins ⟨hagent, hfree⟩ ((lifeOf_self s).trans hlife) hzero hu
  exact ⟨_, hexec.trans hbegins, hone, by rw [hcalls], by rw [hsched]⟩

/-- Settles O24: inside `attach` all the writes are turns of the context; LINE_CONFIGURE is the first write itself, and the others are turns
of the context it leaves inside the call. -/
theorem lineConfigurationReachesItsStateFromAnyState : Obligations.LineConfigurationReachesItsStateFromAnyState := by
  intro s c rest hwf hlife hzero
  obtain ⟨left, hleft⟩ : ∃ left, configureWrites s.cfg = left + 2 := by
    unfold configureWrites
    split
    exacts [⟨7, rfl⟩, ⟨6, rfl⟩]
  rw [hleft]
  refine ⟨fun a hfind hline hinputs => ?_, fun on hfree hinputs => ?_⟩
  · have hresume (t : State) (_ : t.hdl.id = s.hdl.id) (hcalls : t.calls = s.calls) :
        resumeStep c t = configureThen (fun calls => (toLine c a .register { s with calls := calls }).calls) t := by
      simp only [resumeStep, hcalls, hfind, resumeAttach, hline, attachConfigure_eq c a s]
    exact run_configureThen hwf hlife hresume (left + 1) 0 s (by omega) (writtenFrom_zero hzero) rfl hinputs
  · have hout := ctx_ne_of_outside hfree
    have hresume (t : State) (hid : t.hdl.id = s.hdl.id)
        (hinside : t.calls = s.calls ++ [{ ctx := c, kind := .lineConfigure s.hdl.id }]) :
        resumeStep c t = configureThen (List.filter fun k => k.ctx != c) t := by
      have hfind : t.calls.find? (fun k => k.ctx == c) = some { ctx := c, kind := .lineConfigure s.hdl.id } := by
        rw [hinside, List.find?_append, List.find?_eq_none.mpr (by simpa using hout)]
        simp
      simp only [resumeStep, hfind, ← hid, resumeLineConfigure_eq]
    obtain ⟨t, hstep, hone, hinside, hinputs⟩ := step_lineConfigure hwf hlife hzero hfree hinputs
    obtain ⟨u, hrun, hdone, hend, hrest⟩ := run_configureThen hwf hlife hresume left 1 t (by omega) hone hinside hinputs
    refine ⟨u, (run_succ hstep _).trans hrun, hdone, ?_, hrest⟩
    rw [hend]
    simpa using hout

/-! ## A configured line stays configured -/

/-- The registers that hold what was last written to them (R43, R45, R46, R48). -/
def Device.stored (d : Device) : Byte × Byte × Byte × Byte × Byte := (d.lcr, d.dll, d.dlh, d.mdr, d.ier)

/-- Whether the line is configured is a matter of the parameters, the stored registers and the handle's divisor (R138). -/
theorem lineConfigured_eq {s t : State} (hcfg : t.cfg = s.cfg) (hdiv : t.hdl.divisor = s.hdl.divisor)
    (hdev : t.dev.stored = s.dev.stored) : lineConfigured t = lineConfigured s := by
  simp only [Device.stored, Prod.mk.injEq] at hdev
  obtain ⟨hlcr, hdll, hdlh, hmdr, hier⟩ := hdev
  have hprogrammed : programmedDivisor t = programmedDivisor s := by rw [programmedDivisor, hdlh, hdll, programmedDivisor]
  rw [lineConfigured, hcfg, hdiv, hlcr, hmdr, hier, hprogrammed, lineConfigured]

/-- A read transaction writes no register (R66, R100). -/
theorem regRead_stored {h k : Nat} {s t : State} {v : Word} (hr : regRead h k s = .next (v, t)) : t.dev.stored = s.dev.stored := by
  obtain rfl | rfl | ⟨-, _, _, -, -, rfl⟩ := readRegister_next (regRead_next hr).2
  all_goals rfl

/-- A step of the handler writes no register (R173). -/
theorem irqStep_stored {s t : State} (h : irqStep s = .next t) : t.dev.stored = s.dev.stored := by
  obtain ⟨-, rfl⟩ | ⟨-, _, _, hr, rfl⟩ | ⟨b, -, rfl⟩ | ⟨_, -, rfl⟩ := irqStep_next h
  · rfl
  · exact (regRead_stored hr :)
  · obtain ⟨-, hs⟩ | ⟨-, hs⟩ := handlerStore_cases (observedRead s) b s.drew
    all_goals rw [hs, State.drew_dev]
  · rfl

/-- With the latch clear a step of a transmit call writes no register but DATA, which is not stored (R151, R153, R86). -/
theorem transmitStep_stored {w : PendingWrite} {s t : State} (hwf : s.cfg.wf = true) (hclear : dlab s = false)
    (h : transmitStep w s = .next t) : t.dev.stored = s.dev.stored := by
  obtain ⟨-, rfl⟩ | ⟨b, -, ⟨-, -, rfl⟩ | ⟨-, -, hp⟩ | ⟨-, hp⟩⟩ := transmitStep_next h
  · rfl
  · rfl
  · obtain ⟨_, _, hr, ⟨-, rfl⟩ | ⟨-, rfl⟩⟩ := pollStep_next hp
    all_goals exact (regRead_stored hr :)
  · obtain ⟨u, hw, rfl⟩ := putStep_next hp
    have honly := writeRegister_writesOnly (regWrite_next hw).2
    rw [hclear, (select_clear hwf).1] at honly
    have hdev : u.dev = { s.dev with thr := u.dev.thr } := honly
    exact (congrArg Device.stored hdev :)

/-- A turn is a line of `attach`, or may write a register, or leaves every stored register as it was. -/
theorem Turn.stored {s t : State} {e : Event} (ht : Turn s e t) :
    (∃ c a, s.calls.find? (fun k => k.ctx == c) = some { ctx := c, kind := .attach a }) ∨ MayWriteRegister s e t ∨
      t.dev.stored = s.dev.stored := by
  cases ht
  case attachLine c a hf _ => exact .inl ⟨c, a, hf⟩
  all_goals right
  case registerRead => exact .inl (.inl rfl)
  case registerWrite => exact .inl (.inl rfl)
  case lineConfigure hx => exact .inl (.inr (.inl ⟨_, hx⟩))
  case configureWrite hmem _ => exact .inl (.inr (.inr (.inl ⟨_, _, hmem⟩)))
  case transmit hx => exact .inl (.inr (.inr (.inr ⟨_, hx⟩)))
  all_goals right
  case attach hx =>
    obtain ⟨_, -, -, ⟨-, rfl⟩ | ⟨-, -, rfl⟩⟩ := execAttach_next hx
    all_goals rfl
  case detach hx =>
    obtain ⟨_, -, -, -, -, -, rfl⟩ := execDetach_next hx
    rfl
  case transmitBytes hx =>
    obtain ⟨_, -, -, -, rfl⟩ := execTransmitBytes_next hx
    rfl
  case onReceiveInterrupt hx =>
    obtain ⟨-, -, -, _, _, hr, rfl⟩ := execOnReceiveInterrupt_next hx
    exact (regRead_stored hr :)
  case readOneByte hx =>
    obtain ⟨_, -, -, -, rfl⟩ := execReadOneByte_next hx
    rfl
  case cancel hx =>
    obtain ⟨-, rfl⟩ := execCancel_next hx
    rfl
  case readLossCounter hx =>
    obtain ⟨_, -, -, -, rfl⟩ := execReadLossCounter_next hx
    rfl
  case detachEnd c on _ =>
    obtain ⟨-, ht⟩ | ⟨-, -, ht⟩ | ⟨-, -, ht⟩ := resumeDetach_cases c on s
    · rw [ht]
    all_goals exact ht ▸ rfl
  case dequeue c =>
    obtain ⟨_, _, _, _, _, ht⟩ := dequeueStep_frame c s
    exact ht ▸ rfl
  case interrupted c =>
    obtain ⟨_, _, _, _, _, ht⟩ := interruptedStep_frame c s
    exact ht ▸ rfl
  case lock c =>
    obtain ⟨_, _, _, _, _, ht⟩ := lockStep_frame c s
    exact ht ▸ rfl
  case takeLocked c =>
    obtain ⟨_, _, _, _, _, ht⟩ := takeLockedStep_frame c s
    exact ht ▸ rfl
  case irqEnter =>
    unfold irqEnterStep
    split
    all_goals rfl
  case irqStep hx => exact irqStep_stored hx
  case lineTx =>
    obtain ht | ⟨_, -, -, ht⟩ := lineTxStep_cases s
    · rw [ht]
    · exact ht ▸ rfl
  case lineRx =>
    obtain ⟨_, _, _, ht⟩ := lineRxStep_frame s
    exact ht ▸ rfl
  all_goals rfl

/-- A turn that is no line of `attach` keeps the parameters and the handle's divisor (R6, R27). -/
theorem Turn.divisor {s t : State} {e : Event} (ht : Turn s e t) (hn : NoConfiguring s) :
    t.cfg = s.cfg ∧ t.hdl.divisor = s.hdl.divisor := by
  obtain ⟨c, a, -, hf, -⟩ | ⟨_, -, -, rfl⟩ | ⟨⟨hcfg, hid, -⟩, -⟩ := ht.handleAndLine
  · exact absurd rfl ((hn _ (List.mem_of_find?_eq_some hf)).1 a)
  · exact ⟨rfl, rfl⟩
  · obtain ⟨-, -, -, -, hdiv⟩ := Handle.identity_eq_iff.mp hid
    exact ⟨hcfg, hdiv⟩

/-- On an ATTACHED handle with no configuration in progress and the latch clear, a turn that is no direct register request leaves every
stored register as it was. -/
theorem Turn.stored_of_attached {s t : State} {e : Event} (ht : Turn s e t) (hwf : s.cfg.wf = true) (hclear : dlab s = false)
    (hlife : s.hdl.life = .attached) (hn : NoConfiguring s) (hd : directRequest e = false) : t.dev.stored = s.dev.stored := by
  obtain ⟨c, a, hf⟩ | (hreq | ⟨_, hx⟩ | ⟨_, h, hmem⟩ | ⟨_, hx⟩) | hsame := ht.stored
  · exact absurd rfl ((hn _ (List.mem_of_find?_eq_some hf)).1 a)
  · exact absurd hreq (by simp [hd])
  · obtain ⟨_, _, -, -, hattaching, -⟩ := execLineConfigure_next hx
    exact absurd (lifeOf_attaching hattaching).2 (by simp [hlife])
  · exact absurd rfl ((hn _ hmem).2 h)
  · exact transmitStep_stored hwf hclear hx
  · exact hsame

/-- Settles O25: a configured line has the latch clear, so a put reaches DATA, and no other turn that the premises leave can write a
register or the divisor. -/
theorem lineConfiguredIsKept : Obligations.LineConfiguredIsKept := by
  intro s t hwf hconf hlife hn hd hs
  obtain ⟨q, ht⟩ := step_turn hs
  have hlcr : s.dev.lcr = s.cfg.lcrWlen8 := by
    by_contra hne
    simp [lineConfigured_eq_false hne] at hconf
  obtain ⟨hcfg, hdiv⟩ := ht.divisor hn
  have hstored := ht.stored_of_attached hwf (dlab_of_wlen8 (s := { s with sched := q }) hwf hlcr) hlife hn hd
  rw [lineConfigured_eq (s := s) hcfg hdiv hstored, hconf]

end Sys2Proof.Machine
end

section
/-! PROOFS. Transmit path (42_transmit.md): what the status poll sees (R151, R152, R85), and the steps of the call and of LINE_TX, each an
equation by its case (R150, R151, R154, R156, R158). -/

namespace Sys2Proof.Machine

/-! ## The status read -/

section
variable {s : State}

/-- The part of a status value the transmit path looks at is the THRE bit, whatever the free bits are (R85, R112). -/
theorem threField_lineStatusValue (hwf : s.cfg.wf = true) (u : Word) :
    threField s.cfg (lineStatusValue u s) = if thre s then zext32 s.cfg.lsrThre else 0 := by
  obtain ⟨-, hthre, hdr, -, -, -, hne, -⟩ := Config.wf_masks hwf
  have hflag (p : Bool) (m : Word) : (if p then m else 0) &&& m = if p then m else 0 := by cases p <;> simp
  exact (masked_bits (zext32_disjoint (oneBit_disjoint hthre hdr hne)) (hflag (thre s) _) (hflag (dataReady s) _) u).1

/-- The transmit-ready test of a status value is THRE (R85). -/
theorem transmitReady_lineStatusValue (hwf : s.cfg.wf = true) (u : Word) : transmitReady s.cfg (lineStatusValue u s) = thre s := by
  obtain ⟨hready, -⟩ := lineStatusShowsThreAndDataReady s u hwf
  rw [Bool.eq_iff_iff, hready, thre, Option.isNone_iff_eq_none]

/-- A read that reaches LINE_STATUS in an open window is logged, and draws the free bits once (R100, R112). -/
theorem regRead_lineStatus {h k : Nat} (hopen : windowOpen h s = true) (hsel : select s.cfg k (dlab s) = .lineStatus) :
    regRead h k s = .next (lineStatusValue (Config.any32 s.sched.draws) s, (s.logTxn (.read k .lineStatus)).drew) := by
  rw [regRead, if_pos hopen, hsel]
  rfl

/-- The register window of an ATTACHED handle is open (R100). -/
theorem windowOpen_of_attached {h : Nat} (hlife : lifeOf h s = .attached) : windowOpen h s = true := by
  simp [windowOpen, hlife]

end

/-! ## The steps of a transmit call -/

/-- The turn of a context inside a transmit call is the call's next step (R151, R11). -/
theorem step_transmit {s : State} {c : Nat} {w : PendingWrite} {rest : List Event} (hinputs : s.sched.inputs = .resume c :: rest)
    (houtside : s.calls.find? (fun k => k.ctx == c) = none) (hwrite : s.writes.find? (fun x => x.ctx == c) = some w) :
    step s = transmitStep w (turnOf (.resume c) rest s) := by
  simp only [step_inputs hinputs, runEvent, resumeStep, houtside, hwrite]

/-- The PendingWrite after the put of `b`: the second copy comes next, or the next index (R151, R158). -/
def afterPut (cfg : Config) (w : PendingWrite) (b : Byte) : PendingWrite :=
  { w with txIdx := if copyToCome cfg w b then w.txIdx else w.txIdx + 1, txPhase := .poll, txPolls := 0, txDup := copyToCome cfg w b }

/-- Where the second copy is to come. -/
theorem afterPut_of_copy {cfg : Config} {w : PendingWrite} {b : Byte} (h : copyToCome cfg w b = true) :
    afterPut cfg w b = { w with txPhase := .poll, txPolls := 0, txDup := true } := by
  simp [afterPut, h]

/-- Where the byte is done. -/
theorem afterPut_of_last {cfg : Config} {w : PendingWrite} {b : Byte} (h : copyToCome cfg w b = false) :
    afterPut cfg w b = { w with txIdx := w.txIdx + 1, txPhase := .poll, txPolls := 0, txDup := false } := by
  simp [afterPut, h]

/-- The second copy comes after the first one of a newline where newlines are doubled (R158, D27). -/
theorem copyToCome_iff {cfg : Config} {w : PendingWrite} {b : Byte} :
    copyToCome cfg w b = true ↔ cfg.nlDup = true ∧ b = cfg.nl ∧ w.txDup = false := by
  simp [copyToCome, and_assoc]

/-- Where there is one PendingWrite, its context's becomes the given one (R32). -/
theorem setWrite_single {s : State} {w x : PendingWrite} (honly : s.writes = [w]) :
    setWrite w.ctx x s = { s with writes := [x] } := by
  simp [setWrite, honly]

/-- It is what `advanceWrite` makes of the PendingWrite. -/
theorem advanceWrite_eq (w : PendingWrite) (b : Byte) (s : State) : advanceWrite w b s = setWrite w.ctx (afterPut s.cfg w b) s := by
  obtain ⟨hcopy, h⟩ | ⟨hlast, h⟩ := advanceWrite_cases w b s
  · rw [h, afterPut_of_copy hcopy]
  · rw [h, afterPut_of_last hlast]

section
variable {s : State} {w : PendingWrite} {b : Byte}

/-- At the end of the buffer the call returns (R151, D28). -/
theorem transmitStep_of_end (hend : w.txBuf.length ≤ w.txIdx) : transmitStep w s = .next (finishWrite w s) := by
  rw [transmitStep, List.getElem?_eq_none hend]

/-- In phase POLL the call fails at the bound, else it polls (R151, R154). -/
theorem transmitStep_of_poll (hb : w.txBuf[w.txIdx]? = some b) (hphase : w.txPhase = .poll) :
    transmitStep w s = if pollLimitReached s.cfg w.txPolls then .next (failWrite w s) else pollStep w s := by
  simp only [transmitStep, hb, hphase]

/-- In phase PUT the byte at the index is put (R151). -/
theorem transmitStep_of_put (hb : w.txBuf[w.txIdx]? = some b) (hphase : w.txPhase = .put) : transmitStep w s = putStep w b s := by
  simp only [transmitStep, hb, hphase]

/-- Where its offset reaches LINE_STATUS, a poll sees THRE and acts on it (R151, R152). -/
theorem pollStep_eq (hwf : s.cfg.wf = true) (hopen : windowOpen w.handle s = true)
    (hsel : select s.cfg s.cfg.kLsr (dlab s) = .lineStatus) :
    pollStep w s = .next (setWrite w.ctx
      (if thre s then { w with txPhase := .put } else { w with txPolls := w.txPolls + 1 })
      ((s.logTxn (.read s.cfg.kLsr .lineStatus)).drew.logPoll (.poll (if thre s then zext32 s.cfg.lsrThre else 0)))) := by
  rw [pollStep, regRead_lineStatus hopen hsel, andThen_next]
  simp only [transmitReady_lineStatusValue hwf, threField_lineStatusValue hwf]

/-- Where its offset reaches DATA and the holding register is empty, a put loads it and moves the call on (R151, R103). -/
theorem putStep_of_empty (hopen : windowOpen w.handle s = true) (hsel : select s.cfg s.cfg.kData (dlab s) = .data)
    (hempty : s.dev.thr = none) :
    putStep w b s = .next (setWrite w.ctx (afterPut s.cfg w b)
      ({ s.logTxn (.write s.cfg.kData .data (zext32 b)) with dev := { s.dev with thr := some b } }.logPoll (.put b))) := by
  have hempty' : (s.logTxn (.write s.cfg.kData .data (zext32 b))).dev.thr = none := hempty
  rw [putStep, regWrite, if_pos hopen, hsel, writeRegister, writeData_of_empty hempty', low8_zext32, andThen_next, advanceWrite_eq]
  rfl

/-- On an occupied holding register the put is the fault (R103, D12). -/
theorem putStep_of_occupied (hopen : windowOpen w.handle s = true) (hsel : select s.cfg s.cfg.kData (dlab s) = .data)
    (hoccupied : s.dev.thr ≠ none) : putStep w b s = .fault .txOverrun := by
  have hoccupied' : (s.logTxn (.write s.cfg.kData .data (zext32 b))).dev.thr ≠ none := hoccupied
  rw [putStep, regWrite, if_pos hopen, hsel, writeRegister, writeData_of_occupied hoccupied', andThen_fault]

/-- The polls have reached the bound exactly where there is one and it is not above them (R154). -/
theorem pollLimitReached_iff {cfg : Config} {polls : Nat} :
    pollLimitReached cfg polls = true ↔ ∃ l, cfg.txPollLimit = some l ∧ l ≤ polls := by
  unfold pollLimitReached
  cases cfg.txPollLimit <;> simp

/-- LINE_TX, enabled, moves the byte to the line (R156). -/
theorem lineTxStep_of_enabled (hb : s.dev.thr = some b) (hmode : s.dev.mdr = s.cfg.mdrNormal) : lineTxStep s =
    { s with line := { s.line with txLine := s.line.txLine ++ [b] }, dev := { s.dev with thr := none } } := by
  rw [lineTxStep, hb]
  exact if_pos hmode

/-- With an empty holding register LINE_TX has no step (R156, log 7). -/
theorem lineTxStep_of_empty (hempty : s.dev.thr = none) : lineTxStep s = s := by
  rw [lineTxStep, hempty]

end

/-! ## The steps' statements -/

/-- Settles O26: the request is admitted, and its whole effect is the PendingWrite at its start. -/
theorem transmitBegins : Obligations.TransmitBegins := by
  rintro s c h buf ⟨hagent, hfree⟩ husable
  exact (asHost_host _ hagent hfree).trans (onAttached_usable _ husable)

/-- Settles O27: below the bound the turn is the poll, which sees THRE; at the bound it is the call's failure. -/
theorem pollStep_acts_on_thre : Obligations.PollStep := by
  intro s c w b rest hwf hinputs houtside hfind hb hphase
  obtain rfl : w.ctx = c := by simpa using List.find?_some hfind
  have hstep := (step_transmit hinputs houtside hfind).trans (transmitStep_of_poll hb hphase)
  refine ⟨fun hbelow hlife hsel => ?_, fun l hlimit hreached => ?_⟩
  · have hmore : ¬ pollLimitReached s.cfg w.txPolls = true := by
      rw [pollLimitReached_iff]
      rintro ⟨l, hlimit, hreached⟩
      exact absurd (hbelow l hlimit) (Nat.not_lt.mpr hreached)
    rw [if_neg hmore, pollStep_eq (s := turnOf _ rest s) hwf (windowOpen_of_attached (s := s) hlife) hsel] at hstep
    have hmask : zext32 s.cfg.lsrThre ≠ 0 := by
      obtain ⟨-, hthre, -⟩ := Config.wf_masks hwf
      exact zext32_ne_zero (oneBit_ne_zero hthre)
    refine ⟨if thre s then zext32 s.cfg.lsrThre else 0, _, rfl, ?_, fun hempty => ?_, fun hoccupied => ?_⟩
    · simpa [thre] using fun _ => hmask
    · rw [hstep]
      simp [thre, hempty]
    · rw [hstep]
      simp [thre, hoccupied]
  · exact hstep.trans (if_pos (pollLimitReached_iff.mpr ⟨l, hlimit, hreached⟩))

/-- Settles O28: the turn is the put, which DATA's own write decides, and then one of the two ways to go on; at the end of the buffer it is
the return. -/
theorem putStep_writes_data : Obligations.PutStep := by
  intro s c w rest hinputs houtside hfind
  obtain rfl : w.ctx = c := by simpa using List.find?_some hfind
  have hstep := step_transmit hinputs houtside hfind
  refine ⟨fun b hb hphase hlife hsel => ?_, fun hend => hstep.trans (transmitStep_of_end hend)⟩
  have hopen : windowOpen w.handle (turnOf (.resume w.ctx) rest s) = true := windowOpen_of_attached (s := s) hlife
  rw [transmitStep_of_put hb hphase] at hstep
  refine ⟨fun hoccupied => hstep.trans (putStep_of_occupied hopen hsel hoccupied), fun hempty => ?_⟩
  rw [putStep_of_empty hopen hsel hempty] at hstep
  refine ⟨_, rfl, fun hcopy => ?_, fun hlast => ?_⟩
  · rw [hstep, afterPut_of_copy (copyToCome_iff.mpr hcopy)]
  · rw [hstep, afterPut_of_last (Bool.eq_false_iff.mpr (mt copyToCome_iff.mp hlast))]

/-- Settles O29: LINE_TX's turn is its step, enabled or not. -/
theorem transmitterStep : Obligations.TransmitterStep := by
  intro s rest hinputs
  have hstep : step s = .next (lineTxStep (turnOf .lineTx rest s)) := step_inputs hinputs
  refine ⟨fun b hb hmode => ?_, ?_⟩
  · exact ⟨_, hstep.trans (congrArg _ (lineTxStep_of_enabled hb hmode)), rfl, rfl⟩
  · rintro (hempty | hmode)
    · exact hstep.trans (congrArg _ (lineTxStep_of_empty hempty))
    · exact hstep.trans (congrArg _ (lineTxStep_of_not_normal hmode))

end Sys2Proof.Machine
end

section
/-! PROOFS. Transmit path (42_transmit.md): no overrun under the host duty (R153, R278, R282). -/

namespace Sys2Proof.Machine

/-! ## Where a step can fault -/

/-- A sequence faults exactly where one of its parts does. -/
theorem andThen_eq_fault {α β : Type} {o : Host.Outcome α Fault Refusal} {f : α → Host.Outcome β Fault Refusal} {r : Fault} :
    andThen o f = .fault r ↔ o = .fault r ∨ ∃ a, o = .next a ∧ f a = .fault r := by
  cases o <;> simp

section
variable {s : State} {f : Fault}

/-- A context's own step faults only where the operation itself does. -/
theorem asHost_eq_fault {g : Nat → Result} (h : asHost s g = .fault f) : ∃ c, g c = .fault f := by
  unfold asHost at h
  split at h
  · split at h
    · cases h
    · exact ⟨_, h⟩
  all_goals cases h

/-- Admission on a handle is no fault. -/
theorem onAttached_eq_fault {h : Nat} {r : Result} (hr : onAttached h s r = .fault f) : r = .fault f := by
  unfold onAttached at hr
  split at hr
  · exact hr
  · cases hr

/-- No read transaction faults (R100). -/
theorem regRead_ne_fault {h k : Nat} : regRead h k s ≠ .fault f := by
  intro hr
  unfold regRead at hr
  split at hr
  · cases hreg : select s.cfg k (dlab s) <;> rw [hreg] at hr
    case data =>
      rw [readRegister, readData] at hr
      split at hr <;> cases hr
    all_goals cases hr
  · cases hr

/-- The one write that faults is DATA's, on an occupied holding register (R103, R247). -/
theorem regWrite_eq_fault {h k : Nat} {v : Word} (hw : regWrite h k v s = .fault f) :
    select s.cfg k (dlab s) = .data ∧ s.dev.thr ≠ none := by
  unfold regWrite at hw
  split at hw
  · cases hreg : select s.cfg k (dlab s) <;> rw [hreg] at hw
    case data =>
      rw [writeRegister, writeData] at hw
      split at hw
      · cases hw
      · rename_i _ hb
        have hb : s.dev.thr = some _ := hb
        exact ⟨rfl, by simp [hb]⟩
    case intEnable =>
      rw [writeRegister, writeIntEnable] at hw
      split at hw <;> cases hw
    case fifoControl =>
      rw [writeRegister, writeFifoControl] at hw
      split at hw <;> cases hw
    case lineControl =>
      rw [writeRegister, writeLineControl] at hw
      split at hw <;> cases hw
    all_goals cases hw
  · cases hw

/-- E1 of the handler does not fault: it only reads (R173, R174). -/
theorem handlerRead_ne_fault : handlerRead s ≠ .fault f := by
  intro h
  obtain hr | ⟨_, -, hf⟩ := andThen_eq_fault.mp h
  · exact regRead_ne_fault hr
  · cases hf

/-- Nor does any other step of the handler (R173). -/
theorem irqStep_ne_fault : irqStep s ≠ .fault f := by
  intro h
  unfold irqStep at h
  split at h
  · cases h
  · exact handlerRead_ne_fault h
  · cases h
  · cases h

/-- A request's turn faults only where it decodes and its operation faults. -/
theorem runEvent_request_fault {run : Instr → State → Result} {a : Agent} {on : Nat} {r : Request}
    (h : runEvent run (.request a on r) s = .fault f) : ∃ i, decodeRequest s.cfg (dlab s) r = .ok i ∧ run i s = .fault f := by
  rw [runEvent, fetch] at h
  split at h
  · exact ⟨_, ‹_›, h⟩
  · cases h

/-- Of the block-level operations only LINE_CONFIGURE writes a register at its request, so no other can fault there (R132). -/
theorem exec_operation_eq_fault {i : Instr} (hreg : registerOf s.cfg i = none) (h : exec i s = .fault f) :
    ∃ on, execLineConfigure on s = .fault f := by
  cases i
  case lineConfigure on => exact ⟨on, h⟩
  case attach =>
    obtain ⟨_, hf⟩ := asHost_eq_fault h
    split at hf <;> cases hf
  case detach =>
    obtain ⟨_, hf⟩ := asHost_eq_fault h
    have hf := onAttached_eq_fault hf
    split at hf <;> cases hf
  case onReceiveInterrupt =>
    simp only [exec, execOnReceiveInterrupt] at h
    split at h
    · split at h
      · exact absurd h handlerRead_ne_fault
      · cases h
    all_goals cases h
  case cancel =>
    simp only [exec, execCancel] at h
    split at h
    · cases onAttached_eq_fault h
    · obtain ⟨_, hf⟩ := asHost_eq_fault h
      cases onAttached_eq_fault hf
    all_goals cases h
  case transmitBytes | readOneByte | readLossCounter =>
    obtain ⟨_, hf⟩ := asHost_eq_fault h
    cases onAttached_eq_fault hf
  all_goals cases hreg

/-- LINE_CONFIGURE's own request writes MODE_SELECT's offset, which is not DATA's, so it does not fault (W1 of R132, R86). -/
theorem execLineConfigure_ne_fault {h : Nat} (hwf : s.cfg.wf = true) : execLineConfigure h s ≠ .fault f := by
  intro hx
  obtain ⟨_, hf⟩ := asHost_eq_fault hx
  split at hf
  · rename_i hstart
    obtain hstep | ⟨_, -, hf⟩ := andThen_eq_fault.mp hf
    · have hk : configureWrite s.cfg s.hdl.divisor s.hdl.cfgStep = some (s.cfg.kMdr, s.cfg.mdrDisable) := hstart.2 ▸ rfl
      rw [lineConfigureStep, hk] at hstep
      obtain hw | ⟨_, -, hf⟩ := andThen_eq_fault.mp hstep
      · exact (offsets_apart hwf).2.2 (select_offset.2 (regWrite_eq_fault hw).1)
      · cases hf
    · cases hf
  · cases hf

/-- A step of a transmit call faults only as a put on an occupied holding register (R151, R153). -/
theorem transmitStep_eq_fault {w : PendingWrite} (h : transmitStep w s = .fault f) : w.txPhase = .put ∧ s.dev.thr ≠ none := by
  unfold transmitStep at h
  split at h
  · cases h
  · split at h
    · split at h
      · cases h
      · obtain hr | ⟨_, -, hf⟩ := andThen_eq_fault.mp h
        · exact absurd hr regRead_ne_fault
        · cases hf
    · obtain hw | ⟨_, -, hf⟩ := andThen_eq_fault.mp h
      · exact ⟨‹_›, (regWrite_eq_fault hw).2⟩
      · cases hf

/-- With no configuration in progress a context's own step faults only inside a transmit call (R11). -/
theorem resumeStep_eq_fault {c : Nat} (hn : NoConfiguring s) (h : resumeStep c s = .fault f) :
    ∃ w ∈ s.writes, transmitStep w s = .fault f := by
  unfold resumeStep at h
  split at h
  · rename_i k hk
    obtain ⟨hattach, hconfigure⟩ := hn k (List.mem_of_find?_eq_some hk)
    split at h
    · exact absurd ‹_› (hattach _)
    · exact absurd ‹_› (hconfigure _)
    · cases h
  · split at h
    · exact ⟨_, List.mem_of_find?_eq_some ‹_›, h⟩
    · cases h

/-- With no configuration in progress and no direct register request, only a put on an occupied holding register faults (R153, R282). -/
theorem step_eq_fault (hwf : s.cfg.wf = true) (hn : NoConfiguring s) (hd : directRequest (nextEvent s) = false) (h : step s = .fault f) :
    ∃ w ∈ s.writes, w.txPhase = .put ∧ s.dev.thr ≠ none := by
  obtain ⟨q, hq⟩ := takeTurn_eq s
  rw [step, hq] at h
  generalize nextEvent s = e at h hd
  cases e
  case request a on r =>
    obtain ⟨i, hi, hx⟩ := runEvent_request_fault h
    cases r
    case reg => cases hd
    case op =>
      obtain ⟨_, hline⟩ := exec_operation_eq_fault (decodeOp_registerOf _ hi) hx
      exact absurd hline (execLineConfigure_ne_fault hwf)
  case resume =>
    obtain ⟨w, hw, hx⟩ := resumeStep_eq_fault (s := { s with sched := q }) hn h
    exact ⟨w, hw, (transmitStep_eq_fault hx :)⟩
  case irqStep => exact absurd h irqStep_ne_fault
  all_goals cases h

end

/-! ## A call about to put finds the holding register empty -/

/-- The one PendingWrite there is becomes the given one (R32). -/
theorem eq_of_mem_setWrite {s : State} {w x y : PendingWrite} (hmem : y ∈ (setWrite w.ctx x s).writes) (honly : s.writes = [w]) :
    y = x := by
  simpa [honly] using hmem

/-- The step of the only transmit call: a poll goes on to the put only on an empty holding register, and a put leaves phase PUT (R151, R153). -/
theorem PutReady.transmitStep {s t : State} {w : PendingWrite} (hwf : s.cfg.wf = true) (honly : s.writes = [w])
    (hsel : select s.cfg s.cfg.kLsr (dlab s) = .lineStatus) (hx : Machine.transmitStep w s = .next t) : PutReady t := by
  obtain ⟨-, rfl⟩ | ⟨b, -, ⟨-, -, rfl⟩ | ⟨hphase, -, hp⟩ | ⟨-, hp⟩⟩ := transmitStep_next hx
  · simp [PutReady, finishWrite, endWrite, honly]
  · simp [PutReady, failWrite, endWrite, honly]
  · obtain ⟨_, _, hr, -⟩ := pollStep_next hp
    rw [pollStep_eq hwf (regRead_next hr).1 hsel] at hp
    cases hp
    intro x hmem hput
    cases hthre : thre s
    · simp [eq_of_mem_setWrite hmem honly, hthre, hphase] at hput
    · exact Option.isNone_iff_eq_none.mp hthre
  · obtain ⟨u, hw, rfl⟩ := putStep_next hp
    obtain ⟨_, _, _, rfl⟩ := regWrite_frame hw
    intro x hmem hput
    rw [advanceWrite_eq] at hmem
    rw [eq_of_mem_setWrite hmem honly] at hput
    cases hput

/-- Under the host duty every turn keeps it: only the call's own steps touch its phase, and nothing but its put fills the holding register. -/
theorem PutReady.turn {s t : State} {e : Event} (h : PutReady s) (ht : Turn s e t) (hwf : s.cfg.wf = true) (hone : s.writes.length ≤ 1)
    (hn : NoConfiguring s) (hsel : select s.cfg s.cfg.kLsr (dlab s) = .lineStatus) (hd : directRequest e = false) : PutReady t := by
  cases ht
  case registerRead => cases hd
  case registerWrite => cases hd
  case attachLine hf _ => exact absurd rfl ((hn _ (List.mem_of_find?_eq_some hf)).1 _)
  case configureWrite hmem _ => exact absurd rfl ((hn _ hmem).2 _)
  case transmit hf hx =>
    obtain ⟨w, hw⟩ : ∃ w, s.writes = [w] := List.length_eq_one_iff.mp (by
      have := List.length_pos_of_mem (List.mem_of_find?_eq_some hf)
      omega)
    have hmem := List.mem_of_find?_eq_some hf
    rw [hw, List.mem_singleton] at hmem
    exact PutReady.transmitStep hwf (hmem ▸ hw) hsel hx
  case attach hx =>
    obtain ⟨_, -, -, ⟨-, rfl⟩ | ⟨-, -, rfl⟩⟩ := execAttach_next hx
    all_goals exact h
  case detach hx =>
    obtain ⟨_, -, -, -, -, -, rfl⟩ := execDetach_next hx
    exact h
  case lineConfigure hx =>
    have hthr := execLineConfigure_thr hwf hx
    obtain ⟨_, _, -, -, -, -, hu, rfl⟩ := execLineConfigure_next hx
    obtain ⟨_, _, _, _, rfl, -⟩ := lineConfigureStep_frame hu
    exact fun w hw hput => hthr.trans (h w hw hput)
  case transmitBytes hx =>
    obtain ⟨_, -, -, -, rfl⟩ := execTransmitBytes_next hx
    intro w hw hput
    obtain hw | hw := List.mem_append.mp hw
    · exact h w hw hput
    · rw [List.mem_singleton.mp hw] at hput
      cases hput
  case onReceiveInterrupt hx =>
    obtain ⟨-, -, -, _, _, hr, rfl⟩ := execOnReceiveInterrupt_next hx
    obtain ⟨⟨_, _, _, rfl⟩, hthr⟩ := regRead_frame hr
    exact fun w hw hput => hthr.trans (h w hw hput)
  case readOneByte hx =>
    obtain ⟨_, -, -, -, rfl⟩ := execReadOneByte_next hx
    exact h
  case cancel hx =>
    obtain ⟨-, rfl⟩ := execCancel_next hx
    exact h
  case readLossCounter hx =>
    obtain ⟨_, -, -, -, rfl⟩ := execReadLossCounter_next hx
    exact h
  case detachEnd c on _ =>
    obtain ⟨-, ht⟩ | ⟨-, -, ht⟩ | ⟨-, -, ht⟩ := resumeDetach_cases c on s
    all_goals
      rw [ht]
      exact h
  case outsideEveryCall => exact h
  case dequeue c =>
    obtain ⟨_, _, _, _, _, ht⟩ := dequeueStep_frame c s
    exact ht ▸ h
  case interrupted c =>
    obtain ⟨_, _, _, _, _, ht⟩ := interruptedStep_frame c s
    exact ht ▸ h
  case lock c =>
    obtain ⟨_, _, _, _, _, ht⟩ := lockStep_frame c s
    exact ht ▸ h
  case takeLocked c =>
    obtain ⟨_, _, _, _, _, ht⟩ := takeLockedStep_frame c s
    exact ht ▸ h
  case irqEnter =>
    unfold irqEnterStep
    split
    all_goals exact h
  case irqStep hx =>
    obtain ⟨⟨_, _, _, _, _, rfl⟩, hthr, -⟩ := irqStep_frame hx
    exact fun w hw hput => hthr.trans (h w hw hput)
  case lineTx =>
    obtain ht | ⟨_, -, -, ht⟩ := lineTxStep_cases s
    all_goals rw [ht]
    · exact h
    · exact fun _ _ _ => rfl
  case lineRx =>
    obtain ⟨_, _, _, ht⟩ := lineRxStep_frame s
    exact ht ▸ h
  case envAttach => exact h

/-- Settles O30: only a put on an occupied holding register could fault, and every turn keeps that none comes. -/
theorem noOverrunUnderTheHostDuty : Obligations.NoOverrunUnderTheHostDuty := by
  intro s hwf hone hn hsel hd h
  refine ⟨fun f hf => ?_, fun t hs => ?_⟩
  · obtain ⟨w, hw, hput, hoccupied⟩ := step_eq_fault hwf hn hd hf
    exact hoccupied (h w hw hput)
  · obtain ⟨q, ht⟩ := step_turn hs
    exact PutReady.turn (s := { s with sched := q }) h ht hwf hone hn hsel hd

end Sys2Proof.Machine
end

section
/-! PROOFS. Transmit path (42_transmit.md): a whole transmit, its context and LINE_TX taking turns (R151, R153, R156, R157, R158). -/

namespace Sys2Proof.Machine

/-! ## What is still to be sent -/

/-- The bytes a call has still to put: the byte at its index, with its second copy where that is still to come, then what the rest of the
buffer puts on the line (R151, R158). -/
def toSend (cfg : Config) (w : PendingWrite) : List Byte :=
  match w.txBuf.drop w.txIdx with
  | [] => []
  | b :: rest => (if copyToCome cfg w b then [b, b] else [b]) ++ lineBytes cfg rest

/-- At an index whose first copy is still to come, that is what the buffer from there on puts on the line (R158). -/
theorem toSend_of_not_dup {cfg : Config} {w : PendingWrite} (h : w.txDup = false) :
    toSend cfg w = lineBytes cfg (w.txBuf.drop w.txIdx) := by
  rw [toSend]
  cases w.txBuf.drop w.txIdx <;> simp [lineBytes, copyToCome, h]

/-- With nothing to send the index is at the end (R151). -/
theorem end_of_toSend_nil {cfg : Config} {w : PendingWrite} (h : toSend cfg w = []) : w.txBuf.length ≤ w.txIdx := by
  rw [toSend] at h
  split at h
  · exact List.drop_eq_nil_iff.mp ‹_›
  · split at h <;> cases h

/-- The first byte to send is the one at the index, and after its put the others are to be sent (R151, R158). -/
theorem toSend_cons {cfg : Config} {w : PendingWrite} {b : Byte} {bs : List Byte} (h : toSend cfg w = b :: bs) :
    w.txBuf[w.txIdx]? = some b ∧ toSend cfg (afterPut cfg w b) = bs := by
  rw [toSend] at h
  split at h
  · cases h
  · rename_i x rest hdrop
    have hx : w.txBuf[w.txIdx]? = some x := by rw [← List.head?_drop, hdrop, List.head?_cons]
    have hrest : w.txBuf.drop (w.txIdx + 1) = rest := by rw [← List.tail_drop, hdrop, List.tail_cons]
    cases hcopy : copyToCome cfg w x <;> rw [hcopy] at h <;> cases h
    · refine ⟨hx, ?_⟩
      rw [afterPut_of_last hcopy, toSend_of_not_dup rfl, hrest]
      rfl
    · refine ⟨hx, ?_⟩
      rw [afterPut_of_copy hcopy, toSend]
      simp [hdrop, copyToCome]

/-! ## The turns of one byte -/

/-- What a whole transmit relies on: the configured transmitter with its holding register empty, and no other call of the context
(R138, R209). -/
abbrev TransmitterReady (s : State) (c : Nat) : Prop :=
  s.hdl.life = .attached ∧ dlab s = false ∧ s.dev.mdr = s.cfg.mdrNormal ∧ s.dev.thr = none ∧
  s.calls.find? (fun k => k.ctx == c) = none

/-- From `s` to `t` the bytes `sent` have gone to the line and `log` to the poll log, the holding register holds `thr`, and of the one call
`w` is left; the rest of the device, the parameters, the handle, the ring, the other calls and the answers are as they were. -/
abbrev SentFrom (sent : List Byte) (log : List PollEntry) (thr : Option Byte) (w : PendingWrite) (s t : State) : Prop :=
  t.cfg = s.cfg ∧ t.hdl = s.hdl ∧ t.calls = s.calls ∧ t.dev = { s.dev with thr := thr } ∧ t.ring = s.ring ∧ t.answers = s.answers ∧
  t.line.txLine = s.line.txLine ++ sent ∧ t.obs.pollLog = s.obs.pollLog ++ log ∧ t.writes = [w]

/-- Before the first poll of a byte the bound is not reached: it is at least 1 (R7, R154). -/
theorem pollLimitReached_zero {cfg : Config} (hwf : cfg.wf = true) : ¬ pollLimitReached cfg 0 = true := by
  rw [pollLimitReached_iff]
  rintro ⟨l, hlimit, hle⟩
  simp only [Config.wf, Config.boundsOk, hlimit, Bool.and_eq_true, decide_eq_true_eq] at hwf
  omega

section
variable {s t : State} {w : PendingWrite} {b : Byte} {sent : List Byte} {log : List PollEntry} {thr : Option Byte} {rest : List Event}

/-- The turn of the context is the next step of the one call (R151). -/
theorem SentFrom.step_eq (ht : SentFrom sent log thr w s t) (hready : TransmitterReady s w.ctx)
    (hinputs : t.sched.inputs = .resume w.ctx :: rest) : step t = transmitStep w (turnOf (.resume w.ctx) rest t) := by
  obtain ⟨-, -, hcalls, -, -, -, -, -, honly⟩ := ht
  obtain ⟨-, -, -, -, houtside⟩ := hready
  exact step_transmit hinputs (by rw [hcalls, houtside]) (by simp [honly])

/-- The register window of the call's handle is open, and the latch is clear (R100, R45). -/
theorem SentFrom.window (ht : SentFrom sent log thr w s t) (hready : TransmitterReady s w.ctx) (hhandle : w.handle = s.hdl.id) :
    windowOpen w.handle t = true ∧ dlab t = false := by
  obtain ⟨hcfg, hhdl, -, hdev, -⟩ := ht
  obtain ⟨hlife, hclear, -⟩ := hready
  refine ⟨windowOpen_of_attached ?_, ?_⟩
  · rw [hhandle, ← hhdl, lifeOf_self, hhdl, hlife]
  · rw [dlab, hcfg, hdev]
    exact hclear

section
variable (hwf : s.cfg.wf = true) (hready : TransmitterReady s w.ctx) (hhandle : w.handle = s.hdl.id)
  (hb : w.txBuf[w.txIdx]? = some b) (hinputs : t.sched.inputs = .resume w.ctx :: rest) (ht : SentFrom sent log none w s t)
include hwf hready hhandle hb hinputs ht

/-- The first poll of a byte finds the holding register empty, and the put comes next (R151, R152). -/
theorem SentFrom.poll (hphase : w.txPhase = .poll) (hpolls : w.txPolls = 0) :
    ∃ u, step t = .next u ∧ SentFrom sent (log ++ [.poll (zext32 s.cfg.lsrThre)]) none { w with txPhase := .put } s u ∧
      u.sched.inputs = rest := by
  obtain ⟨hopen, hclear⟩ := ht.window hready hhandle
  have hstep := ht.step_eq hready hinputs
  obtain ⟨hcfg, hhdl, hcalls, hdev, hring, hanswers, hline, hlog, honly⟩ := ht
  obtain ⟨-, -, -, -, hlsr, -⟩ := select_clear hwf
  have hthre : thre (turnOf (.resume w.ctx) rest t) = true := by simp [thre, hdev]
  have hmore : ¬ pollLimitReached t.cfg w.txPolls = true := by
    rw [hcfg, hpolls]
    exact pollLimitReached_zero hwf
  rw [transmitStep_of_poll hb hphase, if_neg hmore, pollStep_eq (s := turnOf _ rest t) (hcfg ▸ hwf) hopen (hcfg ▸ hclear.symm ▸ hlsr),
    hthre] at hstep
  refine ⟨_, hstep.trans (congrArg _ (setWrite_single honly)), ⟨hcfg, hhdl, hcalls, hdev, hring, hanswers, hline, ?_, rfl⟩, rfl⟩
  simp [State.logPoll, hlog, hcfg]

/-- The put fills the holding register (R151, R153, R158). -/
theorem SentFrom.put (hphase : w.txPhase = .put) :
    ∃ u, step t = .next u ∧ SentFrom sent (log ++ [.put b]) (some b) (afterPut s.cfg w b) s u ∧ u.sched.inputs = rest := by
  obtain ⟨hopen, hclear⟩ := ht.window hready hhandle
  have hstep := ht.step_eq hready hinputs
  obtain ⟨hcfg, hhdl, hcalls, hdev, hring, hanswers, hline, hlog, honly⟩ := ht
  obtain ⟨hdata, -⟩ := select_clear hwf
  rw [transmitStep_of_put hb hphase,
    putStep_of_empty (s := turnOf _ rest t) hopen (hcfg ▸ hclear.symm ▸ hdata) (by rw [hdev])] at hstep
  refine ⟨_, hstep.trans (congrArg _ (setWrite_single honly)), ⟨hcfg, hhdl, hcalls, ?_, hring, hanswers, hline, ?_, ?_⟩, rfl⟩
  · simp [hdev]
  · simp [hlog]
  · rw [← hcfg]

end

/-- LINE_TX's turn moves the byte to the line (R156). -/
theorem SentFrom.lineTx (ht : SentFrom sent log (some b) w s t) (hready : TransmitterReady s w.ctx)
    (hinputs : t.sched.inputs = .lineTx :: rest) :
    ∃ u, step t = .next u ∧ SentFrom (sent ++ [b]) log none w s u ∧ u.sched.inputs = rest := by
  obtain ⟨hcfg, hhdl, hcalls, hdev, hring, hanswers, hline, hlog, honly⟩ := ht
  obtain ⟨-, -, hmode, -⟩ := hready
  have hstep : step t = .next (lineTxStep (turnOf .lineTx rest t)) := step_inputs hinputs
  rw [lineTxStep_of_enabled (s := turnOf .lineTx rest t) (b := b) (by rw [hdev]) (by rw [hdev, hcfg]; exact hmode)] at hstep
  refine ⟨_, hstep, ⟨hcfg, hhdl, hcalls, ?_, hring, hanswers, ?_, hlog, honly⟩, rfl⟩
  · simp [hdev]
  · simp [hline]

end

/-! ## The whole transmit -/

/-- What the poll log gains when the bytes `bs` are sent, each at its first poll (R151, R153). -/
def readyPolls (cfg : Config) (bs : List Byte) : List PollEntry :=
  (bs.map fun b => [PollEntry.poll (zext32 cfg.lsrThre), .put b]).flatten

/-- One byte more. -/
theorem readyPolls_append (cfg : Config) (bs : List Byte) (b : Byte) :
    readyPolls cfg (bs ++ [b]) = readyPolls cfg bs ++ [.poll (zext32 cfg.lsrThre)] ++ [.put b] := by
  simp [readyPolls]

/-- A call of context `c` on handle `h` is at the start of its next copy, or at the end of its buffer (R151). -/
abbrev AtPoll (c h : Nat) (w : PendingWrite) : Prop := w.ctx = c ∧ w.handle = h ∧ w.txPhase = .poll ∧ w.txPolls = 0

/-- After a put the call is there again, with the same buffer (R151). -/
theorem AtPoll.afterPut {c h : Nat} {w : PendingWrite} (hw : AtPoll c h w) (cfg : Config) (b : Byte) :
    AtPoll c h (afterPut cfg w b) ∧ (Machine.afterPut cfg w b).txBuf = w.txBuf := by
  obtain ⟨hctx, hhandle, -⟩ := hw
  exact ⟨⟨hctx, hhandle, rfl, rfl⟩, rfl⟩

section
variable {s : State} {c : Nat} {rest : List Event} (hready : TransmitterReady s c)
include hready

/-- The bytes `bs` are on the line, each put right after a poll that saw THRE, the call of context `c` has returned `n`, and the device and
the ring are as they were (R151, R153, D28). -/
abbrev Delivered (bs : List Byte) (n c : Nat) (s t : State) : Prop :=
  t.line.txLine = s.line.txLine ++ bs ∧ t.answers = s.answers ++ [(.host c, .count n)] ∧
  t.obs.pollLog = s.obs.pollLog ++ readyPolls s.cfg bs ∧ t.writes = [] ∧ t.dev = s.dev ∧ t.ring = s.ring

/-- At the end of the buffer the next turn of the call returns its length (R151, D28). -/
theorem SentFrom.finish {t : State} {w : PendingWrite} {sent : List Byte} (ht : SentFrom sent (readyPolls s.cfg sent) none w s t)
    (hctx : w.ctx = c) (hend : w.txBuf.length ≤ w.txIdx) (hinputs : t.sched.inputs = .resume c :: rest) :
    ∃ u, step t = .next u ∧ Delivered sent w.txBuf.length c s u ∧ u.sched.inputs = rest := by
  subst hctx
  have hstep := ht.step_eq hready hinputs
  obtain ⟨-, -, -, hdev, hring, hanswers, hline, hlog, honly⟩ := ht
  obtain ⟨-, -, -, hempty, -⟩ := hready
  rw [transmitStep_of_end hend] at hstep
  refine ⟨_, hstep, ⟨hline, ?_, hlog, ?_, ?_, hring⟩, rfl⟩
  · simp [hanswers]
  · simp [honly]
  · rw [finishWrite_dev, hdev, ← hempty]

variable (hwf : s.cfg.wf = true)
include hwf

/-- Two turns of the call and one of LINE_TX send the next byte (R151, R153, R156). -/
theorem SentFrom.nextByte {t : State} {w : PendingWrite} {b : Byte} {sent : List Byte}
    (ht : SentFrom sent (readyPolls s.cfg sent) none w s t) (hw : AtPoll c s.hdl.id w) (hb : w.txBuf[w.txIdx]? = some b)
    (hinputs : t.sched.inputs = .resume c :: .resume c :: .lineTx :: rest) :
    ∃ u, (∀ k, Host.Core.run core (k + 3) t = Host.Core.run core k u) ∧
      SentFrom (sent ++ [b]) (readyPolls s.cfg (sent ++ [b])) none (afterPut s.cfg w b) s u ∧ u.sched.inputs = rest := by
  obtain ⟨rfl, hhandle, hphase, hpolls⟩ := hw
  obtain ⟨t₁, hpoll, ht₁, hinputs₁⟩ := ht.poll hwf hready hhandle hb hinputs hphase hpolls
  obtain ⟨t₂, hput, ht₂, hinputs₂⟩ := SentFrom.put (w := { w with txPhase := .put }) hwf hready hhandle hb hinputs₁ ht₁ rfl
  obtain ⟨u, hline, hu, hrest⟩ := SentFrom.lineTx ht₂ hready hinputs₂
  rw [readyPolls_append]
  exact ⟨u, fun k => (run_succ hpoll _).trans ((run_succ hput _).trans (run_succ hline _)), hu, hrest⟩

/-- From any point of a call, the turns for the bytes still to be sent and one more deliver them (R151, R156, R158). -/
theorem run_toSend (bs : List Byte) :
    ∀ (sent : List Byte) (w : PendingWrite) (t : State), toSend s.cfg w = bs → AtPoll c s.hdl.id w →
      SentFrom sent (readyPolls s.cfg sent) none w s t →
      t.sched.inputs = (List.replicate bs.length [Event.resume c, .resume c, .lineTx]).flatten ++ (.resume c :: rest) →
      ∃ u, Host.Core.run core (3 * bs.length + 1) t = .next u ∧ Delivered (sent ++ bs) w.txBuf.length c s u ∧ u.sched.inputs = rest := by
  induction bs with
  | nil =>
    intro sent w t hbs hw ht hinputs
    obtain ⟨u, hstep, hu, hrest⟩ := ht.finish hready hw.1 (end_of_toSend_nil hbs) hinputs
    exact ⟨u, run_succ hstep 0, by rwa [List.append_nil], hrest⟩
  | cons b bs ih =>
    intro sent w t hbs hw ht hinputs
    obtain ⟨hb, hbs'⟩ := toSend_cons hbs
    obtain ⟨hw', hbuf⟩ := hw.afterPut s.cfg b
    obtain ⟨u, hrun, hu, hinputs'⟩ := ht.nextByte hready hwf hw hb hinputs
    obtain ⟨v, hrun', hv, hrest⟩ := ih _ _ u hbs' hw' hu hinputs'
    rw [List.append_assoc, List.singleton_append, hbuf] at hv
    exact ⟨v, (hrun _).trans hrun', hv, hrest⟩

end

/-- Settles O32: the call at its start has the whole buffer to send, and nothing has been sent yet. -/
theorem transmitDeliversEveryBuffer : Obligations.TransmitDeliversEveryBuffer := by
  intro s c buf rest hwf hlife hclear hmode hempty houtside honly hinputs
  have hstart : SentFrom [] [] none _ s s :=
    ⟨rfl, rfl, rfl, by rw [← hempty], rfl, rfl, (List.append_nil _).symm, (List.append_nil _).symm, honly⟩
  obtain ⟨t, hrun, ⟨hline, hanswers, hlog, hwrites, hdev, hring⟩, hrest⟩ :=
    run_toSend ⟨hlife, hclear, hmode, hempty, houtside⟩ hwf _ [] _ s (toSend_of_not_dup rfl) ⟨rfl, rfl, rfl, rfl⟩ hstart hinputs
  exact ⟨t, hrun, hline, hanswers, hlog, hwrites, hdev, hring, hrest⟩

end Sys2Proof.Machine
end

section
/-! PROOFS. Frame of the block-level operations at their request (R151, R201, R204, R208, R209, R220, R223). -/

namespace Sys2Proof.Machine

/-- Settles O59: each of the six operations writes its own one or two parts of the state, and every clause about a part leaves out the
operations that write it. -/
theorem operationsLeaveTheDeviceAlone : Obligations.OperationsLeaveTheDeviceAlone := by
  intro s t i hreg hother hx
  cases i
  case lineConfigure h => exact absurd rfl (hother h).1
  case onReceiveInterrupt h => exact absurd rfl (hother h).2
  case attach base clockHz irqLine =>
    obtain ⟨_, -, -, ⟨-, rfl⟩ | ⟨-, -, rfl⟩⟩ := execAttach_next hx
    all_goals exact ⟨rfl, fun _ => rfl, fun _ _ => rfl, fun _ => rfl, fun hne => absurd rfl (hne base clockHz irqLine)⟩
  case detach h =>
    obtain ⟨_, -, -, -, -, -, rfl⟩ := execDetach_next hx
    exact ⟨rfl, fun hne => absurd rfl (hne h), fun _ _ => rfl, fun _ => rfl, fun _ hne => absurd rfl (hne h)⟩
  case transmitBytes h buf =>
    obtain ⟨_, -, -, -, rfl⟩ := execTransmitBytes_next hx
    exact ⟨rfl, fun _ => rfl, fun _ _ => rfl, fun hne => absurd rfl (hne h buf), fun _ _ => rfl⟩
  case readOneByte h =>
    obtain ⟨_, -, -, -, rfl⟩ := execReadOneByte_next hx
    exact ⟨rfl, fun _ => rfl, fun hne => absurd rfl (hne h), fun _ => rfl, fun _ _ => rfl⟩
  case cancel h c =>
    obtain ⟨-, rfl⟩ := execCancel_next hx
    exact ⟨rfl, fun _ => rfl, fun _ hne => absurd rfl (hne h c), fun _ => rfl, fun _ _ => rfl⟩
  case readLossCounter =>
    obtain ⟨_, -, -, -, rfl⟩ := execReadLossCounter_next hx
    exact ⟨rfl, fun _ => rfl, fun _ _ => rfl, fun _ => rfl, fun _ _ => rfl⟩
  all_goals cases hreg

end Sys2Proof.Machine
end

section
/-! PROOFS. Receive buffer (43_receive_buffer.md): the cursors' arithmetic (R170, R171), and the moves a turn can make on the receive side
(R173, R175, R176, R177, R182). -/

namespace Sys2Proof.Machine

/-! ## Cursors modulo N -/

section
variable {n r w v x : Nat}

/-- The next cursor is one up, or 0 at the end of the ring (R171). -/
theorem cursorNext_cases (hx : x < n) : (x + 1 < n ∧ cursorNext n x = x + 1) ∨ (x + 1 = n ∧ cursorNext n x = 0) := by
  obtain hlt | heq := Nat.lt_or_eq_of_le (Nat.succ_le_of_lt hx)
  · exact .inl ⟨hlt, Nat.mod_eq_of_lt hlt⟩
  · exact .inr ⟨heq, (congrArg (· % n) heq).trans (Nat.mod_self n)⟩

/-- The next cursor is in range (R170 INV1, R171). -/
theorem cursorNext_lt (hx : x < n) : cursorNext n x < n := Nat.mod_lt _ (by omega)

/-- Two cursors with the same next one are the same (R171). -/
theorem cursorNext_inj (hx : x < n) (hv : v < n) (h : cursorNext n x = cursorNext n v) : x = v := by
  have := cursorNext_cases hx
  have := cursorNext_cases hv
  omega

/-- The distance is what leads from one cursor to the other, at most once around the ring (R38). -/
theorem cursorDistance_cases (hr : r < n) (hw : w < n) :
    cursorDistance n r w < n ∧ (r + cursorDistance n r w = w ∨ r + cursorDistance n r w = w + n) := by
  have hlt : cursorDistance n r w < n := Nat.mod_lt _ (by omega)
  refine ⟨hlt, ?_⟩
  obtain hlt | hle := Nat.lt_or_ge w r
  · have h : cursorDistance n r w = w + n - r := Nat.mod_eq_of_lt (by omega)
    omega
  · have h : cursorDistance n r w = w - r := by
      rw [cursorDistance, Nat.sub_add_comm hle, Nat.add_mod_right, Nat.mod_eq_of_lt (by omega)]
    omega

/-- The distance ends at the later cursor (R38). -/
theorem add_cursorDistance (hr : r < n) (hw : w < n) : (r + cursorDistance n r w) % n = w := by
  obtain ⟨-, h | h⟩ := cursorDistance_cases hr hw
  · rw [h, Nat.mod_eq_of_lt hw]
  · rw [h, Nat.add_mod_right, Nat.mod_eq_of_lt hw]

/-- The slots short of the distance are not the one at the later cursor (R38). -/
theorem add_mod_ne_of_lt_distance {i : Nat} (hr : r < n) (hw : w < n) (hi : i < cursorDistance n r w) : (r + i) % n ≠ w := by
  have hd := cursorDistance_cases hr hw
  obtain hlt | hge := Nat.lt_or_ge (r + i) n
  · rw [Nat.mod_eq_of_lt hlt]
    omega
  · rw [Nat.mod_eq_sub_mod hge, Nat.mod_eq_of_lt (by omega)]
    omega

/-- A publication that does not meet the other cursor makes the distance one longer (R175). -/
theorem cursorDistance_next_write (hr : r < n) (hw : w < n) (h : cursorNext n w ≠ r) :
    cursorDistance n r (cursorNext n w) = cursorDistance n r w + 1 := by
  have := cursorDistance_cases hr hw
  have := cursorDistance_cases hr (cursorNext_lt hw)
  have := cursorNext_cases hw
  omega

/-- Taking a byte makes the distance one shorter (R201 D2). -/
theorem cursorDistance_next_read (hr : r < n) (hw : w < n) (h : w ≠ r) :
    cursorDistance n r w = cursorDistance n (cursorNext n r) w + 1 := by
  have := cursorDistance_cases hr hw
  have := cursorDistance_cases (cursorNext_lt hr) hw
  have := cursorNext_cases hr
  omega

/-- No cursor is farther behind `w` than the one just after it (R37, R172). -/
theorem eq_cursorNext_of_distance_le (hw : w < n) (hv : v < n)
    (h : cursorDistance n (cursorNext n w) w ≤ cursorDistance n v w) : v = cursorNext n w := by
  have := cursorDistance_cases hv hw
  have := cursorDistance_cases (cursorNext_lt hw) hw
  have := cursorNext_cases hw
  omega

/-- The slots counted from the next cursor are those counted from this one, one later (R171). -/
theorem cursorNext_add_mod (n r i : Nat) : (cursorNext n r + i) % n = (r + (i + 1)) % n := by
  rw [cursorNext, Nat.mod_add_mod, Nat.add_assoc, Nat.add_comm 1 i]

end

/-! ## The moves of the receive side -/

/-- No answer of a byte has been added. -/
abbrev AnswersNoByte (s t : State) : Prop := ∀ a b, t.answers ≠ s.answers ++ [(a, .byte b)]

/-- Where the answers are the same, none has been added. -/
theorem answersNoByte_of_same {s t : State} (h : t.answers = s.answers) : AnswersNoByte s t := by
  simp [AnswersNoByte, h]

/-- The ring is as it was, no reader has been given a byte, and the handler is where it was or has got to E1 or past it (R173, R174). -/
abbrev LeavesRing (s t : State) : Prop :=
  t.cfg = s.cfg ∧ t.ring = s.ring ∧ (t.irqPhase = s.irqPhase ∨ t.irqPhase = .entered ∨ ∃ b, t.irqPhase = .got b) ∧
  AnswersNoByte s t

/-- A turn that touches none of the four parts leaves the ring. -/
theorem leavesRing_of_same {s t : State}
    (h : (t.cfg, t.ring, t.irqPhase, t.answers) = (s.cfg, s.ring, s.irqPhase, s.answers)) : LeavesRing s t := by
  simp only [Prod.mk.injEq] at h
  obtain ⟨hcfg, hring, hphase, hanswers⟩ := h
  exact ⟨hcfg, hring, .inl hphase, answersNoByte_of_same hanswers⟩

/-- So does a turn that answers something other than a byte. -/
theorem leavesRing_of_reply {s t : State} {a : Agent} {x : Answer}
    (h : (t.cfg, t.ring, t.irqPhase, t.answers) = (s.cfg, s.ring, s.irqPhase, s.answers ++ [(a, x)])) (hx : ∀ b, x ≠ .byte b) :
    LeavesRing s t := by
  simp only [Prod.mk.injEq] at h
  obtain ⟨hcfg, hring, hphase, hanswers⟩ := h
  refine ⟨hcfg, hring, .inl hphase, fun a' b hb => ?_⟩
  rw [hanswers, List.append_cancel_left_eq] at hb
  cases hb
  exact hx b rfl

/-- So does a turn in which the handler is entered or reads its byte (R173, R174). -/
theorem leavesRing_of_entry {s t : State} (h : (t.cfg, t.ring, t.answers) = (s.cfg, s.ring, s.answers))
    (hphase : t.irqPhase = .entered ∨ ∃ b, t.irqPhase = .got b) : LeavesRing s t := by
  simp only [Prod.mk.injEq] at h
  obtain ⟨hcfg, hring, hanswers⟩ := h
  exact ⟨hcfg, hring, .inr hphase, answersNoByte_of_same hanswers⟩

/-- What a turn can be on the receive side: E2's drop, E2's store, E3, a consumer's taking of a byte, the two lines of A3 that start the ring
and idle the handler, or a turn that leaves the ring. -/
inductive ReceiveMove (s : State) : Event → State → Prop where
  | other {e t} : LeavesRing s t → ReceiveMove s e t
  | drop {b} : s.irqPhase = .got b → cursorNext s.cfg.ringSlots s.ring.writeIndex = observedRead s →
      ReceiveMove s .irqStep { s.drew with
        ring := { s.ring with loss := s.ring.loss + 1, readSeen := [s.ring.readIndex] }
        irqPhase := .idle }
  | store {b} : s.irqPhase = .got b → cursorNext s.cfg.ringSlots s.ring.writeIndex ≠ observedRead s →
      ReceiveMove s .irqStep { s.drew with
        ring := { s.ring with buf := Memory.write s.ring.writeIndex b s.ring.buf, readSeen := [s.ring.readIndex] }
        irqPhase := .stored (cursorNext s.cfg.ringSlots s.ring.writeIndex) }
  | publish {n} : s.irqPhase = .stored n → ReceiveMove s .irqStep (handlerPublish n s)
  | take {e c} : e = .dequeue c ∨ e = .takeLocked c → (consumerOf c s).isSome = true → notEmpty s = true → s.hdl.life = .attached →
      ReceiveMove s e (takeByte c s)
  | startRing {c a} : s.calls.find? (fun k => k.ctx == c) = some { ctx := c, kind := .attach a } → a.line = .emptyRing →
      ReceiveMove s (.resume c) (attachEmptyRing c a s)
  | idleHandler {c a} : s.calls.find? (fun k => k.ctx == c) = some { ctx := c, kind := .attach a } → a.line = .emptyContexts →
      ReceiveMove s (.resume c) (attachEmptyContexts c a s)

/-- E1, E2 and E3 (R173). -/
theorem irqStep_receiveMove {s t : State} (h : irqStep s = .next t) : ReceiveMove s .irqStep t := by
  obtain ⟨-, rfl⟩ | ⟨-, v, _, hr, rfl⟩ | ⟨b, hp, rfl⟩ | ⟨_, hp, rfl⟩ := irqStep_next h
  · exact .other (leavesRing_of_same rfl)
  · obtain ⟨⟨_, _, _, rfl⟩, -⟩ := regRead_frame hr
    exact .other (leavesRing_of_entry rfl (.inr ⟨_, rfl⟩))
  · obtain ⟨hfull, ht⟩ | ⟨hroom, ht⟩ := handlerStore_cases (observedRead s) b s.drew
    · exact ht ▸ .drop hp hfull
    · exact ht ▸ .store hp hroom
  · exact .publish hp

/-- A context outside every read takes nothing (R201). -/
theorem takeLockedStep_of_outside {c : Nat} {s : State} (h : consumerOf c s = none) : takeLockedStep c s = s := by
  simp [takeLockedStep, h]

/-- D2 takes a byte from a ring that is not empty, on an ATTACHED handle, or leaves the ring (R201). -/
theorem dequeueStep_receiveMove (c : Nat) (s : State) : ReceiveMove s (.dequeue c) (dequeueStep c s) := by
  obtain ⟨-, ht⟩ | ⟨hd, ht⟩ := dequeueStep_cases c s
  all_goals rw [ht]
  · exact .other (leavesRing_of_same rfl)
  · obtain ⟨⟨r, hr, -⟩, -, -, hlife⟩ := dequeueEnabled_iff.mp hd
    have hne : notEmpty s = true := (Bool.and_eq_true_iff.mp hd).2
    exact .take (.inl rfl) (by rw [hr, Option.isSome_some]) hne hlife

/-- So does the taking under the lock, the finer grain of D2 (R201, log 22). -/
theorem takeLockedStep_receiveMove (c : Nat) (s : State) : ReceiveMove s (.takeLocked c) (takeLockedStep c s) := by
  cases hc : consumerOf c s
  case none =>
    rw [takeLockedStep_of_outside hc]
    exact .other (leavesRing_of_same rfl)
  case some =>
    obtain ht | ⟨-, hne, hserved, ht⟩ | ⟨-, -, ht⟩ := takeLockedStep_cases c s
    all_goals rw [ht]
    · exact .other (leavesRing_of_same rfl)
    · exact .take (.inr rfl) (by rw [hc, Option.isSome_some]) hne (beq_iff_eq.mp hserved)
    · exact .other (leavesRing_of_same rfl)

/-- A step of line configuration makes no move on the receive side (R132). -/
theorem lineConfigureStep_leavesRing {s t : State} (h : lineConfigureStep s = .next t) : LeavesRing s t := by
  obtain ⟨_, _, _, _, rfl, -⟩ := lineConfigureStep_frame h
  exact leavesRing_of_same rfl

/-- A later step of LINE_CONFIGURE (R132). -/
theorem resumeLineConfigure_leavesRing {c h : Nat} {s t : State} (hx : resumeLineConfigure c h s = .next t) : LeavesRing s t := by
  obtain rfl | ⟨_, hu, rfl | rfl⟩ := resumeLineConfigure_cases hx
  · exact leavesRing_of_same rfl
  · exact (lineConfigureStep_leavesRing hu :)
  · exact lineConfigureStep_leavesRing hu

/-- A step of a transmit call answers a count or a fault, or nothing (R151, R154). -/
theorem transmitStep_leavesRing {w : PendingWrite} {s t : State} (h : transmitStep w s = .next t) : LeavesRing s t := by
  obtain ⟨-, rfl⟩ | ⟨_, -, ⟨-, -, rfl⟩ | ⟨-, -, hp⟩ | ⟨-, hp⟩⟩ := transmitStep_next h
  · exact leavesRing_of_reply rfl nofun
  · exact leavesRing_of_reply rfl nofun
  · obtain ⟨_, _, hr, ⟨-, rfl⟩ | ⟨-, rfl⟩⟩ := pollStep_next hp
    all_goals
      obtain ⟨⟨_, _, _, rfl⟩, -⟩ := regRead_frame hr
      exact leavesRing_of_same rfl
  · obtain ⟨_, hw, rfl⟩ := putStep_next hp
    obtain ⟨_, _, _, rfl⟩ := regWrite_frame hw
    exact leavesRing_of_same rfl

/-- Of the lines of `attach` one starts the ring and one idles the handler; the others leave both, and answer a handle or an error, or
nothing (R220). -/
theorem resumeAttach_receiveMove {c : Nat} {a : AttachCall} {s t : State}
    (hf : s.calls.find? (fun k => k.ctx == c) = some { ctx := c, kind := .attach a }) (h : resumeAttach c a s = .next t) :
    ReceiveMove s (.resume c) t := by
  cases hl : a.line <;> simp only [resumeAttach, hl, Host.Outcome.next.injEq] at h
  case emptyRing => exact h ▸ .startRing hf hl
  case emptyContexts => exact h ▸ .idleHandler hf hl
  all_goals refine .other ?_
  case testWindow =>
    obtain ht | ⟨-, -, -, ht⟩ := attachTestWindow_cases c a s
    · exact h ▸ ht ▸ leavesRing_of_reply rfl nofun
    · exact h ▸ ht ▸ leavesRing_of_same rfl
  case testIrq =>
    obtain ⟨_, ht⟩ | ⟨-, -, ht⟩ := attachTestIrq_cases c a s
    · exact h ▸ ht ▸ leavesRing_of_reply rfl nofun
    · exact h ▸ ht ▸ leavesRing_of_same rfl
  case configure =>
    obtain ⟨-, rfl⟩ | ⟨-, u, hu, rfl⟩ := attachConfigure_next h
    · exact leavesRing_of_same rfl
    · split
      all_goals exact (lineConfigureStep_leavesRing hu :)
  case giveHandle => exact h ▸ leavesRing_of_reply rfl nofun
  all_goals exact h ▸ leavesRing_of_same rfl

/-- Every turn is one of the moves. -/
theorem Turn.receiveMove {s t : State} {e : Event} (ht : Turn s e t) : ReceiveMove s e t := by
  cases ht
  case attachLine hf hx => exact resumeAttach_receiveMove hf hx
  case dequeue => exact dequeueStep_receiveMove _ s
  case takeLocked => exact takeLockedStep_receiveMove _ s
  case irqStep hx => exact irqStep_receiveMove hx
  all_goals refine .other ?_
  case registerRead hx =>
    obtain ⟨_, _, _, -, -, -, hr, rfl⟩ := hostRead_next hx
    obtain ⟨⟨_, _, _, rfl⟩, -⟩ := regRead_frame hr
    exact leavesRing_of_reply rfl nofun
  case registerWrite hx =>
    obtain ⟨_, _, _, rfl⟩ := hostWrite_frame hx
    exact leavesRing_of_same rfl
  case attach hx =>
    obtain ⟨_, -, -, ⟨-, rfl⟩ | ⟨-, -, rfl⟩⟩ := execAttach_next hx
    · exact leavesRing_of_reply rfl nofun
    · exact leavesRing_of_same rfl
  case detach hx =>
    obtain ⟨_, -, -, -, -, -, rfl⟩ := execDetach_next hx
    exact leavesRing_of_same rfl
  case lineConfigure hx =>
    obtain ⟨_, _, -, -, -, -, hu, rfl⟩ := execLineConfigure_next hx
    exact (lineConfigureStep_leavesRing hu :)
  case transmitBytes hx =>
    obtain ⟨_, -, -, -, rfl⟩ := execTransmitBytes_next hx
    exact leavesRing_of_same rfl
  case onReceiveInterrupt hx =>
    obtain ⟨-, -, -, _, _, hr, rfl⟩ := execOnReceiveInterrupt_next hx
    obtain ⟨⟨_, _, _, rfl⟩, -⟩ := regRead_frame hr
    exact leavesRing_of_entry rfl (.inr ⟨_, rfl⟩)
  case readOneByte hx =>
    obtain ⟨_, -, -, -, rfl⟩ := execReadOneByte_next hx
    exact leavesRing_of_same rfl
  case cancel hx =>
    obtain ⟨-, rfl⟩ := execCancel_next hx
    exact leavesRing_of_same rfl
  case readLossCounter hx =>
    obtain ⟨_, -, -, -, rfl⟩ := execReadLossCounter_next hx
    exact leavesRing_of_reply rfl nofun
  case configureWrite hx => exact resumeLineConfigure_leavesRing hx
  case detachEnd c on _ =>
    obtain ⟨-, ht⟩ | ⟨-, -, ht⟩ | ⟨-, -, ht⟩ := resumeDetach_cases c on s
    all_goals
      rw [ht]
      exact leavesRing_of_same rfl
  case transmit hx => exact transmitStep_leavesRing hx
  case interrupted c =>
    obtain ht | ⟨_, -, -, -, ht⟩ := interruptedStep_cases c s
    all_goals rw [ht]
    · exact leavesRing_of_same rfl
    · exact leavesRing_of_reply rfl nofun
  case lock c =>
    obtain ⟨-, ht⟩ | ⟨-, -, ht⟩ | ⟨-, -, ht⟩ := lockStep_cases c s
    all_goals
      rw [ht]
      exact leavesRing_of_same rfl
  case irqEnter =>
    unfold irqEnterStep
    split
    · exact leavesRing_of_entry rfl (.inl rfl)
    · exact leavesRing_of_same rfl
  case lineTx =>
    obtain ht | ⟨_, -, -, ht⟩ := lineTxStep_cases s
    all_goals
      rw [ht]
      exact leavesRing_of_same rfl
  case lineRx =>
    obtain ⟨_, _, _, ht⟩ := lineRxStep_frame s
    exact ht ▸ leavesRing_of_same rfl
  all_goals exact leavesRing_of_same rfl

/-- What one step can be on the receive side, taken in the state itself but for the scheduling data (R8, R11). -/
theorem step_receiveMove {s t : State} (h : step s = .next t) : ∃ q, ReceiveMove { s with sched := q } (nextEvent s) t := by
  obtain ⟨q, ht⟩ := step_turn h
  exact ⟨q, ht.receiveMove⟩

end Sys2Proof.Machine
end

section
/-! PROOFS. Receive buffer (43_receive_buffer.md): every step keeps the ring's invariant (R69, R71, R170, R175, R176). -/

namespace Sys2Proof.Machine

/-- What the publish step may rely on, spelled out (R69, R71, R175). -/
theorem storedOk_iff {s : State} : storedOk s = true ↔ ∀ n, s.irqPhase = .stored n →
    n = cursorNext s.cfg.ringSlots s.ring.writeIndex ∧ (Memory.read s.ring.writeIndex s.ring.buf).isSome = true ∧
    n ≠ s.ring.readIndex ∧ ∀ v ∈ s.ring.readSeen, n ≠ v := by
  unfold storedOk
  split
  · rename_i n hp
    simp [hp, and_assoc]
  all_goals simp [*]

/-- A stored byte stays stored, whatever is stored after it (R69). -/
theorem Memory.isSome_read_write {m : Memory} {i : Nat} (h : (Memory.read i m).isSome = true) (a : Nat) (b : Byte) :
    (Memory.read i (Memory.write a b m)).isSome = true := by
  by_cases hi : i = a
  · rw [hi, Memory.read_write_same, Option.isSome_some]
  · rwa [Memory.read_write_other hi]

/-- The value of `read_index` that E2 sees is in range, and makes the ring look no emptier than it is (R71, R176). -/
theorem RingInv.observedRead_distance {s : State} (h : RingInv s) : observedRead s < s.cfg.ringSlots ∧
    ringCount s ≤ cursorDistance s.cfg.ringSlots (observedRead s) s.ring.writeIndex := by
  obtain ⟨-, -, hr, -, -, -, hseen, -⟩ := h
  obtain hmem | heq := observedRead_mem s
  · exact hseen _ hmem
  · rw [heq]
    exact ⟨hr, le_rfl⟩

/-- Where the ring is full, E2 sees that it is, however old its view of `read_index` (R71, R176). -/
theorem RingInv.observedRead_of_full {s : State} (h : RingInv s) (hfull : cursorNext s.cfg.ringSlots s.ring.writeIndex = s.ring.readIndex) :
    observedRead s = cursorNext s.cfg.ringSlots s.ring.writeIndex := by
  obtain ⟨hlt, hle⟩ := h.observedRead_distance
  obtain ⟨-, hw, -⟩ := h
  rw [ringCount, ← hfull] at hle
  exact eq_cursorNext_of_distance_le hw hlt hle

section
variable {s : State} (h : RingInv s)
include h

/-- The same ring, and no cursor about to be published that was not so before (R170). -/
theorem RingInv.sameRing {t : State} (hcfg : t.cfg = s.cfg) (hring : t.ring = s.ring)
    (hphase : ∀ n, t.irqPhase = .stored n → s.irqPhase = .stored n) : RingInv t := by
  obtain ⟨hn, hw, hr, hwf, hin, hheld, hseen, hpub, hlast, hok⟩ := h
  have hok' : storedOk t = true := by
    rw [storedOk_iff, hcfg, hring]
    exact fun n hp => storedOk_iff.mp hok n (hphase n hp)
  simp only [RingInv, ringCount, hcfg, hring]
  exact ⟨hn, hw, hr, hwf, hin, hheld, hseen, hpub, hlast, hok'⟩

/-- A turn that leaves the ring. -/
theorem RingInv.other {t : State} (ht : LeavesRing s t) : RingInv t := by
  obtain ⟨hcfg, hring, hsame | hentered | ⟨_, hgot⟩, -⟩ := ht
  · exact h.sameRing hcfg hring fun _ hp => hsame ▸ hp
  · exact h.sameRing hcfg hring fun _ hp => absurd (hentered.symm.trans hp) nofun
  · exact h.sameRing hcfg hring fun _ hp => absurd (hgot.symm.trans hp) nofun

/-- The producer has loaded `read_index`, so it sees nothing older (R71). -/
theorem RingInv.seesCurrent : ∀ v ∈ [s.ring.readIndex],
    v < s.cfg.ringSlots ∧ ringCount s ≤ cursorDistance s.cfg.ringSlots v s.ring.writeIndex := by
  obtain ⟨-, -, hr, -⟩ := h
  simpa [ringCount] using hr

/-- E2 drops (R176). -/
theorem RingInv.drop (q : Scheduling) : RingInv { s with
    ring := { s.ring with loss := s.ring.loss + 1, readSeen := [s.ring.readIndex] }
    irqPhase := .idle
    sched := q } := by
  have hseen := h.seesCurrent
  obtain ⟨hn, hw, hr, hwf, hin, hheld, -, hpub, hlast, -⟩ := h
  exact ⟨hn, hw, hr, hwf, hin, hheld, hseen, hpub, hlast, rfl⟩

/-- E2 stores: not into a slot the reader still has, since the ring is not full (R175, R176). -/
theorem RingInv.store (b : Byte) (q : Scheduling) (hroom : cursorNext s.cfg.ringSlots s.ring.writeIndex ≠ observedRead s) :
    RingInv { s with
      ring := { s.ring with buf := Memory.write s.ring.writeIndex b s.ring.buf, readSeen := [s.ring.readIndex] }
      irqPhase := .stored (cursorNext s.cfg.ringSlots s.ring.writeIndex)
      sched := q } := by
  have hseen := h.seesCurrent
  have hnot : cursorNext s.cfg.ringSlots s.ring.writeIndex ≠ s.ring.readIndex := fun hfull => hroom (h.observedRead_of_full hfull).symm
  obtain ⟨hn, hw, hr, hwf, hin, hheld, -, hpub, hlast, -⟩ := h
  refine ⟨hn, hw, hr, Memory.write_wf _ _ _ hwf, fun x hx => ?_, fun i hi => Memory.isSome_read_write (hheld i hi) _ _, hseen, hpub, hlast,
    storedOk_iff.mpr ?_⟩
  · obtain rfl | hx := Memory.mem_write hx
    · exact hw
    · exact hin x hx
  · rintro n hp
    cases hp
    exact ⟨rfl, by rw [Memory.read_write_same, Option.isSome_some], hnot, by simpa using hnot⟩

/-- In phase STORED a publication adds one to the bytes held (R175, R177). -/
theorem RingInv.ringCount_publish {n : Nat} (hp : s.irqPhase = .stored n) : ringCount (handlerPublish n s) = ringCount s + 1 := by
  obtain ⟨-, hw, hr, -, -, -, -, -, -, hok⟩ := h
  obtain ⟨rfl, -, hne, -⟩ := storedOk_iff.mp hok n hp
  exact cursorDistance_next_write hr hw hne

/-- E3 publishes (R177). -/
theorem RingInv.publish {n : Nat} (hp : s.irqPhase = .stored n) : RingInv (handlerPublish n s) := by
  have hcount := h.ringCount_publish hp
  obtain ⟨hn, hw, hr, hwf, hin, hheld, hseen, hpub, hlast, hok⟩ := h
  obtain ⟨rfl, hstored, -, hne⟩ := storedOk_iff.mp hok n hp
  have hnext := cursorNext_lt hw
  refine ⟨hn, hnext, hr, hwf, hin, fun i hi => ?_, fun v hv => ?_, fun p hmem => ?_, by simp [handlerPublish], rfl⟩
  · obtain hlt | rfl := Nat.lt_succ_iff_lt_or_eq.mp (hcount ▸ hi)
    · exact hheld i hlt
    · exact (congrArg (fun k => (Memory.read k s.ring.buf).isSome) (add_cursorDistance hr hw)).trans hstored
  · obtain ⟨hv', hle⟩ := hseen v hv
    rw [hcount]
    exact ⟨hv', (Nat.succ_le_succ hle).trans_eq (cursorDistance_next_write hv' hw (hne v hv)).symm⟩
  · obtain hmem | hmem := List.mem_append.mp hmem
    · exact hpub p hmem
    · rw [List.mem_singleton.mp hmem]
      exact hnext

/-- On a ring that is not empty a taken byte makes the bytes held one fewer (R201 D2). -/
theorem RingInv.ringCount_take (hne : notEmpty s = true) (c : Nat) : ringCount s = ringCount (takeByte c s) + 1 := by
  obtain ⟨-, hw, hr, -⟩ := h
  exact cursorDistance_next_read hr hw (by simpa [notEmpty, ringEmpty] using hne)

/-- A consumer takes a byte: `read_index` does not reach the cursor about to be published, since the ring is not empty (R201 D2). -/
theorem RingInv.take (hne : notEmpty s = true) (c : Nat) : RingInv (takeByte c s) := by
  have hcount := h.ringCount_take hne c
  obtain ⟨hn, hw, hr, hwf, hin, hheld, hseen, hpub, hlast, hok⟩ := h
  have hnext := cursorNext_lt hr
  have hne' : s.ring.writeIndex ≠ s.ring.readIndex := by simpa [notEmpty, ringEmpty] using hne
  refine ⟨hn, hw, hnext, hwf, hin, fun i hi => ?_, fun v hv => ?_, hpub, hlast, storedOk_iff.mpr fun n hp => ?_⟩
  · exact (congrArg (fun k => (Memory.read k s.ring.buf).isSome) (cursorNext_add_mod _ _ i)).trans (hheld (i + 1) (by omega))
  · obtain hv | hv := List.mem_append.mp hv
    · obtain ⟨hv', hle⟩ := hseen v hv
      exact ⟨hv', (by omega : ringCount (takeByte c s) ≤ ringCount s).trans hle⟩
    · rw [List.mem_singleton.mp hv]
      exact ⟨hnext, le_rfl⟩
  · obtain ⟨rfl, hstored, -, hnot⟩ := storedOk_iff.mp hok n hp
    have hapart := fun heq => hne' (cursorNext_inj hw hr heq)
    refine ⟨rfl, hstored, hapart, fun v hv => ?_⟩
    obtain hv | hv := List.mem_append.mp hv
    · exact hnot v hv
    · rw [List.mem_singleton.mp hv]
      exact hapart

/-- `attach` starts the ring while no invocation is in progress (R220). -/
theorem RingInv.startRing (hidle : s.irqPhase = .idle) (c : Nat) (a : AttachCall) : RingInv (attachEmptyRing c a s) := by
  obtain ⟨hn, -⟩ := h
  have hpos : 0 < s.cfg.ringSlots := by omega
  have hcount : cursorDistance s.cfg.ringSlots 0 0 = 0 := by simp [cursorDistance]
  refine ⟨hn, hpos, hpos, rfl, nofun, fun i hi => ?_, fun v hv => ?_, fun p hp => ?_, rfl, storedOk_iff.mpr fun n hp => ?_⟩
  · exact absurd (hcount ▸ hi : i < 0) (Nat.not_lt_zero i)
  · rw [List.mem_singleton.mp hv]
    exact ⟨hpos, le_rfl⟩
  · rw [List.mem_singleton.mp hp]
    exact hpos
  · exact absurd (hidle.symm.trans hp) nofun

end

/-- At a line of A3 that fills in the handle no invocation is in progress (R220, R250). -/
theorem LifeInv.idle_of_fills {s : State} (h : LifeInv s) {c : Nat} {a : AttachCall}
    (hf : s.calls.find? (fun k => k.ctx == c) = some { ctx := c, kind := .attach a }) (hl : a.line.fillsHandle = true) :
    s.irqPhase = .idle := by
  obtain ⟨hhandle, -, -, hok⟩ := lifeInv_iff.mp h
  obtain ⟨hdetached, -⟩ := (callOk_fills hl).mp (hok _ (List.mem_of_find?_eq_some hf))
  exact (hhandle.detached hdetached).2

/-- Every move keeps the ring's invariant. -/
theorem RingInv.move {s t : State} {e : Event} (h : RingInv s) (hlife : LifeInv s) (hm : ReceiveMove s e t) : RingInv t := by
  cases hm
  case other ht => exact h.other ht
  case drop => exact h.drop _
  case store hroom => exact h.store _ _ hroom
  case publish hp => exact h.publish hp
  case take hne _ _ => exact h.take hne _
  case startRing hf hl => exact h.startRing (hlife.idle_of_fills hf (by rw [hl]; rfl)) _ _
  case idleHandler => exact h.sameRing rfl rfl nofun

/-- Settles O39: a step is one of the receive side's moves, and every move keeps the ring's invariant. -/
theorem everyStepKeepsTheRing : Obligations.EveryStepKeepsTheRing := by
  intro s t h hlife hs
  obtain ⟨q, hm⟩ := step_receiveMove hs
  exact RingInv.move (s := { s with sched := q }) h hlife hm

end Sys2Proof.Machine
end

section
/-! PROOFS. Receive buffer (43_receive_buffer.md): the ring is a FIFO queue (R170, R182, R203). -/

namespace Sys2Proof.Machine

/-- A stored slot's content is what is stored in it, of whatever handle the ring is (R21, R69). -/
theorem slotContent_of_read {s : State} {i : Nat} {b : Byte} (h : Memory.read i s.ring.buf = some b) : slotContent s i = b := by
  rw [slotContent, h, Option.getD_some]

/-- A slot that holds the same stored byte in two states has the same content in both (R21). -/
theorem slotContent_congr {s t : State} {i : Nat} (hstored : (Memory.read i s.ring.buf).isSome = true)
    (hread : Memory.read i t.ring.buf = Memory.read i s.ring.buf) : slotContent t i = slotContent s i := by
  obtain ⟨b, hb⟩ := Option.isSome_iff_exists.mp hstored
  rw [slotContent_of_read hb, slotContent_of_read (hread.trans hb)]

/-- With both cursors as they were and every held slot's byte as it was, the bytes held are as they were (R170). -/
theorem RingInv.ringHeld_congr {s t : State} (h : RingInv s) (hcfg : t.cfg = s.cfg) (hr : t.ring.readIndex = s.ring.readIndex)
    (hw : t.ring.writeIndex = s.ring.writeIndex)
    (hread : ∀ i, i ≠ s.ring.writeIndex → Memory.read i t.ring.buf = Memory.read i s.ring.buf) : ringHeld t = ringHeld s := by
  obtain ⟨-, hwlt, hrlt, -, -, hheld, -⟩ := h
  have hcount : ringCount t = ringCount s := by rw [ringCount, hcfg, hr, hw, ringCount]
  rw [ringHeld, hcount, hcfg, hr]
  refine List.map_congr_left fun i hi => ?_
  have hlt : i < ringCount s := List.mem_range.mp hi
  exact slotContent_congr (hheld i hlt) (hread _ (add_mod_ne_of_lt_distance hrlt hwlt hlt))

/-- A consumer takes the oldest of the bytes held (R201 D2, R203). -/
theorem RingInv.ringHeld_take {s : State} (h : RingInv s) (hne : notEmpty s = true) (c : Nat) :
    ringHeld s = slotContent s s.ring.readIndex :: ringHeld (takeByte c s) := by
  have hcount := h.ringCount_take hne c
  obtain ⟨-, -, hr, -⟩ := h
  rw [ringHeld, hcount, List.range_succ_eq_map, List.map_cons, Nat.add_zero, Nat.mod_eq_of_lt hr, List.map_map]
  exact congrArg _ (List.map_congr_left fun i _ => congrArg (slotContent s) (cursorNext_add_mod _ _ i).symm)

/-- A publication adds the stored byte at the end of the bytes held (R175, R177). -/
theorem RingInv.ringHeld_publish {s : State} (h : RingInv s) {n : Nat} {b : Byte} (hp : s.irqPhase = .stored n)
    (hb : Memory.read s.ring.writeIndex s.ring.buf = some b) : ringHeld (handlerPublish n s) = ringHeld s ++ [b] := by
  have hcount := h.ringCount_publish hp
  obtain ⟨-, hw, hr, -⟩ := h
  rw [← slotContent_of_read hb, ringHeld, hcount, List.range_succ, List.map_append, List.map_singleton]
  exact congrArg (fun i => ringHeld s ++ [slotContent s i]) (add_cursorDistance hr hw)

/-- In phase STORED there is a stored byte at `write_index` (R175). -/
theorem RingInv.storedByte {s : State} (h : RingInv s) {n : Nat} (hp : s.irqPhase = .stored n) :
    ∃ b, Memory.read s.ring.writeIndex s.ring.buf = some b := by
  obtain ⟨-, -, -, -, -, -, -, -, -, hok⟩ := h
  obtain ⟨-, hstored, -⟩ := storedOk_iff.mp hok n hp
  exact Option.isSome_iff_exists.mp hstored

/-- A ring just started holds nothing (R220). -/
theorem ringHeld_attachEmptyRing (c : Nat) (a : AttachCall) (s : State) : ringHeld (attachEmptyRing c a s) = [] := by
  have hcount : ringCount (attachEmptyRing c a s) = 0 := by
    show cursorDistance s.cfg.ringSlots 0 0 = 0
    simp [cursorDistance]
  rw [ringHeld, hcount, List.range_zero, List.map_nil]

/-- Settles O40: E3 adds at the end, a consumer takes at the front, `attach` starts an empty ring, and every other move leaves the held bytes
as they are; E2's store is in the slot after them. -/
theorem theRingIsAQueue : Obligations.TheRingIsAQueue := by
  intro s t h hlife hs
  obtain ⟨q, hm⟩ := step_receiveMove hs
  have h' : RingInv { s with sched := q } := h
  generalize he : nextEvent s = e at hm
  cases hm
  case other ht =>
    obtain ⟨hcfg, hring, -, hnone⟩ := ht
    exact .inl ⟨h.ringHeld_congr hcfg (by rw [hring]) (by rw [hring]) fun _ _ => by rw [hring], hnone⟩
  case drop => exact .inl ⟨h.ringHeld_congr rfl rfl rfl fun _ _ => rfl, answersNoByte_of_same rfl⟩
  case store => exact .inl ⟨h.ringHeld_congr rfl rfl rfl fun _ hi => Memory.read_write_other hi _ _, answersNoByte_of_same rfl⟩
  case idleHandler => exact .inl ⟨h.ringHeld_congr rfl rfl rfl fun _ _ => rfl, answersNoByte_of_same rfl⟩
  case publish n hp =>
    obtain ⟨b, hb⟩ := h.storedByte hp
    exact .inr (.inl ⟨n, b, hp, hb, h'.ringHeld_publish hp hb, rfl⟩)
  case take c _ hne hattached _ => exact .inr (.inr (.inl ⟨c, _, hattached, h'.ringHeld_take hne c, rfl⟩))
  case startRing hf hl => exact .inr (.inr (.inr ⟨hl ▸ onAttachLine_of_find he hf, ringHeld_attachEmptyRing _ _ _, rfl⟩))

end Sys2Proof.Machine
end

section
/-! PROOFS. Receive buffer (43_receive_buffer.md): the steps of the handler, E1, E2 and E3 (R173 to R177), and of LINE_RX (R180, R181), each
an equation by its case. -/

namespace Sys2Proof.Machine

/-! ## E1 -/

section
variable {s : State}

/-- The invocation is enabled where the line is high, the handler registered, the handle live and no invocation in progress (R250). -/
theorem canInvoke_iff : canInvoke s = true ↔
    irqLevel s = true ∧ s.hdl.handlerRegistered = true ∧ handleLive s = true ∧ s.irqPhase = .idle := by
  simp [canInvoke, and_assoc]

/-- The register window of a live handle is open to its own handler (R100, R222). -/
theorem windowOpen_of_live (h : handleLive s = true) : windowOpen s.hdl.id s = true := by
  rwa [windowOpen, lifeOf_self]

/-- A live handle, spelled out (R222). -/
theorem handleLive_iff : handleLive s = true ↔ s.hdl.life = .attached ∨ s.hdl.life = .attaching := by
  simp [handleLive, or_comm]

/-- E1 is the read of the register that DATA's offset reaches, logged, and its byte kept (R173, R277). -/
theorem handlerRead_eq {r : Register} {v : Word} {t : State} (hlive : handleLive s = true)
    (hsel : select s.cfg s.cfg.kData (dlab s) = r) (hread : readRegister r (s.logTxn (.read s.cfg.kData r)) = .next (v, t)) :
    handlerRead s = .next { t with irqPhase := .got (low8 v) } := by
  rw [handlerRead, regRead, if_pos (windowOpen_of_live hlive), hsel, hread, andThen_next]

/-- E1 reads the oldest received byte (R174). -/
theorem handlerRead_of_cons {b : Byte} {more : List Byte} (hlive : handleLive s = true)
    (hsel : select s.cfg s.cfg.kData (dlab s) = .data) (hrx : s.dev.rxHw = b :: more) :
    handlerRead s = .next { s.logTxn (.read s.cfg.kData .data) with dev := { s.dev with rxHw := more }, irqPhase := .got b } := by
  rw [handlerRead_eq hlive hsel (readData_of_cons (s := s.logTxn _) hrx), low8_zext32]
  rfl

/-- Where a FIFO clear has emptied the queue E1 reads a free byte (R174, D13). -/
theorem handlerRead_of_nil (hlive : handleLive s = true) (hsel : select s.cfg s.cfg.kData (dlab s) = .data) (hrx : s.dev.rxHw = []) :
    handlerRead s = .next { (s.logTxn (.read s.cfg.kData .data)).drew with irqPhase := .got (low8 (Config.any32 s.sched.draws)) } :=
  handlerRead_eq hlive hsel (readData_of_nil (s := s.logTxn _) hrx)

/-- In the latch window E1 reads DIVISOR_LOW and removes nothing (R277). -/
theorem handlerRead_of_latch (hlive : handleLive s = true) (hlatch : dlab s = true) (hk : s.cfg.kData = s.cfg.kDll) :
    handlerRead s = .next { s.logTxn (.read s.cfg.kData .divisorLow) with irqPhase := .got s.dev.dll } := by
  rw [handlerRead_eq hlive (select_divisorLow hlatch hk) rfl]
  exact congrArg (fun b => Host.Outcome.next { s.logTxn (.read s.cfg.kData .divisorLow) with irqPhase := .got b }) (low8_zext32 _)

/-- By the interrupt context, enabled, the request is the invocation together with E1 (R173, R250, log 23). -/
theorem exec_onReceiveInterrupt (hagent : s.sched.agent = .irq) (hi : canInvoke s = true) :
    exec (.onReceiveInterrupt s.hdl.id) s = handlerRead (enterHandler s) := by
  rw [exec, execOnReceiveInterrupt, hagent]
  exact if_pos ⟨rfl, hi⟩

/-- By the interrupt context, not enabled or on another handle, it is refused (R225, log 24). -/
theorem exec_onReceiveInterrupt_refused {h : Nat} (hagent : s.sched.agent = .irq) (hi : h ≠ s.hdl.id ∨ canInvoke s = false) :
    exec (.onReceiveInterrupt h) s = .refused .interruptNotEnabled := by
  rw [exec, execOnReceiveInterrupt, hagent]
  refine if_neg ?_
  rintro ⟨hid, hc⟩
  simp [hid, hc] at hi

/-- From any other context it is refused (R173). -/
theorem exec_onReceiveInterrupt_wrongContext (h : Nat) (hagent : s.sched.agent ≠ .irq) :
    exec (.onReceiveInterrupt h) s = .refused .wrongContext := by
  rw [exec, execOnReceiveInterrupt]
  split
  · exact absurd ‹_› hagent
  all_goals rfl

end

/-- The handler's turn is its next step (R173). -/
theorem step_irqStep {s : State} {rest : List Event} (h : s.sched.inputs = .irqStep :: rest) :
    step s = irqStep (turnOf .irqStep rest s) := step_inputs h

/-- Settles O33: the request and the position `entered` both come to E1, which reads what DATA's offset reaches; where the invocation is not
enabled the request is refused and the entry has no step. -/
theorem theHandlerReadsOneByte : Obligations.TheHandlerReadsOneByte := by
  intro s
  refine ⟨fun b more hagent hrx hier hreg hlife hphase hsel => ?_, fun hagent hi hlatch hk => ?_,
    fun h hagent hi => exec_onReceiveInterrupt_refused hagent hi, fun h hagent => exec_onReceiveInterrupt_wrongContext h hagent,
    fun rest hinputs => ?_, fun rest hinputs hphase hlife => ?_, fun rest hinputs hphase => ?_⟩
  · have hlive := handleLive_iff.mpr hlife
    have hlevel : irqLevel s = true := by
      rw [irqLevel_of_ne_nil (by simp [hrx])]
      exact bne_iff_ne.mpr hier
    rw [exec_onReceiveInterrupt hagent (canInvoke_iff.mpr ⟨hlevel, hreg, hlive, hphase⟩)]
    exact handlerRead_of_cons (s := enterHandler s) hlive hsel hrx
  · have hlive := handleLive_of_canInvoke hi
    rw [exec_onReceiveInterrupt hagent hi]
    exact handlerRead_of_latch (s := enterHandler s) hlive hlatch hk
  · have hstep : step s = .next (irqEnterStep (turnOf .irqEnter rest s)) := step_inputs hinputs
    exact ⟨fun hi => hstep.trans (congrArg _ (if_pos hi)), fun hi => hstep.trans (congrArg _ (if_neg (Bool.eq_false_iff.mp hi)))⟩
  · have hlive := handleLive_iff.mpr hlife
    have hstep : step s = handlerRead (turnOf .irqStep rest s) := by
      rw [step_irqStep hinputs, irqStep, hphase]
    rw [hstep]
    exact ⟨fun hsel b more hrx => handlerRead_of_cons (s := turnOf _ rest s) hlive hsel hrx,
      fun hsel hrx => handlerRead_of_nil (s := turnOf _ rest s) hlive hsel hrx,
      fun hlatch hk => handlerRead_of_latch (s := turnOf _ rest s) hlive hlatch hk⟩
  · rw [step_irqStep hinputs, irqStep, hphase]

/-! ## E2 -/

/-- With a byte read, the handler's turn is E2, with a view of `read_index` that the producer may still have (R173, R71). -/
theorem step_of_got {s : State} {b : Byte} {rest : List Event} (hinputs : s.sched.inputs = .irqStep :: rest)
    (hphase : s.irqPhase = .got b) : step s = .next (handlerStore (observedRead s) b (turnOf .irqStep rest s).drew) := by
  rw [step_irqStep hinputs, irqStep, hphase]
  rfl

/-- E2's drop (R176). -/
theorem step_drops {s : State} {b : Byte} {rest : List Event} (hinputs : s.sched.inputs = .irqStep :: rest)
    (hphase : s.irqPhase = .got b) (hfull : cursorNext s.cfg.ringSlots s.ring.writeIndex = observedRead s) :
    step s = .next { (turnOf .irqStep rest s).drew with
      ring := { s.ring with loss := s.ring.loss + 1, readSeen := [s.ring.readIndex] }
      irqPhase := .idle } :=
  (step_of_got hinputs hphase).trans (congrArg _ (if_pos hfull))

/-- E2's store (R175). -/
theorem step_stores {s : State} {b : Byte} {rest : List Event} (hinputs : s.sched.inputs = .irqStep :: rest)
    (hphase : s.irqPhase = .got b) (hroom : cursorNext s.cfg.ringSlots s.ring.writeIndex ≠ observedRead s) :
    step s = .next { (turnOf .irqStep rest s).drew with
      ring := { s.ring with buf := Memory.write s.ring.writeIndex b s.ring.buf, readSeen := [s.ring.readIndex] }
      irqPhase := .stored (cursorNext s.cfg.ringSlots s.ring.writeIndex) } :=
  (step_of_got hinputs hphase).trans (congrArg _ (if_neg hroom))

/-- Settles O34: the value is the one the producer's load returns. -/
theorem theHandlerStoresOrDrops : Obligations.TheHandlerStoresOrDrops := by
  intro s b rest hinputs hphase
  exact ⟨observedRead s, observedRead_mem s, step_drops hinputs hphase, step_stores hinputs hphase⟩

/-- Settles O35: on a full ring every view of `read_index` that the invariant admits is the one just after `write_index`; a fresh view is the
current `read_index`. -/
theorem aFullRingAlwaysDrops : Obligations.AFullRingAlwaysDrops := by
  intro s b rest h hinputs hphase
  refine ⟨fun hfull => ?_, fun hroom hfresh => ?_⟩
  · have hview := h.observedRead_of_full (of_decide_eq_true hfull)
    exact ⟨_, step_drops hinputs hphase hview.symm, rfl, rfl, rfl, rfl, rfl, rfl⟩
  · have hview : observedRead s = s.ring.readIndex := (observedRead_mem s).elim (hfresh _) id
    have hne := of_decide_eq_false hroom
    exact ⟨_, step_stores hinputs hphase (hview ▸ hne), rfl, Memory.read_write_same _ _ _, rfl⟩

/-! ## E3 -/

/-- In phase STORED the handler's turn is E3 (R177). -/
theorem step_publishes {s : State} {n : Nat} {rest : List Event} (hinputs : s.sched.inputs = .irqStep :: rest)
    (hphase : s.irqPhase = .stored n) : step s = .next (handlerPublish n (turnOf .irqStep rest s)) := by
  rw [step_irqStep hinputs, irqStep, hphase]

/-- A waiting consumer that the signal has woken sees the published cursor and nothing older (R177, R68, R71). -/
theorem sinceWake_handlerPublish {s : State} {r : Consumer} (hr : r ∈ s.cons) (hwaiting : r.phase = .waiting) (n : Nat) :
    sinceWake r.ctx (handlerPublish n s).ring.published = [n] :=
  sinceWake_append_woken s.ring.published (p := { value := n, woke := waitingContexts s })
    (mem_waitingContexts.mpr ⟨r, hr, hwaiting, rfl⟩)

/-- Where a consumer may test, D2 is enabled exactly when the ring is not empty (R201, R202). -/
theorem dequeueEnabled_of_mayTest {c : Nat} {s : State} (h : mayTest c s = true) : dequeueEnabled c s = notEmpty s := by
  rw [dequeueEnabled, h, Bool.true_and]

/-- Settles O36: E3 is the publication, whose signal wakes every waiting consumer; E2 touches no signal. -/
theorem theHandlerPublishes : Obligations.TheHandlerPublishes := by
  intro s rest hinputs
  refine ⟨fun next hphase => ⟨_, step_publishes hinputs hphase, rfl, ?_, ?_, ?_⟩, fun b t hphase hs => ?_⟩
  · exact (decide_not (p := next = s.ring.readIndex)).symm
  · exact fun r hr hwaiting => sinceWake_handlerPublish (s := turnOf .irqStep rest s) hr hwaiting next
  · intro c r hr hwaiting hfree hattached
    exact dequeueEnabled_of_mayTest (mayTest_iff.mpr ⟨⟨r, hr, hwaiting⟩, hfree, hattached⟩)
  · by_cases hfull : cursorNext s.cfg.ringSlots s.ring.writeIndex = observedRead s
    · cases hs.symm.trans (step_drops hinputs hphase hfull)
      rfl
    · cases hs.symm.trans (step_stores hinputs hphase hfull)
      rfl

/-! ## LINE_RX -/

/-- Settles O38: the turn is LINE_RX's step, which takes the next byte of the supply, or draws one, and appends it or loses it. -/
theorem theReceiverStep : Obligations.TheReceiverStep := by
  intro s rest hinputs
  have hstep : step s = .next (lineRxStep (turnOf .lineRx rest s)) := step_inputs hinputs
  refine ⟨fun b more hsupply => ?_, fun hnone => ?_⟩
  · have hb : lineRxStep (turnOf .lineRx rest s) =
        receiveByte b { turnOf .lineRx rest s with line := { s.line with rxLine := more } } := by
      rw [lineRxStep, hsupply]
    rw [hstep, hb]
    exact ⟨fun hroom => congrArg _ (if_pos hroom), fun hfull => congrArg _ (if_neg (Nat.not_lt.mpr hfull))⟩
  · have hb : lineRxStep (turnOf .lineRx rest s) = receiveByte (Config.any8 s.sched.draws) (turnOf .lineRx rest s).drew := by
      rw [lineRxStep, hnone]
      rfl
    rw [hstep, hb]
    exact ⟨fun hroom => congrArg _ (if_pos hroom), fun hfull => congrArg _ (if_neg (Nat.not_lt.mpr hfull))⟩

end Sys2Proof.Machine
end

section
/-! PROOFS. Receive buffer (43_receive_buffer.md): what every step keeps of one byte per invocation (R176, R177, R182) and of one writer per
cursor (R65, R170 INV4). -/

namespace Sys2Proof.Machine

/-- Settles O37: the moves that idle the handler are E2's drop, E3, and the line of `attach` that comes while no invocation is in progress. -/
theorem everyInvocationStoresOrCounts : Obligations.EveryInvocationStoresOrCounts := by
  intro s t hlife hs hbusy hidle
  obtain ⟨q, hm⟩ := step_receiveMove hs
  generalize nextEvent s = e at hm
  cases hm
  case other ht =>
    obtain ⟨-, -, hsame | hentered | ⟨_, hgot⟩, -⟩ := ht
    · exact absurd (hsame.symm.trans hidle) hbusy
    · cases hentered.symm.trans hidle
    · cases hgot.symm.trans hidle
  case drop hp _ => exact .inr ⟨⟨_, hp⟩, rfl, rfl, rfl, rfl⟩
  case store => cases hidle
  case publish hp => exact .inl ⟨hp, rfl, rfl, rfl⟩
  case take => exact absurd hidle hbusy
  case startRing => exact absurd hidle hbusy
  case idleHandler hf hl => exact absurd (hlife.idle_of_fills hf (by rw [hl]; rfl)) hbusy

/-- Settles O41: each move that writes a cursor, the loss or the slots is the step named; every other leaves them. -/
theorem eachCursorHasOneWriter : Obligations.EachCursorHasOneWriter := by
  intro s t hs hnotStart
  obtain ⟨q, hm⟩ := step_receiveMove hs
  generalize he : nextEvent s = e at hm
  cases hm
  case other ht =>
    obtain ⟨-, hring, -⟩ := ht
    simp [hring]
  case drop b hp _ => exact ⟨absurd rfl, fun _ => ⟨rfl, b, hp⟩, absurd rfl, absurd rfl⟩
  case store b hp _ => exact ⟨absurd rfl, absurd rfl, fun _ => ⟨rfl, b, hp, rfl⟩, absurd rfl⟩
  case publish hp => exact ⟨fun _ => ⟨rfl, hp⟩, absurd rfl, absurd rfl, absurd rfl⟩
  case take c hinside _ _ hreader => exact ⟨absurd rfl, absurd rfl, absurd rfl, fun _ => ⟨c, hreader, hinside, rfl⟩⟩
  case startRing hf hl => exact absurd (hl ▸ onAttachLine_of_find he hf) hnotStart
  case idleHandler => exact ⟨absurd rfl, absurd rfl, absurd rfl, absurd rfl⟩

end Sys2Proof.Machine
end

section
/-! PROOFS. Blocking read (44_blocking_read.md): what the requests of a reader do (R201, R204, R208), and the steps D2 and D3, each an equation by
its case (R201, R206). -/

namespace Sys2Proof.Machine

/-! ## The requests -/

/-- CANCEL of either of its issuers, on a usable handle, is the mark (R204, log 34). -/
theorem execCancel_marks {s : State} {h : Nat} (hissuer : s.sched.agent = .envCancel ∨ ∃ a, HostTurn s a) (husable : usable h s = true)
    (c : Nat) : execCancel h c s = .next (markCancelled c s) := by
  obtain hagent | ⟨a, hagent, hfree⟩ := hissuer
  · simp only [execCancel, hagent, onAttached_usable _ husable]
  · simp only [execCancel, hagent, asHost_host _ hagent hfree, onAttached_usable _ husable]

/-- A mark aimed at a context without a record changes nothing (R204, R205). -/
theorem markCancelled_of_outside {s : State} {c : Nat} (h : ∀ r ∈ s.cons, r.ctx ≠ c) : markCancelled c s = s := by
  have hsame : s.cons.map (fun r => if r.ctx = c then { r with cancelReq := true } else r) = s.cons :=
    (List.map_congr_left fun r hr => if_neg (h r hr)).trans s.cons.map_id
  rw [markCancelled, hsame]

/-- Settles O42: both requests are admitted, and each one's whole effect is the record, or the answer. -/
theorem readerCallsAreAccepted : Obligations.ReaderCallsAreAccepted := by
  rintro s c h ⟨hagent, hfree⟩ husable
  exact ⟨(asHost_host _ hagent hfree).trans (onAttached_usable _ husable),
    (asHost_host _ hagent hfree).trans (onAttached_usable _ husable)⟩

/-- Settles O45: the request is admitted from either issuer, its effect is the mark, and without a record there is nothing to mark. -/
theorem cancelMarksTheConsumer : Obligations.CancelMarksTheConsumer := by
  intro s h c hissuer husable
  have hmark : exec (.cancel h c) s = .next (markCancelled c s) := execCancel_marks hissuer husable c
  exact ⟨hmark, fun houtside => hmark.trans (congrArg _ (markCancelled_of_outside houtside))⟩

/-! ## D2 and D3 -/

section
variable {s : State} {c : Nat} {rest : List Event}

/-- A consumer's turn for D2 is that step (R201). -/
theorem step_dequeue (h : s.sched.inputs = .dequeue c :: rest) : step s = .next (dequeueStep c (turnOf (.dequeue c) rest s)) :=
  step_inputs h

/-- A consumer's turn for D3 is that step (R201). -/
theorem step_interrupted (h : s.sched.inputs = .interrupted c :: rest) :
    step s = .next (interruptedStep c (turnOf (.interrupted c) rest s)) :=
  step_inputs h

/-- With its guard true, D2 takes the byte (R201). -/
theorem dequeueStep_of_enabled (h : dequeueEnabled c s = true) : dequeueStep c s = takeByte c s := if_pos h

/-- With its guard false, D2 is no step (R201, log 7). -/
theorem dequeueStep_of_not_enabled (h : ¬ dequeueEnabled c s = true) : dequeueStep c s = s := if_neg h

/-- A cancelled waiting consumer's D3 ends its call (R201, R204). -/
theorem interruptedStep_of_cancelled {r : Consumer} (hr : consumerOf c s = some r) (hwaiting : r.phase = .waiting)
    (hcancel : r.cancelReq = true) : interruptedStep c s = (endConsumer c s).reply (.host c) .interruptedError := by
  simp [interruptedStep, hr, hwaiting, hcancel]

/-- A consumer that is not waiting, or not cancelled, has no D3 (R201, R204, log 7). -/
theorem interruptedStep_of_other {r : Consumer} (hr : consumerOf c s = some r) (h : r.phase = .taking ∨ r.cancelReq = false) :
    interruptedStep c s = s := by
  obtain htaking | hcancel := h
  · simp [interruptedStep, hr, htaking]
  · simp [interruptedStep, hr, hcancel]

end

/-- Settles O43: the turn is D2, which takes the byte exactly where the guard, spelled out, is met. -/
theorem dequeueTakesTheOldestByte : Obligations.DequeueTakesTheOldestByte := by
  intro s c r rest hinputs hr
  rw [step_dequeue hinputs]
  refine ⟨fun hwaiting hfree hne hattached => ?_, fun hnot => ?_⟩
  · have hguard : dequeueEnabled c (turnOf (.dequeue c) rest s) = true :=
      dequeueEnabled_iff.mpr ⟨⟨r, hr, hwaiting⟩, hfree, hne, hattached⟩
    rw [dequeueStep_of_enabled hguard]
    rfl
  · have hguard : ¬ dequeueEnabled c (turnOf (.dequeue c) rest s) = true := by
      rw [dequeueEnabled_iff]
      rintro ⟨⟨w, hw, hwaiting⟩, hfree, hne, hattached⟩
      obtain rfl : r = w := Option.some.inj (hr.symm.trans hw)
      obtain htaking | hheld | hempty | hgone := hnot
      · exact absurd (hwaiting.symm.trans htaking) nofun
      · exact hheld hfree
      · exact hne hempty
      · exact hgone hattached
    rw [dequeueStep_of_not_enabled hguard]

/-- Settles O46: the turn is D3, by the record's phase and mark. -/
theorem interruptedReadLeavesTheRing : Obligations.InterruptedReadLeavesTheRing := by
  intro s c r rest hinputs hr
  rw [step_interrupted hinputs]
  refine ⟨fun hwaiting hcancel => ?_, fun hnot => ?_⟩
  · rw [interruptedStep_of_cancelled (s := turnOf _ rest s) hr hwaiting hcancel]
    rfl
  · rw [interruptedStep_of_other (s := turnOf _ rest s) hr hnot]

end Sys2Proof.Machine
end

section
/-! PROOFS. Blocking read (44_blocking_read.md): the finer grain of D2, lock and take in two steps, against the one atomic step (R201, R71, R73,
R202, log 22). -/

namespace Sys2Proof.Machine

/-! ## A record's change of phase -/

section
variable {s : State} {c : Nat} {p : ConsumerPhase}

/-- The record of a context whose phase has been set is its record, in that phase (R29). -/
theorem consumerOf_setPhase {r : Consumer} (h : consumerOf c s = some r) : consumerOf c (setPhase c p s) = some { r with phase := p } := by
  have hctx : (fun r : Consumer => r.ctx == c) ∘ (fun r => if r.ctx = c then { r with phase := p } else r) = fun r => r.ctx == c :=
    funext fun r => by simp only [Function.comp]; split <;> rfl
  obtain ⟨-, hrc⟩ := consumerOf_mem h
  have h : s.cons.find? (fun r => r.ctx == c) = some r := h
  rw [consumerOf, setPhase_cons, List.find?_map, hctx, h, Option.map_some, if_pos hrc]

/-- Only the last phase set counts (R29). -/
theorem setPhase_setPhase (q : ConsumerPhase) : setPhase c q (setPhase c p s) = setPhase c q s := by
  simp only [setPhase, List.map_map]
  congr 2
  funext r
  by_cases hr : r.ctx = c <;> simp [hr]

/-- To set the phase that the context's record is in already changes nothing (R29). -/
theorem setPhase_of_same (h : ∀ r ∈ s.cons, r.ctx = c → r.phase = p) : setPhase c p s = s := by
  have hsame : s.cons.map (fun r => if r.ctx = c then { r with phase := p } else r) = s.cons := by
    refine (List.map_congr_left fun r hr => ?_).trans s.cons.map_id
    split
    · rw [← h r hr ‹_›, id]
    · rfl
  rw [setPhase, hsame]

/-- What a consumer takes, and what it leaves, does not depend on its record's phase nor on the lock before (R201 D2). -/
theorem takeByte_setPhase : takeByte c (setPhase c p s) = takeByte c s := by
  have hothers : (s.cons.map fun r => if r.ctx = c then { r with phase := p } else r).filter (fun r => r.ctx != c) =
      s.cons.filter (fun r => r.ctx != c) := by
    induction s.cons with
    | nil => rfl
    | cons r rs ih => by_cases hr : r.ctx = c <;> simp [hr, ih]
  simp only [takeByte, endConsumer, setPhase, hothers]
  rfl

end

/-! ## The two steps -/

section
variable {s : State} {c : Nat}

/-- Where the unlocked test finds the ring empty the consumer stays suspended; only the draw is spent (R71, log 22). -/
theorem lockStep_of_looks_empty (hm : mayTest c s = true) (hv : observedWrite c s = s.ring.readIndex) : lockStep c s = s.drew :=
  (if_pos hm).trans (if_pos hv)

/-- Else it takes the lock (R201, R73). -/
theorem lockStep_of_looks_filled (hm : mayTest c s = true) (hv : observedWrite c s ≠ s.ring.readIndex) :
    lockStep c s = setPhase c .taking { s.drew with consLock := .held c } :=
  (if_pos hm).trans (if_neg hv)

/-- The holder of the lock tests again, and takes the byte or goes back to WAITING (R201, R73). -/
theorem takeLockedStep_of_holder {r : Consumer} (hr : consumerOf c s = some r) :
    takeLockedStep c (setPhase c .taking { s with consLock := .held c }) =
      if notEmpty s && ringServed s then takeByte c s else setPhase c .waiting { s with consLock := .free } := by
  have hrecord : consumerOf c (setPhase c .taking { s with consLock := .held c }) = some { r with phase := .taking } :=
    consumerOf_setPhase (s := { s with consLock := .held c }) hr
  have htake : takeByte c (setPhase c .taking { s with consLock := .held c }) = takeByte c s := takeByte_setPhase
  have hback : setPhase c .waiting { setPhase c .taking { s with consLock := .held c } with consLock := .free } =
      setPhase c .waiting { s with consLock := .free } := setPhase_setPhase (s := { s with consLock := .free }) .waiting
  have hguard : ((consumerOf c (setPhase c .taking { s with consLock := .held c })).any (fun r => r.phase == .taking) &&
      (setPhase c .taking { s with consLock := .held c }).consLock == .held c) = true := by
    simp [hrecord]
  rw [takeLockedStep, if_pos hguard, htake, hback]
  rfl

/-- The turn in which the consumer takes the lock, then the turn in which it tests under the lock (R201, log 22). -/
theorem run_lock_takeLocked {r : Consumer} {rest : List Event} (hinputs : s.sched.inputs = .lock c :: .takeLocked c :: rest)
    (hm : mayTest c s = true) (hr : consumerOf c s = some r) (hv : observedWrite c s ≠ s.ring.readIndex) :
    Host.Core.run core 2 s = .next (if notEmpty s && ringServed s then takeByte c (turnOf (.takeLocked c) rest s).drew
      else setPhase c .waiting { (turnOf (.takeLocked c) rest s).drew with consLock := .free }) := by
  have hlock : step s =
      .next (setPhase c .taking { (turnOf (.lock c) (.takeLocked c :: rest) s).drew with consLock := .held c }) :=
    (step_inputs hinputs).trans (congrArg _ (lockStep_of_looks_filled (s := turnOf _ _ s) hm hv))
  rw [run_succ hlock]
  exact run_succ ((step_inputs rfl).trans (congrArg _ (takeLockedStep_of_holder (s := (turnOf (.takeLocked c) rest s).drew) hr))) 0

end

/-- Settles O44: the value is the one the unlocked test uses. Where it takes the lock, the test under the lock is D2's own guard, and setting
the phase leaves no trace in what is taken nor, once it is set back, in the record. -/
theorem lockThenTakeIsTheAtomicDequeue : Obligations.LockThenTakeIsTheAtomicDequeue := by
  intro s c rest hm hwaiting
  obtain ⟨⟨r, hr, -⟩, hfree, hattached⟩ := mayTest_iff.mp hm
  have hserved : ringServed s = true := beq_iff_eq.mpr hattached
  have hrun (hv : observedWrite c s ≠ s.ring.readIndex) :=
    run_lock_takeLocked (s := { s with sched := { s.sched with inputs := .lock c :: .takeLocked c :: rest } }) rfl hm hr hv
  refine ⟨observedWrite c s, observedWrite_mem c s, fun hv => ?_, fun hv hne => ?_, fun hv hempty => ?_⟩
  · exact (step_inputs rfl).trans (congrArg _ (lockStep_of_looks_empty (s := turnOf (.lock c) rest s) hm hv))
  · have hfilled : notEmpty s = true := by simpa [notEmpty, ringEmpty] using hne
    have hguard : dequeueEnabled c s = true := (dequeueEnabled_of_mayTest hm).trans hfilled
    refine ⟨takeByte c (turnOf (.dequeue c) rest s), ?_, ?_⟩
    · exact (hrun hv).trans (congrArg _ (if_pos (Bool.and_eq_true_iff.mpr ⟨hfilled, hserved⟩)))
    · exact (step_dequeue rfl).trans (congrArg _ (dequeueStep_of_enabled (s := turnOf (.dequeue c) rest s) hguard))
  · have hnot : ¬ (notEmpty s && ringServed s) = true := by simp [notEmpty, ringEmpty, hempty]
    refine (hrun hv).trans (congrArg _ ((if_neg hnot).trans ?_))
    refine (setPhase_of_same (s := { (turnOf (.takeLocked c) rest s).drew with consLock := .free }) hwaiting).trans ?_
    rw [← hfree]
    rfl

end Sys2Proof.Machine
end

section
/-! PROOFS. Blocking read (44_blocking_read.md) and state (10_state.md): what every step keeps of one call per context, the position of a transmit
call inside its buffer, and the hardware FIFO within its depth (R209, R256, R32, R26). -/

namespace Sys2Proof.Machine

/-! ## What keeps the three invariants -/

/-- From `s` to `t` no context has come to be inside two calls, no transmit call outside its buffer, and the FIFO not beyond its depth. -/
abbrev KeepsPositions (s t : State) : Prop :=
  (ContextInv s → ContextInv t) ∧ (WritesInv s → WritesInv t) ∧ (FifoInv s → FifoInv t)

/-- The contexts inside a call (R209). -/
def callers (s : State) : List Nat := s.cons.map Consumer.ctx ++ s.writes.map PendingWrite.ctx ++ s.calls.map HostCall.ctx

/-- A context is inside a call exactly where it is one of them (R209, R256). -/
theorem mem_callers {c : Nat} {s : State} : c ∈ callers s ↔ busy c s = true := by
  simp [callers, busy, or_assoc]

/-- A change of the entries of a list that keeps what `g` reads of each. -/
theorem map_map_of_keeps {α β : Type} {f : α → α} {g : α → β} (h : ∀ x, g (f x) = g x) (l : List α) : (l.map f).map g = l.map g :=
  List.map_map.trans (List.map_congr_left fun x _ => h x)

section
variable {s u t : State}

/-- What one step keeps and the next one keeps, both keep. -/
theorem KeepsPositions.trans (h : KeepsPositions s u) (h' : KeepsPositions u t) : KeepsPositions s t := by
  obtain ⟨hcontexts, hwrites, hfifo⟩ := h
  obtain ⟨hcontexts', hwrites', hfifo'⟩ := h'
  exact ⟨hcontexts' ∘ hcontexts, hwrites' ∘ hwrites, hfifo' ∘ hfifo⟩

/-- Calls may end and received bytes may be removed. -/
theorem keepsPositions_of_fewer (hcfg : t.cfg = s.cfg) (hfifo : t.dev.rxHw.Sublist s.dev.rxHw)
    (hcons : (t.cons.map Consumer.ctx).Sublist (s.cons.map Consumer.ctx)) (hwrites : t.writes.Sublist s.writes)
    (hcalls : (t.calls.map HostCall.ctx).Sublist (s.calls.map HostCall.ctx)) : KeepsPositions s t := by
  refine ⟨fun h => ?_, fun h w hw => h w (hwrites.subset hw), fun h => ?_⟩
  · exact h.sublist ((hcons.append (hwrites.map _)).append hcalls)
  · rw [FifoInv, hcfg]
    exact hfifo.length_le.trans h

/-- A turn that touches none of the parts the invariants speak of. -/
theorem keepsPositions_of_same
    (h : (t.cfg, t.dev.rxHw, t.cons, t.writes, t.calls) = (s.cfg, s.dev.rxHw, s.cons, s.writes, s.calls)) : KeepsPositions s t := by
  simp only [Prod.mk.injEq] at h
  obtain ⟨hcfg, hfifo, hcons, hwrites, hcalls⟩ := h
  exact keepsPositions_of_fewer hcfg (hfifo ▸ .refl _) (hcons ▸ .refl _) (hwrites ▸ .refl _) (hcalls ▸ .refl _)

/-- A context that is in no call begins one (R209, R256). -/
theorem keepsPositions_of_begun {c : Nat} (hfree : busy c s = false) (hcallers : (callers t).Perm (c :: callers s))
    (hwrites : WritesInv s → WritesInv t) (hcfg : t.cfg = s.cfg) (hdev : t.dev = s.dev) : KeepsPositions s t := by
  refine ⟨fun h => ?_, hwrites, fun h => by rwa [FifoInv, hcfg, hdev]⟩
  have hfresh : c ∉ callers s := by simp [mem_callers, hfree]
  exact hcallers.nodup_iff.mpr (List.nodup_cons.mpr ⟨hfresh, h⟩)

/-- A new consumer record (R201). -/
theorem keepsPositions_of_newConsumer {r : Consumer}
    (h : (t.cfg, t.dev, t.cons, t.writes, t.calls) = (s.cfg, s.dev, s.cons ++ [r], s.writes, s.calls)) (hfree : busy r.ctx s = false) :
    KeepsPositions s t := by
  simp only [Prod.mk.injEq] at h
  obtain ⟨hcfg, hdev, hcons, hwrites, hcalls⟩ := h
  refine keepsPositions_of_begun hfree ?_ (fun hw => by rwa [WritesInv, hwrites]) hcfg hdev
  simp only [callers, hcons, hwrites, hcalls, List.map_append, List.map_singleton, List.append_assoc]
  exact List.perm_middle

/-- A new PendingWrite, at its start (R151). -/
theorem keepsPositions_of_newWrite {w : PendingWrite}
    (h : (t.cfg, t.dev, t.cons, t.writes, t.calls) = (s.cfg, s.dev, s.cons, s.writes ++ [w], s.calls)) (hfree : busy w.ctx s = false)
    (hstart : w.txIdx = 0) : KeepsPositions s t := by
  simp only [Prod.mk.injEq] at h
  obtain ⟨hcfg, hdev, hcons, hwrites, hcalls⟩ := h
  refine keepsPositions_of_begun hfree ?_ (fun hw x hx => ?_) hcfg hdev
  · simp only [callers, hcons, hwrites, hcalls, List.map_append, List.map_singleton, ← List.append_assoc]
    rw [List.append_assoc _ [w.ctx]]
    exact List.perm_middle
  · rw [hwrites] at hx
    obtain hx | hx := List.mem_append.mp hx
    · exact hw x hx
    · rw [List.mem_singleton.mp hx, hstart]
      exact Nat.zero_le _

/-- A new `attach`, LINE_CONFIGURE or DETACH (R220, R132, R223). -/
theorem keepsPositions_of_newCall {k : HostCall}
    (h : (t.cfg, t.dev, t.cons, t.writes, t.calls) = (s.cfg, s.dev, s.cons, s.writes, s.calls ++ [k])) (hfree : busy k.ctx s = false) :
    KeepsPositions s t := by
  simp only [Prod.mk.injEq] at h
  obtain ⟨hcfg, hdev, hcons, hwrites, hcalls⟩ := h
  refine keepsPositions_of_begun hfree ?_ (fun hw => by rwa [WritesInv, hwrites]) hcfg hdev
  simp only [callers, hcons, hwrites, hcalls, List.map_append, List.map_singleton, ← List.append_assoc]
  exact List.perm_append_singleton _ _

end

/-! ## Transactions and the steps of a call -/

section
variable {s u t : State}

/-- A read transaction at most removes the oldest received byte (R102). -/
theorem regRead_keepsPositions {h k : Nat} {v : Word} (hr : regRead h k s = .next (v, t)) : KeepsPositions s t := by
  obtain rfl | rfl | ⟨-, b, rest, hrx, -, rfl⟩ := readRegister_next (regRead_next hr).2
  · exact keepsPositions_of_same rfl
  · exact keepsPositions_of_same rfl
  · have hrx : s.dev.rxHw = b :: rest := hrx
    exact keepsPositions_of_fewer rfl (hrx ▸ List.sublist_cons_self b rest) (.refl _) (.refl _) (.refl _)

/-- A write transaction at most empties the FIFO (R107). -/
theorem regWrite_keepsPositions {h k : Nat} {v : Word} (hw : regWrite h k v s = .next t) : KeepsPositions s t := by
  obtain ⟨_, rfl, hrx, -⟩ := writeRegister_next (regWrite_next hw).2
  exact keepsPositions_of_fewer rfl hrx.sublist (.refl _) (.refl _) (.refl _)

/-- A step of line configuration is such a transaction, or none (R132). -/
theorem lineConfigureStep_keepsPositions (h : lineConfigureStep s = .next t) : KeepsPositions s t := by
  obtain ⟨_, _, _, -, hu, rfl⟩ | ⟨-, rfl⟩ := lineConfigureStep_next h
  · exact (regWrite_keepsPositions hu :)
  · exact keepsPositions_of_same rfl

/-- The end of a call (R256). -/
theorem KeepsPositions.endCall (h : KeepsPositions s u) (c : Nat) : KeepsPositions s (endCall c u) :=
  h.trans (keepsPositions_of_fewer rfl (.refl _) (.refl _) (.refl _) (List.filter_sublist.map _))

/-- An attach goes on to a line: its context stays inside the one call (R220). -/
theorem KeepsPositions.toLine (h : KeepsPositions s u) (c : Nat) (a : AttachCall) (l : AttachLine) : KeepsPositions s (toLine c a l u) := by
  refine h.trans (keepsPositions_of_fewer rfl (.refl _) (.refl _) (.refl _) ?_)
  rw [toLine_calls, map_map_of_keeps fun x => by split <;> rfl]

/-- A context's PendingWrite moves on, inside its buffer (R32). -/
theorem KeepsPositions.setWrite (h : KeepsPositions s u) {c : Nat} {w : PendingWrite} (hctx : w.ctx = c)
    (hpos : WritesInv u → w.txIdx ≤ w.txBuf.length) : KeepsPositions s (setWrite c w u) := by
  refine h.trans ⟨fun hc => ?_, fun hw x hx => ?_, id⟩
  · have hsame : (Machine.setWrite c w u).writes.map PendingWrite.ctx = u.writes.map PendingWrite.ctx :=
      map_map_of_keeps (fun x => by split; exacts [hctx.trans (Eq.symm ‹_›), rfl]) _
    rw [ContextInv, hsame]
    exact hc
  · obtain ⟨y, hy, rfl⟩ := List.mem_map.mp hx
    split
    · exact hpos hw
    · exact hw y hy

/-- After a put the index is at most one up, so inside the buffer that held the byte (R32, R151). -/
theorem afterPut_txIdx_le {cfg : Config} {w : PendingWrite} {b : Byte} (hb : w.txBuf[w.txIdx]? = some b) :
    (afterPut cfg w b).txIdx ≤ (afterPut cfg w b).txBuf.length := by
  obtain ⟨hlt, -⟩ := List.getElem?_eq_some_iff.mp hb
  show (if copyToCome cfg w b then w.txIdx else w.txIdx + 1) ≤ w.txBuf.length
  split <;> omega

/-- A step of a transmit call (R151). -/
theorem transmitStep_keepsPositions {w : PendingWrite} (hmem : w ∈ s.writes) (h : transmitStep w s = .next t) : KeepsPositions s t := by
  obtain ⟨-, rfl⟩ | ⟨b, hb, ⟨-, -, rfl⟩ | ⟨-, -, hp⟩ | ⟨-, hp⟩⟩ := transmitStep_next h
  · exact keepsPositions_of_fewer rfl (.refl _) (.refl _) List.filter_sublist (.refl _)
  · exact keepsPositions_of_fewer rfl (.refl _) (.refl _) List.filter_sublist (.refl _)
  · obtain ⟨_, u, hr, ⟨-, rfl⟩ | ⟨-, rfl⟩⟩ := pollStep_next hp
    all_goals
      have hu := regRead_keepsPositions hr
      obtain ⟨⟨_, _, _, rfl⟩, -⟩ := regRead_frame hr
      exact KeepsPositions.setWrite (u := State.logPoll _ _) hu rfl fun hw => hw w hmem
  · obtain ⟨u, hw, rfl⟩ := putStep_next hp
    have hu : KeepsPositions s (u.logPoll (.put b)) := (regWrite_keepsPositions hw :)
    rw [advanceWrite_eq]
    exact hu.setWrite rfl fun _ => afterPut_txIdx_le hb

/-- A line of `attach` (R220). -/
theorem resumeAttach_keepsPositions {c : Nat} {a : AttachCall} (h : resumeAttach c a s = .next t) : KeepsPositions s t := by
  have hsame : KeepsPositions s s := keepsPositions_of_same rfl
  cases hl : a.line <;> simp only [resumeAttach, hl, Host.Outcome.next.injEq] at h
  case testWindow =>
    obtain ht | ⟨-, -, -, ht⟩ := attachTestWindow_cases c a s
    all_goals rw [← h, ht]
    · exact (hsame.endCall c :)
    · exact hsame.toLine c a _
  case testIrq =>
    obtain ⟨_, ht⟩ | ⟨-, -, ht⟩ := attachTestIrq_cases c a s
    all_goals rw [← h, ht]
    · exact (hsame.endCall c :)
    · exact hsame.toLine c a _
  case configure =>
    obtain ⟨-, rfl⟩ | ⟨-, u, hu, rfl⟩ := attachConfigure_next h
    · exact hsame.toLine c a _
    · have hu := lineConfigureStep_keepsPositions hu
      split
      · exact hu.toLine c a _
      · exact hu
  case emptyContexts =>
    have hempty : KeepsPositions s { s with cons := [], consLock := .free, irqPhase := .idle, hdl := { s.hdl with cfgStep := 0 } } :=
      keepsPositions_of_fewer rfl (.refl _) (List.nil_sublist _) (.refl _) (.refl _)
    exact h ▸ hempty.toLine c a _
  case giveHandle =>
    rw [← h]
    exact (hsame.endCall c :)
  all_goals
    rw [← h]
    exact (keepsPositions_of_same rfl).toLine c _ _

/-- A later step of LINE_CONFIGURE (R132). -/
theorem resumeLineConfigure_keepsPositions {c h : Nat} (hx : resumeLineConfigure c h s = .next t) : KeepsPositions s t := by
  obtain rfl | ⟨_, hu, rfl | rfl⟩ := resumeLineConfigure_cases hx
  · exact (keepsPositions_of_same rfl).endCall c
  · exact (lineConfigureStep_keepsPositions hu).endCall c
  · exact lineConfigureStep_keepsPositions hu

/-- A consumer's step that adds no record (R201). -/
theorem AfterConsumer.keepsPositions (h : AfterConsumer s t) (hcons : (t.cons.map Consumer.ctx).Sublist (s.cons.map Consumer.ctx)) :
    KeepsPositions s t := by
  obtain ⟨_, _, _, _, _, rfl⟩ := h
  exact keepsPositions_of_fewer rfl (.refl _) hcons (.refl _) (.refl _)

/-- The end of a read takes the context's record away and leaves the others (R201). -/
theorem endConsumer_cons_sublist (c : Nat) (s : State) :
    ((endConsumer c s).cons.map Consumer.ctx).Sublist (s.cons.map Consumer.ctx) :=
  List.filter_sublist.map _

/-- A record stays its context's when its phase changes (R29). -/
theorem setPhase_cons_sublist (c : Nat) (p : ConsumerPhase) (s : State) :
    ((setPhase c p s).cons.map Consumer.ctx).Sublist (s.cons.map Consumer.ctx) := by
  rw [setPhase_cons, map_map_of_keeps fun r => by split <;> rfl]

/-- D2 (R201). -/
theorem dequeueStep_keepsPositions (c : Nat) (s : State) : KeepsPositions s (dequeueStep c s) := by
  refine (dequeueStep_frame c s).keepsPositions ?_
  obtain ⟨-, h⟩ | ⟨-, h⟩ := dequeueStep_cases c s
  all_goals rw [h]
  exact endConsumer_cons_sublist c s

/-- D3 (R201, R204). -/
theorem interruptedStep_keepsPositions (c : Nat) (s : State) : KeepsPositions s (interruptedStep c s) := by
  refine (interruptedStep_frame c s).keepsPositions ?_
  obtain h | ⟨_, -, -, -, h⟩ := interruptedStep_cases c s
  all_goals rw [h]
  exact endConsumer_cons_sublist c s

/-- The unlocked test, and the lock (R201, log 22). -/
theorem lockStep_keepsPositions (c : Nat) (s : State) : KeepsPositions s (lockStep c s) := by
  refine (lockStep_frame c s).keepsPositions ?_
  obtain ⟨-, h⟩ | ⟨-, -, h⟩ | ⟨-, -, h⟩ := lockStep_cases c s
  all_goals rw [h]
  · exact .refl _
  · exact setPhase_cons_sublist c .taking _

/-- The test under the lock (R201, log 22). -/
theorem takeLockedStep_keepsPositions (c : Nat) (s : State) : KeepsPositions s (takeLockedStep c s) := by
  refine (takeLockedStep_frame c s).keepsPositions ?_
  obtain h | ⟨-, -, -, h⟩ | ⟨-, -, h⟩ := takeLockedStep_cases c s
  all_goals rw [h]
  · exact endConsumer_cons_sublist c s
  · exact setPhase_cons_sublist c .waiting _

/-- A step of the handler: E1 may remove a received byte, the others touch none of the parts (R173). -/
theorem irqStep_keepsPositions (h : irqStep s = .next t) : KeepsPositions s t := by
  obtain ⟨-, rfl⟩ | ⟨-, _, _, hr, rfl⟩ | ⟨b, -, rfl⟩ | ⟨_, -, rfl⟩ := irqStep_next h
  · exact keepsPositions_of_same rfl
  · exact (regRead_keepsPositions hr :)
  · obtain ⟨-, hs⟩ | ⟨-, hs⟩ := handlerStore_cases (observedRead s) b s.drew
    all_goals exact hs ▸ keepsPositions_of_same rfl
  · exact keepsPositions_of_same rfl

/-- A byte arrives only where the FIFO has room (R180, R181). -/
theorem KeepsPositions.receiveByte (h : KeepsPositions s u) (b : Byte) : KeepsPositions s (receiveByte b u) := by
  obtain ⟨hroom, ht⟩ | ⟨-, ht⟩ := receiveByte_cases b u
  all_goals rw [ht]
  · refine h.trans ⟨id, id, fun _ => ?_⟩
    show (u.dev.rxHw ++ [b]).length ≤ u.cfg.rxHwDepth
    rw [List.length_append]
    exact hroom
  · exact h

/-- LINE_RX (R180). -/
theorem lineRxStep_keepsPositions (s : State) : KeepsPositions s (lineRxStep s) := by
  unfold lineRxStep
  split
  all_goals
    refine KeepsPositions.receiveByte ?_ _
    exact keepsPositions_of_same rfl

end

/-! ## Every turn -/

/-- Every turn keeps them: a call begins only in a context outside every call, a PendingWrite moves on only by its own steps, and a byte arrives
only where there is room. -/
theorem Turn.keepsPositions {s t : State} {e : Event} (ht : Turn s e t) : KeepsPositions s t := by
  cases ht
  case registerRead hx =>
    obtain ⟨_, _, _, -, -, -, hr, rfl⟩ := hostRead_next hx
    exact (regRead_keepsPositions hr :)
  case registerWrite hx =>
    obtain ⟨_, -, -, -, hw⟩ := hostWrite_next hx
    exact regWrite_keepsPositions hw
  case attach hx =>
    obtain ⟨_, -, hfree, ⟨-, rfl⟩ | ⟨-, -, rfl⟩⟩ := execAttach_next hx
    · exact keepsPositions_of_same rfl
    · exact keepsPositions_of_newCall rfl hfree
  case detach hx =>
    obtain ⟨_, -, hfree, -, -, -, rfl⟩ := execDetach_next hx
    exact keepsPositions_of_newCall rfl hfree
  case lineConfigure hx =>
    obtain ⟨_, u, -, hfree, -, -, hu, rfl⟩ := execLineConfigure_next hx
    have hwrite := lineConfigureStep_keepsPositions hu
    obtain ⟨_, _, _, _, rfl, -⟩ := lineConfigureStep_frame hu
    exact hwrite.trans (keepsPositions_of_newCall rfl hfree)
  case transmitBytes hx =>
    obtain ⟨_, -, hfree, -, rfl⟩ := execTransmitBytes_next hx
    exact keepsPositions_of_newWrite rfl hfree rfl
  case onReceiveInterrupt hx =>
    obtain ⟨-, -, -, _, _, hr, rfl⟩ := execOnReceiveInterrupt_next hx
    exact (regRead_keepsPositions hr :)
  case readOneByte hx =>
    obtain ⟨_, -, hfree, -, rfl⟩ := execReadOneByte_next hx
    exact keepsPositions_of_newConsumer rfl hfree
  case cancel c _ hx =>
    obtain ⟨-, rfl⟩ := execCancel_next hx
    refine keepsPositions_of_fewer rfl (.refl _) ?_ (.refl _) (.refl _)
    rw [markCancelled_cons, map_map_of_keeps fun r => by split <;> rfl]
  case readLossCounter hx =>
    obtain ⟨_, -, -, -, rfl⟩ := execReadLossCounter_next hx
    exact keepsPositions_of_same rfl
  case attachLine hx => exact resumeAttach_keepsPositions hx
  case configureWrite hx => exact resumeLineConfigure_keepsPositions hx
  case detachEnd c on _ =>
    obtain ⟨-, ht⟩ | ⟨-, -, ht⟩ | ⟨-, -, ht⟩ := resumeDetach_cases c on s
    all_goals rw [ht]
    · exact keepsPositions_of_same rfl
    · exact (keepsPositions_of_same rfl).endCall c
    · exact (keepsPositions_of_same rfl).endCall c
  case transmit hf hx => exact transmitStep_keepsPositions (List.mem_of_find?_eq_some hf) hx
  case outsideEveryCall => exact keepsPositions_of_same rfl
  case dequeue c => exact dequeueStep_keepsPositions c s
  case interrupted c => exact interruptedStep_keepsPositions c s
  case lock c => exact lockStep_keepsPositions c s
  case takeLocked c => exact takeLockedStep_keepsPositions c s
  case irqEnter =>
    unfold irqEnterStep
    split
    all_goals exact keepsPositions_of_same rfl
  case irqStep hx => exact irqStep_keepsPositions hx
  case lineTx =>
    obtain ht | ⟨_, -, -, ht⟩ := lineTxStep_cases s
    all_goals
      rw [ht]
      exact keepsPositions_of_same rfl
  case lineRx => exact lineRxStep_keepsPositions s
  case envAttach => exact keepsPositions_of_same rfl

/-- Settles O57: a step is a turn, and every turn keeps the three. -/
theorem everyStepKeepsThePositionsInRange : Obligations.EveryStepKeepsThePositionsInRange := by
  intro s t hs
  obtain ⟨q, ht⟩ := step_turn hs
  exact Turn.keepsPositions (s := { s with sched := q }) ht

end Sys2Proof.Machine
end

section
/-! PROOFS. Lifecycle (45_lifecycle.md): the operations that a handle's lifecycle refuses (R118, R226, R272, R280). -/

namespace Sys2Proof.Machine

/-- A context's own step is refused where it would be refused of every context. -/
theorem asHost_refused {s : State} {f : Nat → Result} (h : ∀ c, ∃ r, f c = .refused r) : ∃ r, asHost s f = .refused r := by
  unfold asHost
  split
  · split
    · exact ⟨_, rfl⟩
    · exact h _
  all_goals exact ⟨_, rfl⟩

/-- A step that goes on only for a context outside every call, on a usable handle, is refused on any other handle (R226, R272). -/
theorem asHost_onAttached_refused {h : Nat} {s : State} (hu : usable h s = false) (f : Nat → Result) :
    ∃ r, asHost s (fun c => onAttached h s (f c)) = .refused r :=
  asHost_refused fun c => ⟨_, onAttached_refused (f c) hu⟩

/-- A register request is on the handle of its turn (log 36). -/
theorem namedHandle_of_register {s : State} {i : Instr} {r : Register} {k : Nat} (hreg : registerOf s.cfg i = some (r, k)) :
    namedHandle s i = some s.sched.handle := by
  cases i <;> cases hreg
  all_goals rfl

/-- CANCEL is refused on a handle that is not usable, from either of its issuers, and from any other context (R204, R226). -/
theorem execCancel_refused {s : State} {h : Nat} (hu : usable h s = false) (c : Nat) : ∃ r, execCancel h c s = .refused r := by
  unfold execCancel
  split
  · exact ⟨_, onAttached_refused _ hu⟩
  · exact asHost_onAttached_refused hu _
  all_goals exact ⟨_, rfl⟩

/-- On a handle that is not usable every operation is refused but the two with rules of their own (R226, R272). -/
theorem exec_refused_of_not_usable {s : State} {i : Instr} {h : Nat} (hi : namedHandle s i = some h) (hu : usable h s = false)
    (hirq : i ≠ .onReceiveInterrupt h) (hconf : i ≠ .lineConfigure h) : ∃ r, exec i s = .refused r := by
  cases hreg : registerOf s.cfg i with
  | some rk =>
    rw [exec_register hreg]
    obtain rfl : s.sched.handle = h := Option.some.inj ((namedHandle_of_register hreg).symm.trans hi)
    split
    all_goals exact asHost_onAttached_refused hu _
  | none =>
    cases i
    case attach => cases hi
    case detach | transmitBytes | readOneByte | readLossCounter =>
      cases hi
      exact asHost_onAttached_refused hu _
    case lineConfigure =>
      cases hi
      exact absurd rfl hconf
    case onReceiveInterrupt =>
      cases hi
      exact absurd rfl hirq
    case cancel =>
      cases hi
      exact execCancel_refused hu _
    all_goals cases hreg

/-- LINE_CONFIGURE is refused on a handle that is not ATTACHING (R137). -/
theorem execLineConfigure_refused {s : State} {h : Nat} (hlife : lifeOf h s ≠ .attaching) : ∃ r, execLineConfigure h s = .refused r :=
  asHost_refused fun _ => ⟨_, if_neg fun hboth => hlife hboth.1⟩

/-- ON_RECEIVE_INTERRUPT is refused on a handle that is not live: only the latest one can be, and its invocation needs it live (R250). -/
theorem execOnReceiveInterrupt_refused {s : State} {h : Nat} (hlife : lifeOf h s = .detached ∨ lifeOf h s = .tornDown) :
    ∃ r, execOnReceiveInterrupt h s = .refused r := by
  by_cases hagent : s.sched.agent = .irq
  · refine ⟨_, exec_onReceiveInterrupt_refused hagent ?_⟩
    by_contra hboth
    simp only [not_or, ne_eq, not_not, Bool.not_eq_false] at hboth
    obtain ⟨rfl, hinvoke⟩ := hboth
    rw [lifeOf_self] at hlife
    obtain hlive | hlive := handleLive_iff.mp (handleLive_of_canInvoke hinvoke)
    all_goals simp [hlive] at hlife
  · exact ⟨_, exec_onReceiveInterrupt_wrongContext h hagent⟩

/-- A handle that is not ATTACHED is not usable, nor is one that attach has still to return (R226, R272). -/
theorem not_usable_of_not_attached {h : Nat} {s : State} (hlife : lifeOf h s ≠ .attached ∨ notYetReturned h s = true) :
    usable h s = false := by
  rw [← Bool.not_eq_true, usable_iff]
  rintro ⟨hattached, hreturned⟩
  obtain hother | hpending := hlife
  · exact hother hattached
  · exact absurd (hreturned.symm.trans hpending) nofun

/-- Every operation but ATTACH names a handle (R226, log 36). -/
theorem namedHandle_isSome {s : State} {i : Instr} (hi : ∀ base clockHz irqLine, i ≠ .attach base clockHz irqLine) :
    (namedHandle s i).isSome = true := by
  cases i
  case attach base clockHz irqLine => exact absurd rfl (hi base clockHz irqLine)
  all_goals rfl

/-- Every handle but the latest one is DETACHED or TORN_DOWN (R40, log 14). -/
theorem lifeOf_of_not_latest {h : Nat} {s : State} (hne : h ≠ s.hdl.id) : lifeOf h s = .detached ∨ lifeOf h s = .tornDown := by
  rw [lifeOf, if_neg hne]
  split
  · exact .inr rfl
  · exact .inl rfl

/-- Settles O21: such a handle is not usable, so every operation that asks for a usable one is refused; the two others ask for an ATTACHING
handle, or for a live one. -/
theorem onlyAttachIsAnsweredOnADeadHandle : Obligations.OnlyAttachIsAnsweredOnADeadHandle := by
  intro s i
  refine ⟨fun h hi hdead => ?_, namedHandle_isSome, fun h hi hearly hirq hconf => ?_, fun h => lifeOf_of_not_latest⟩
  · have hlife : lifeOf h s ≠ .attached ∧ lifeOf h s ≠ .attaching := by
      obtain hl | hl := hdead
      all_goals simp [hl]
    by_cases hirq : i = .onReceiveInterrupt h
    · exact hirq ▸ execOnReceiveInterrupt_refused hdead
    by_cases hconf : i = .lineConfigure h
    · exact hconf ▸ execLineConfigure_refused hlife.2
    exact exec_refused_of_not_usable hi (not_usable_of_not_attached (.inl hlife.1)) hirq hconf
  · exact exec_refused_of_not_usable hi (not_usable_of_not_attached (hearly.imp_left (by simp +contextual))) hirq hconf

end Sys2Proof.Machine
end

section
/-! PROOFS. Lifecycle (45_lifecycle.md): the lines of `attach` and the steps of `detach`, each by its case (R220, R221, R223, R224). -/

namespace Sys2Proof.Machine

/-! ## A1 and A2 -/

/-- Settles O49: A1's test decides between the answer and the call. -/
theorem attachChecksItsArguments : Obligations.AttachChecksItsArguments := by
  rintro s c base clockHz irqLine ⟨hagent, hfree⟩
  refine ⟨fun hbad => ?_, fun hbase hclock => ?_⟩
  · exact (asHost_host _ hagent hfree).trans (if_pos (by omega))
  · exact (asHost_host _ hagent hfree).trans (if_neg (by omega))

/-- A live handle holds its window and the one device (R222, log 17). -/
theorem owned_of_live {s : State} (hlive : handleLive s = true) : windowHeld s.hdl.base s = true ∧ deviceOwned s = true := by
  simp [windowHeld, deviceOwned, hlive]

/-- Settles O50: the call's turn is the line it is at, and the three tests are made in the order of the conditions. -/
theorem attachTestsItsResources : Obligations.AttachTestsItsResources := by
  intro s c a rest hinputs hfind
  have hstep := step_attachLine hinputs hfind
  refine ⟨fun hline => ?_, fun hline => ?_, owned_of_live⟩
  · have htest : step s = .next (attachTestWindow c a (turnOf (.resume c) rest s)) := by rw [hstep, resumeAttach, hline]
    rw [htest]
    refine ⟨fun hbad => congrArg _ (if_pos hbad), fun havail hheld hfits => congrArg _ (if_neg ?_)⟩
    rintro (hnone | hother | hout)
    · exact absurd (havail.symm.trans hnone) nofun
    · exact absurd (hheld.symm.trans hother) nofun
    · exact absurd (hfits.symm.trans hout) nofun
  · have htest : step s = .next (attachTestIrq c a (turnOf (.resume c) rest s)) := by rw [hstep, resumeAttach, hline]
    rw [htest]
    refine ⟨fun hnone => congrArg _ (if_pos hnone), fun havail howned => congrArg _ ?_, fun havail hfree => congrArg _ ?_⟩
    all_goals
      refine (if_neg (c := s.env.irqAvail = false) (by simp [havail])).trans ?_
    · exact if_pos howned
    · exact if_neg (ne_true_of_eq_false hfree)

/-! ## A4 over, A5 and A6 -/

/-- While the call that has made the handle is at its return, no host may use the handle (R272). -/
theorem not_usable_of_giveHandle {s : State} {c : Nat} {a : AttachCall} (hmem : { ctx := c, kind := .attach a } ∈ s.calls)
    (hline : a.line = .giveHandle) : usable a.made s = false :=
  not_usable_of_not_attached (.inr (notYetReturned_iff.mpr ⟨c, a, hmem, hline, rfl⟩))

/-- The call of the context is the one it has been set to (R220). -/
theorem find_setCall {s : State} {c : Nat} {j : CallKind} (k : CallKind)
    (hfind : s.calls.find? (fun x => x.ctx == c) = some { ctx := c, kind := j }) :
    (setCall c k s).calls.find? (fun x => x.ctx == c) = some { ctx := c, kind := k } := by
  have hctx : (fun x : HostCall => x.ctx == c) ∘ (fun x => if x.ctx = c then { x with kind := k } else x) = fun x => x.ctx == c :=
    funext fun x => by simp only [Function.comp]; split <;> rfl
  rw [setCall_calls, List.find?_map, hctx, hfind, Option.map_some, if_pos rfl]

/-- Settles O52: each is the line the call is at; at its return the call itself is what keeps the handle from its hosts. -/
theorem attachRegistersThenReturns : Obligations.AttachRegistersThenReturns := by
  intro s c a rest hinputs hfind
  have hstep := step_attachLine hinputs hfind
  refine ⟨fun hline hdone => ?_, fun hline => ?_, fun hline => ?_, fun hline => ?_⟩
  · rw [hstep, resumeAttach, hline]
    exact if_pos hdone
  · rw [hstep, resumeAttach, hline]
    rfl
  · refine ⟨attachSetAttached c a (turnOf (.resume c) rest s), by rw [hstep, resumeAttach, hline], ?_, rfl⟩
    exact not_usable_of_giveHandle (c := c) (a := { a with line := .giveHandle }) (List.mem_of_find?_eq_some (find_setCall _ hfind)) rfl
  · rw [hstep, resumeAttach, hline]
    rfl

/-! ## T1 and T2 -/

/-- Settles O54: T1's test of the readers and writers decides. -/
theorem detachUnregisters : Obligations.DetachUnregisters := by
  rintro s c h ⟨hagent, hfree⟩ husable
  have hstep : exec (.detach h) s = _ := (asHost_host _ hagent hfree).trans (onAttached_usable _ husable)
  rw [hstep]
  refine ⟨fun hcons hwrites => if_pos ?_, fun hbusy => if_neg ?_⟩
  · simpa [hcons] using hwrites
  · obtain hcons | ⟨w, hw, rfl⟩ := hbusy
    · simp [hcons]
    · simp only [Bool.and_eq_true, Bool.not_eq_true', List.any_eq_false, beq_iff_eq, not_and, not_forall, not_not]
      exact fun _ => ⟨w, hw, rfl⟩

/-- A context's turn inside `detach` is T2, or the wait for it (R223). -/
theorem step_detach {s : State} {c h : Nat} {rest : List Event} (hinputs : s.sched.inputs = .resume c :: rest)
    (hfind : s.calls.find? (fun k => k.ctx == c) = some { ctx := c, kind := .detach h }) :
    step s = .next (resumeDetach c h (turnOf (.resume c) rest s)) := by
  simp only [step_inputs hinputs, runEvent, resumeStep, hfind]

section
variable {s : State} (x : Nat) (hlife : s.hdl.life = .tornDown)
include hlife

/-- On a torn-down handle no consumer may test the ring (R223, log 25). -/
theorem mayTest_of_tornDown : ¬ mayTest x s = true := by
  rw [mayTest_iff, hlife]
  rintro ⟨-, -, hserved⟩
  cases hserved

/-- On a torn-down handle no consumer takes a byte, nor the lock (R223, log 25). -/
theorem dequeueStep_lockStep_of_tornDown : dequeueStep x s = s ∧ lockStep x s = s := by
  have hno := mayTest_of_tornDown x hlife
  exact ⟨dequeueStep_of_not_enabled fun h => hno (Bool.and_eq_true_iff.mp h).1, if_neg hno⟩

/-- On a torn-down handle the holder of the lock goes back to WAITING and releases it; the ring keeps its bytes (R223, R273, log 25). -/
theorem takeLockedStep_of_tornDown : takeLockedStep x s =
    if (consumerOf x s).any (fun r => r.phase == .taking) && s.consLock == .held x then
      setPhase x .waiting { s with consLock := .free }
    else s := by
  have hempty : ¬ (notEmpty s && ringServed s) = true := by simp [ringServed, hlife]
  rw [takeLockedStep, if_neg hempty]

end

/-- Settles O55: T2 by its cases, and on the torn-down handle it leaves no reader is served. -/
theorem detachTearsDown : Obligations.DetachTearsDown := by
  intro s c h rest hinputs hfind
  rw [step_detach hinputs hfind]
  refine ⟨fun hidle hid => ?_, fun hidle hid => congrArg _ ?_, fun hbusy => congrArg _ (if_neg hbusy)⟩
  · refine ⟨endCall c (tearDown (turnOf (.resume c) rest s)), ?_, fun x => ?_, rfl⟩
    · exact congrArg _ ((if_pos hidle).trans (congrArg _ (if_pos hid)))
    · obtain ⟨hdequeue, hlock⟩ := dequeueStep_lockStep_of_tornDown x (s := endCall c (tearDown (turnOf (.resume c) rest s))) rfl
      exact ⟨hdequeue, hlock, takeLockedStep_of_tornDown x rfl⟩
  · exact (if_pos hidle).trans (congrArg _ (if_neg hid))

end Sys2Proof.Machine
end

section
/-! PROOFS. Lifecycle (45_lifecycle.md): the seven lines of A3 in a row (R220, R130, R52). -/

namespace Sys2Proof.Machine

/-- The state `s`, with context `c` inside the attach `a`, after a turn of that context that leaves the turns `rest` to come. -/
abbrev atLine (c : Nat) (a : AttachCall) (rest : List Event) (s : State) : State :=
  { turnOf (.resume c) rest s with calls := (setCall c (.attach a) s).calls }

section
variable {s : State} {c : Nat} {j : CallKind} (hfind : s.calls.find? (fun k => k.ctx == c) = some { ctx := c, kind := j })
include hfind

/-- A turn at the line of `a` goes on to the line of `b`, where that line makes `u` of the state beside the calls; the run goes on from
there (R220, R11). -/
theorem run_atLine {a b : AttachCall} {u : State} {rest : List Event} {n : Nat} {o : Result}
    (hline : resumeAttach c a (atLine c a rest s) = .next (setCall c (.attach b) (atLine c a rest u)))
    (hrest : Host.Core.run core n (atLine c b rest u) = o) :
    Host.Core.run core (n + 1) (atLine c a (.resume c :: rest) s) = o := by
  have hlast : setCall c (.attach b) (atLine c a rest u) = atLine c b rest u := by
    simp only [setCall, List.map_map]
    congr 2
    funext x
    by_cases hx : x.ctx = c <;> simp [hx]
  have hturn : step (atLine c a (.resume c :: rest) s) = resumeAttach c a (atLine c a rest s) :=
    step_attachLine (s := atLine c a (.resume c :: rest) s) rfl (find_setCall _ hfind)
  rw [run_succ (hturn.trans hline), hlast, hrest]

end

/-- The handle numbered `id` while its attach fills it in: no handler registered, nothing configured (R220 A3, log 35). -/
def newHandle (id base clockHz irqLine divisor : Nat) (life : Life) : Handle :=
  { id := id, base := base, clockHz := clockHz, irqLine := irqLine, divisor := divisor, life := life, handlerRegistered := false,
    cfgStep := 0 }

/-- Settles O51: the lines are turns of the one context, and each writes its own part of the state. -/
theorem attachFillsInTheHandle : Obligations.AttachFillsInTheHandle := by
  rintro s c ⟨_, base, clockHz, irqLine, made⟩ rest hfind rfl hinputs
  have hmake : step s = .next (atLine c ⟨.setArguments, base, clockHz, irqLine, s.hdl.id + 1⟩ (List.replicate 6 (.resume c) ++ rest)
      { s with hdl := newHandle (s.hdl.id + 1) 0 0 0 0 .detached }) := step_attachLine hinputs hfind
  rw [run_succ hmake]
  -- One line each: the arguments, the divisor, the ring, the contexts, the logs, ATTACHING. The goal decides which line it is, so what is
  -- said of the line waits for it.
  refine run_atLine (u := { s with hdl := newHandle (s.hdl.id + 1) base clockHz irqLine 0 .detached }) (by exact hfind) (by rfl) ?_
  refine run_atLine (u := { s with hdl := newHandle (s.hdl.id + 1) base clockHz irqLine (clockHz / 16 / 115200) .detached })
    (by exact hfind) (by rfl) ?_
  refine run_atLine (u := { s with
    hdl := newHandle (s.hdl.id + 1) base clockHz irqLine (clockHz / 16 / 115200) .detached
    ring := emptyRing }) (by exact hfind) (by rfl) ?_
  refine run_atLine (u := { s with
    hdl := newHandle (s.hdl.id + 1) base clockHz irqLine (clockHz / 16 / 115200) .detached
    ring := emptyRing, cons := [], consLock := .free, irqPhase := .idle }) (by exact hfind) (by rfl) ?_
  refine run_atLine (u := { s with
    hdl := newHandle (s.hdl.id + 1) base clockHz irqLine (clockHz / 16 / 115200) .detached
    ring := emptyRing, cons := [], consLock := .free, irqPhase := .idle
    obs := { wakeCount := 0, pollLog := [], txnLog := [] }, line := { s.line with txLine := [] } }) (by exact hfind) (by rfl) ?_
  refine run_atLine (u := { s with
    hdl := newHandle (s.hdl.id + 1) base clockHz irqLine (clockHz / 16 / 115200) .attaching
    ring := emptyRing, cons := [], consLock := .free, irqPhase := .idle
    obs := { wakeCount := 0, pollLog := [], txnLog := [] }, line := { s.line with txLine := [] } }) (by exact hfind) (by rfl) ?_
  rfl

end Sys2Proof.Machine
end

section
/-! PROOFS. Lifecycle (45_lifecycle.md): the whole of `attach` (R220, R271). -/

namespace Sys2Proof.Machine

/-- A run goes on from the state its first turns give. -/
theorem run_add {s t : State} {m : Nat} (h : Host.Core.run core m s = .next t) (n : Nat) :
    Host.Core.run core (m + n) s = Host.Core.run core n t := by
  induction m generalizing s with
  | zero =>
    cases h
    rw [Nat.zero_add]
  | succ m ih =>
    rw [Nat.succ_add]
    cases hstep : step s with
    | next u =>
      rw [run_succ hstep] at h ⊢
      exact ih h
    | fault r => simp [Host.Core.run, core, hstep] at h
    | refused r => simp [Host.Core.run, core, hstep] at h

/-! ## A1 and A2 -/

/-- The state `s` with context `c` inside the call `k`, which it has just begun. -/
abbrev begun (c : Nat) (k : CallKind) (s : State) : State := { s with calls := s.calls ++ [{ ctx := c, kind := k }] }

section
variable {s : State} {c : Nat} {k : CallKind} (hfree : busy c s = false)
include hfree

/-- The call begun last is the context's, where it was inside none before (R209). -/
theorem find_begun : (begun c k s).calls.find? (fun x => x.ctx == c) = some { ctx := c, kind := k } := by
  have hout := ctx_ne_of_outside hfree
  rw [List.find?_append, List.find?_eq_none.mpr (by simpa using hout)]
  simp

/-- With it over, the calls are those before it (R256). -/
theorem endCall_begun : (endCall c (begun c k s)).calls = s.calls := by
  have hout := ctx_ne_of_outside hfree
  rw [endCall_calls, List.filter_append, List.filter_eq_self.mpr (by simpa using hout)]
  simp

end

/-- An attach at A2's first line holds no window yet (R220, R221). -/
theorem windowHeld_begun {s : State} {c : Nat} {a : AttachCall} (base : Nat) (hline : a.line.holdsWindow = false) :
    windowHeld base (begun c (.attach a) s) = windowHeld base s := by
  simp [windowHeld, handleLive, attachOf, hline]

/-- An attach that makes no handle yet does not own the device (R222, log 17). -/
theorem deviceOwned_begun {s : State} {c : Nat} {a : AttachCall} (hline : a.line.makesHandle = false) :
    deviceOwned (begun c (.attach a) s) = deviceOwned s := by
  simp [deviceOwned, handleLive, attachOf, hline]

/-- The call just begun becomes another, and every other call is as it was (R220). -/
theorem setCall_begun {s : State} {c : Nat} {j k : CallKind} (hfree : busy c s = false) :
    setCall c k (begun c j s) = begun c k s := by
  have hsame : s.calls.map (fun x => if x.ctx = c then { x with kind := k } else x) = s.calls :=
    (List.map_congr_left fun x hx => if_neg (ctx_ne_of_outside hfree x hx)).trans s.calls.map_id
  simp [setCall, hsame]

section
variable {s : State} {c : Nat} {a : AttachCall} {rest : List Event} (hfree : busy c s = false)
  (hinputs : s.sched.inputs = .resume c :: rest)
include hfree hinputs

/-- A2's first line passes for an available window that nothing holds and that fits (R220). -/
theorem step_begun_testWindow (hline : a.line = .testWindow) (hwindow : s.env.windowAvail = true)
    (hheld : windowHeld a.base s = false) (hfits : windowFits s.cfg a.base = true) :
    step (begun c (.attach a) s) = .next (begun c (.attach { a with line := .testIrq }) (turnOf (.resume c) rest s)) := by
  obtain ⟨hfirst, -⟩ := attachTestsItsResources (begun c (.attach a) s) c a rest hinputs (find_begun hfree)
  obtain ⟨-, hpass⟩ := hfirst hline
  have hheld' : windowHeld a.base (begun c (.attach a) s) = false := by rw [windowHeld_begun _ (by rw [hline]; rfl), hheld]
  exact (hpass hwindow hheld' hfits).trans (congrArg _ (setCall_begun (s := turnOf (.resume c) rest s) hfree))

/-- A2's second line passes for an available interrupt line while the device has no handle (R220, log 17). -/
theorem step_begun_testIrq (hline : a.line = .testIrq) (hirq : s.env.irqAvail = true) (howned : deviceOwned s = false) :
    step (begun c (.attach a) s) = .next (begun c (.attach { a with line := .makeHandle }) (turnOf (.resume c) rest s)) := by
  obtain ⟨-, hsecond, -⟩ := attachTestsItsResources (begun c (.attach a) s) c a rest hinputs (find_begun hfree)
  obtain ⟨-, -, hpass⟩ := hsecond hline
  have howned' : deviceOwned (begun c (.attach a) s) = false := by rw [deviceOwned_begun (by rw [hline]; rfl), howned]
  exact (hpass hirq howned').trans (congrArg _ (setCall_begun (s := turnOf (.resume c) rest s) hfree))

end

/-- With good arguments and both resources available the request and its first two turns come to A3, nothing else changed (R220 A1, A2). -/
theorem run_attachTests {s : State} {c on base clockHz irqLine : Nat} {rest : List Event} (hfree : busy c s = false)
    (hbase : base % 4 = 0) (hclock : 1 ≤ clockHz) (hfits : windowFits s.cfg base = true) (hwindow : s.env.windowAvail = true)
    (hirq : s.env.irqAvail = true) (hheld : windowHeld base s = false) (howned : deviceOwned s = false)
    (hinputs : s.sched.inputs = .request (.host c) on (encode s.cfg (.attach base clockHz irqLine)) :: .resume c :: .resume c :: rest) :
    Host.Core.run core 3 s =
      .next (begun c (.attach { startAttach base clockHz irqLine with line := .makeHandle }) (turnOf (.resume c) rest s)) := by
  obtain ⟨hexec, hagent, -⟩ := stepRunsTheDecodedRequest s _ _ _ _ _ hinputs (decode_encode_operation rfl)
  obtain ⟨-, hgood⟩ := attachChecksItsArguments _ c base clockHz irqLine ⟨hagent, hfree⟩
  rw [run_succ (hexec.trans (hgood hbase hclock))]
  refine (run_succ (step_begun_testWindow (s := turnOf (.request (.host c) on _) (.resume c :: .resume c :: rest) s)
    (a := startAttach base clockHz irqLine) hfree rfl rfl hwindow hheld hfits) 1).trans ?_
  exact run_succ (step_begun_testIrq (s := turnOf (.resume c) (.resume c :: rest) s) hfree rfl rfl hirq howned) 0

/-! ## A4 -/

/-- What line configuration may change, whatever it stores: the device registers, the log, the count of its writes, who is inside which call
and the turns to come (R132, R135). -/
abbrev AfterConfigureWrites (s t : State) : Prop :=
  ∃ d l n cs q, t = { s with dev := d, obs := { s.obs with txnLog := l }, hdl := { s.hdl with cfgStep := n }, calls := cs, sched := q }

/-- One such change after another is one. -/
theorem AfterConfigureWrites.trans {s t u : State} (h : AfterConfigureWrites s t) (h' : AfterConfigureWrites t u) :
    AfterConfigureWrites s u := by
  obtain ⟨_, _, _, _, _, rfl⟩ := h
  obtain ⟨_, _, _, _, _, rfl⟩ := h'
  exact ⟨_, _, _, _, _, rfl⟩

/-- A4's step changes no more than that (R220). -/
theorem attachConfigure_frame {c : Nat} {a : AttachCall} {s t : State} (h : attachConfigure c a s = .next t) : AfterConfigureWrites s t := by
  obtain ⟨-, rfl⟩ | ⟨-, u, hu, rfl⟩ := attachConfigure_next h
  · exact ⟨_, _, _, _, _, rfl⟩
  · obtain ⟨_, _, _, _, rfl, -⟩ := lineConfigureStep_frame hu
    split
    all_goals exact ⟨_, _, _, _, _, rfl⟩

/-- The device that R134 describes, whatever it held before. -/
abbrev configuredDevice (s : State) : Device :=
  { thr := none, rxHw := [], lcr := s.cfg.lcrWlen8, dll := divisorLow s.hdl.divisor, dlh := divisorHigh s.hdl.divisor,
    mdr := s.cfg.mdrNormal, ier := if s.cfg.rxIrqEnabled then s.cfg.ierRdi else s.dev.ier }

section
variable {s : State} {c : Nat} {a : AttachCall} {rest : List Event} (hwf : s.cfg.wf = true) (hlife : s.hdl.life = .attaching)
  (hfind : s.calls.find? (fun k => k.ctx == c) = some { ctx := c, kind := .attach a }) (hline : a.line = .configure)
include hwf hlife hfind hline

/-- The turns of A4 change no more than that, from any point of the sequence (R220, R132). -/
theorem run_attachConfigure_frame (left : Nat) :
    ∀ (n : Nat) (t u : State), n + left = configureWrites s.cfg → WrittenFrom n s t → (left ≠ 0 → t.calls = s.calls) →
      t.sched.inputs = List.replicate left (.resume c) ++ rest → Host.Core.run core left t = .next u → AfterConfigureWrites t u := by
  have hresume (t : State) (_ : t.hdl.id = s.hdl.id) (hcalls : t.calls = s.calls) :
      resumeStep c t = configureThen (fun calls => (toLine c a .register { s with calls := calls }).calls) t := by
    simp only [resumeStep, hcalls, hfind, resumeAttach, hline, attachConfigure_eq c a s]
  induction left with
  | zero =>
    intro n t u _ _ _ _ hrun
    cases hrun
    exact ⟨_, _, _, _, _, rfl⟩
  | succ left ih =>
    intro n t u hn ht hcalls hinputs hrun
    have hinside := hcalls (Nat.succ_ne_zero left)
    obtain ⟨v, hstep, hv, hrest, hc⟩ := step_configureThen hwf hlife hresume (by omega) ht hinside hinputs
    have hfirst : attachConfigure c a (turnOf (.resume c) (List.replicate left (.resume c) ++ rest) t) = .next v := by
      rw [← hstep, step_attachLine hinputs (hinside ▸ hfind), resumeAttach, hline]
      rfl
    have hframe : AfterConfigureWrites t v := attachConfigure_frame (s := turnOf (.resume c) _ t) hfirst
    rw [run_succ hstep] at hrun
    refine hframe.trans (ih (n + 1) v u (by omega) hv (fun hleft => ?_) hrest hrun)
    rw [hc, if_neg (by omega)]

/-- A4 from its first turn to its last: the configured device, A5 to come, one entry of the log a write, and nothing else changed (R220,
R132, R134). -/
theorem run_attachConfigure (hzero : s.hdl.cfgStep = 0)
    (hinputs : s.sched.inputs = List.replicate (configureWrites s.cfg) (.resume c) ++ rest) :
    ∃ l q, l.length = s.obs.txnLog.length + configureWrites s.cfg ∧ q.inputs = rest ∧
      Host.Core.run core (configureWrites s.cfg) s = .next { s with
        hdl := { s.hdl with cfgStep := configureWrites s.cfg }
        dev := configuredDevice s
        obs := { s.obs with txnLog := l }
        calls := (toLine c a .register s).calls
        sched := q } := by
  obtain ⟨hattach, -⟩ := lineConfigurationReachesItsStateFromAnyState s c rest hwf hlife hzero
  obtain ⟨t, hrun, ⟨hhdl, hdev, hlog, -⟩, hcalls, hrest⟩ := hattach a hfind hline hinputs
  obtain ⟨d, l, n, cs, q, rfl⟩ := run_attachConfigure_frame hwf hlife hfind hline (configureWrites s.cfg) 0 s t (by omega)
    (writtenFrom_zero hzero) (fun _ => rfl) hinputs hrun
  obtain rfl : d = configuredDevice s := hdev
  obtain rfl : cs = (toLine c a .register s).calls := hcalls
  refine ⟨l, q, ?_, hrest, by rw [hrun, ← hhdl]⟩
  have hlength := congrArg List.length hlog
  simp only [List.length_map, List.length_append] at hlength
  rw [hlength, configureWrites]
  split <;> rfl

end

/-! ## A5 and A6 -/

/-- With its call over, it does not matter what call the context was inside (R256). -/
theorem endCall_setCall (c : Nat) (k : CallKind) (s : State) : endCall c (setCall c k s) = endCall c s := by
  have hothers : (s.calls.map fun x => if x.ctx = c then { x with kind := k } else x).filter (fun x => x.ctx != c) =
      s.calls.filter (fun x => x.ctx != c) := by
    induction s.calls with
    | nil => rfl
    | cons x xs ih => by_cases hx : x.ctx = c <;> simp [hx, ih]
  simp only [endCall, setCall, hothers]

/-- The handle ATTACHED, its handler registered where the receive interrupt is enabled (R220 A5, A6). -/
abbrev attachedHandle (s : State) : Handle :=
  { s.hdl with life := .attached, handlerRegistered := s.hdl.handlerRegistered || s.cfg.rxIrqEnabled }

/-- From A5 three turns register the handler where it is wanted, make the handle ATTACHED, and return it (R220 A5, A6). -/
theorem run_attachReturns {s : State} {c : Nat} {a : AttachCall} {rest : List Event}
    (hfind : s.calls.find? (fun k => k.ctx == c) = some { ctx := c, kind := .attach a }) (hline : a.line = .register)
    (hinputs : s.sched.inputs = .resume c :: .resume c :: .resume c :: rest) :
    Host.Core.run core 3 s =
      .next ((endCall c { turnOf (.resume c) rest s with hdl := attachedHandle s }).reply (.host c) (.handle a.made)) := by
  obtain ⟨-, hregister, -⟩ := attachRegistersThenReturns s c a _ hinputs hfind
  have hgive : step (atLine c { a with line := .giveHandle } (.resume c :: rest) { s with hdl := attachedHandle s }) = _ :=
    step_attachLine (rest := rest) rfl (find_setCall _ hfind)
  have hend := endCall_setCall c (.attach { a with line := .giveHandle }) { turnOf (.resume c) rest s with hdl := attachedHandle s }
  refine (run_succ (hregister hline) 2).trans (run_atLine (s := { s with
    hdl := { s.hdl with handlerRegistered := s.hdl.handlerRegistered || s.cfg.rxIrqEnabled } })
    (u := { s with hdl := attachedHandle s }) hfind rfl ?_)
  exact (run_succ hgive 0).trans (congrArg (fun x => Host.Outcome.next (State.reply x (.host c) (.handle a.made))) hend)

/-! ## The whole of attach -/

/-- The turns of a whole attach, cut at the ends of A2, A3 and A4. -/
theorem replicate_attachTurns (cfg : Config) (e : Event) (rest : List Event) :
    List.replicate (12 + configureWrites cfg) e ++ rest =
      e :: e :: (List.replicate 7 e ++ (List.replicate (configureWrites cfg) e ++ e :: e :: e :: rest)) := by
  rw [show 12 + configureWrites cfg = 2 + (7 + (configureWrites cfg + 3)) by omega]
  simp only [List.replicate_add, List.append_assoc]
  rfl

/-- Where a run has come to A4, as many more turns as there are lines to come leave the configured device under an ATTACHED handle, and
nothing else changed but the log, the call and the answer (R220 A4 to A6). -/
theorem run_attachFinishes {r s : State} {m c : Nat} {a : AttachCall} {rest : List Event} (hbefore : Host.Core.run core m r = .next s)
    (hwf : s.cfg.wf = true) (hlife : s.hdl.life = .attaching) (hzero : s.hdl.cfgStep = 0)
    (hfind : s.calls.find? (fun k => k.ctx == c) = some { ctx := c, kind := .attach a }) (hline : a.line = .configure)
    (hinputs : s.sched.inputs =
      List.replicate (configureWrites s.cfg) (.resume c) ++ (.resume c :: .resume c :: .resume c :: rest)) :
    ∃ l q, l.length = s.obs.txnLog.length + configureWrites s.cfg ∧ q.inputs = rest ∧
      Host.Core.run core (m + (configureWrites s.cfg + 3)) r = .next { s with
        hdl := { attachedHandle s with cfgStep := configureWrites s.cfg }
        dev := configuredDevice s
        obs := { s.obs with txnLog := l }
        calls := (endCall c s).calls
        answers := s.answers ++ [(.host c, .handle a.made)]
        sched := q } := by
  obtain ⟨l, q, hl, hq, hconfigure⟩ := run_attachConfigure hwf hlife hfind hline hzero hinputs
  have hreturn := (run_add hconfigure 3).trans (run_attachReturns (find_setCall _ hfind) rfl hq)
  refine ⟨l, { q with inputs := rest, agent := .host c, handle := 0 }, hl, rfl, (run_add hbefore _).trans (hreturn.trans ?_)⟩
  rw [← endCall_setCall c (.attach { a with line := .register }) s]
  rfl

/-- Settles O53: the run is cut at the ends of A2, A3 and A4; each part is known from its own start, and the call that the request begins is
the one that the return ends. -/
theorem attachReachesTheConfiguredState : Obligations.AttachReachesTheConfiguredState := by
  intro s c on base clockHz irqLine rest hwf hfree hbase hclock hfits hwindow hirq hheld howned hinputs
  rw [replicate_attachTurns] at hinputs
  have htests := run_attachTests hfree hbase hclock hfits hwindow hirq hheld howned hinputs
  have hfind : (begun c (.attach { startAttach base clockHz irqLine with line := .makeHandle }) s).calls.find? _ = _ := find_begun hfree
  have hfill := attachFillsInTheHandle (begun c _ (turnOf (.resume c) (List.replicate 7 (.resume c) ++
    (List.replicate (configureWrites s.cfg) (.resume c) ++ .resume c :: .resume c :: .resume c :: rest)) s)) c _ _ hfind rfl rfl
  obtain ⟨l, q, hlength, hrest, hrun⟩ := run_attachFinishes (rest := rest) ((run_add htests 7).trans hfill) hwf rfl rfl
    (find_setCall _ hfind) rfl rfl
  rw [show 13 + configureWrites s.cfg = 3 + 7 + (configureWrites s.cfg + 3) by omega]
  refine ⟨_, hrun, rfl, rfl, rfl, rfl, rfl, rfl, rfl, rfl, rfl, rfl, ?_, rfl, ?_, hrest, rfl⟩
  · exact hlength.trans (Nat.zero_add _)
  · exact (congrArg State.calls (endCall_setCall c _ _)).trans (endCall_begun hfree)

end Sys2Proof.Machine
end

section
/-! PROOFS. Exceptions (60_exceptions.md): which step answers InterruptedError (R244, R201 D3). -/

namespace Sys2Proof.Machine

/-! ## The turns that interrupt nobody -/

/-- No answer of InterruptedError has been added. -/
abbrev InterruptsNobody (s t : State) : Prop := ∀ a, t.answers ≠ s.answers ++ [(a, .interruptedError)]

/-- Where the answers are the same, none has been added. -/
theorem interruptsNobody_of_same {s t : State} (h : t.answers = s.answers) : InterruptsNobody s t := by
  simp [InterruptsNobody, h]

/-- Nor where the answer added is another one. -/
theorem interruptsNobody_of_reply {s t : State} {a : Agent} {x : Answer} (h : t.answers = s.answers ++ [(a, x)])
    (hx : x ≠ .interruptedError) : InterruptsNobody s t := by
  intro a' ha'
  rw [h, List.append_cancel_left_eq] at ha'
  cases ha'
  exact hx rfl

/-- A step of line configuration answers nothing (R132). -/
theorem lineConfigureStep_answers {s t : State} (h : lineConfigureStep s = .next t) : t.answers = s.answers := by
  obtain ⟨_, _, _, _, rfl, -⟩ := lineConfigureStep_frame h
  rfl

/-- A later step of LINE_CONFIGURE answers nothing: the call returns no value (R132). -/
theorem resumeLineConfigure_answers {c h : Nat} {s t : State} (hx : resumeLineConfigure c h s = .next t) :
    t.answers = s.answers := by
  obtain rfl | ⟨u, hu, rfl | rfl⟩ := resumeLineConfigure_cases hx
  · exact endCall_answers s c
  · exact (endCall_answers u c).trans (lineConfigureStep_answers hu)
  · exact lineConfigureStep_answers hu

/-- The later step of DETACH answers nothing (R223). -/
theorem resumeDetach_answers (c h : Nat) (s : State) : (resumeDetach c h s).answers = s.answers := by
  obtain ⟨-, ht⟩ | ⟨-, -, ht⟩ | ⟨-, -, ht⟩ := resumeDetach_cases c h s
  all_goals simp [ht]

/-- Of the finer grain of D2, the lock answers nothing (R201, log 22). -/
theorem lockStep_answers (c : Nat) (s : State) : (lockStep c s).answers = s.answers := by
  obtain ⟨-, ht⟩ | ⟨-, -, ht⟩ | ⟨-, -, ht⟩ := lockStep_cases c s
  all_goals simp [ht]

/-- LINE_TX answers nothing (R156). -/
theorem lineTxStep_answers (s : State) : (lineTxStep s).answers = s.answers := by
  obtain ht | ⟨_, -, -, ht⟩ := lineTxStep_cases s
  all_goals rw [ht]

/-- The entry of the handler answers nothing (R250). -/
theorem irqEnterStep_answers (s : State) : (irqEnterStep s).answers = s.answers := by
  unfold irqEnterStep
  split <;> rfl

/-- A host's read of a register answers the value read (R100). -/
theorem hostRead_interruptsNobody {k : Nat} {s t : State} (h : hostRead k s = .next t) : InterruptsNobody s t := by
  obtain ⟨_, _, _, -, -, -, hr, rfl⟩ := hostRead_next h
  obtain ⟨⟨_, _, _, rfl⟩, -⟩ := regRead_frame hr
  exact interruptsNobody_of_reply rfl nofun

/-- A step of a transmit call answers a count or a fault, or nothing (R151, R154). -/
theorem transmitStep_interruptsNobody {w : PendingWrite} {s t : State} (h : transmitStep w s = .next t) :
    InterruptsNobody s t := by
  obtain ⟨-, rfl⟩ | ⟨_, -, ⟨-, -, rfl⟩ | ⟨-, -, hp⟩ | ⟨-, hp⟩⟩ := transmitStep_next h
  · exact interruptsNobody_of_reply (finishWrite_answers s w) nofun
  · exact interruptsNobody_of_reply (failWrite_answers s w) nofun
  · obtain ⟨_, _, hr, ⟨-, rfl⟩ | ⟨-, rfl⟩⟩ := pollStep_next hp
    all_goals
      obtain ⟨⟨_, _, _, rfl⟩, -⟩ := regRead_frame hr
      exact interruptsNobody_of_same rfl
  · obtain ⟨_, hw, rfl⟩ := putStep_next hp
    obtain ⟨_, _, _, rfl⟩ := regWrite_frame hw
    exact interruptsNobody_of_same rfl

/-- D2 answers a byte, or nothing (R201). -/
theorem dequeueStep_interruptsNobody (c : Nat) (s : State) : InterruptsNobody s (dequeueStep c s) := by
  obtain ⟨-, ht⟩ | ⟨-, ht⟩ := dequeueStep_cases c s
  all_goals rw [ht]
  · exact interruptsNobody_of_same rfl
  · exact interruptsNobody_of_reply rfl nofun

/-- So does the taking under the lock (R201, log 22). -/
theorem takeLockedStep_interruptsNobody (c : Nat) (s : State) : InterruptsNobody s (takeLockedStep c s) := by
  obtain ht | ⟨-, -, -, ht⟩ | ⟨-, -, ht⟩ := takeLockedStep_cases c s
  all_goals rw [ht]
  · exact interruptsNobody_of_same rfl
  · exact interruptsNobody_of_reply rfl nofun
  · exact interruptsNobody_of_same rfl

/-- The lines of `attach` answer the handle or an AttachError, or nothing (R220, R240). -/
theorem resumeAttach_interruptsNobody {c : Nat} {a : AttachCall} {s t : State} (h : resumeAttach c a s = .next t) :
    InterruptsNobody s t := by
  cases hl : a.line <;> simp only [resumeAttach, hl, Host.Outcome.next.injEq] at h
  case testWindow =>
    obtain ht | ⟨-, -, -, ht⟩ := attachTestWindow_cases c a s
    · exact h ▸ ht ▸ interruptsNobody_of_reply (failAttach_answers s c _) nofun
    · exact h ▸ ht ▸ interruptsNobody_of_same rfl
  case testIrq =>
    obtain ⟨_, ht⟩ | ⟨-, -, ht⟩ := attachTestIrq_cases c a s
    · exact h ▸ ht ▸ interruptsNobody_of_reply (failAttach_answers s c _) nofun
    · exact h ▸ ht ▸ interruptsNobody_of_same rfl
  case configure =>
    obtain ⟨-, rfl⟩ | ⟨-, u, hu, rfl⟩ := attachConfigure_next h
    · exact interruptsNobody_of_same rfl
    · refine interruptsNobody_of_same (.trans ?_ (lineConfigureStep_answers hu))
      split <;> rfl
  case giveHandle => exact h ▸ interruptsNobody_of_reply rfl nofun
  all_goals exact h ▸ interruptsNobody_of_same rfl

/-! ## D3 alone -/

/-- Every turn but D3's interrupts nobody. -/
theorem Turn.interruptsNobody {s t : State} {e : Event} (ht : Turn s e t) (hother : ∀ c, e ≠ .interrupted c) :
    InterruptsNobody s t := by
  cases ht
  case interrupted c => exact absurd rfl (hother c)
  case registerRead hx => exact hostRead_interruptsNobody hx
  case attachLine hx => exact resumeAttach_interruptsNobody hx
  case transmit hx => exact transmitStep_interruptsNobody hx
  case dequeue c => exact dequeueStep_interruptsNobody c s
  case takeLocked c => exact takeLockedStep_interruptsNobody c s
  case attach hx =>
    obtain ⟨_, -, -, ⟨-, rfl⟩ | ⟨-, -, rfl⟩⟩ := execAttach_next hx
    · exact interruptsNobody_of_reply rfl nofun
    · exact interruptsNobody_of_same rfl
  case readLossCounter hx =>
    obtain ⟨_, -, -, -, rfl⟩ := execReadLossCounter_next hx
    exact interruptsNobody_of_reply rfl nofun
  all_goals refine interruptsNobody_of_same ?_
  case registerWrite hx =>
    obtain ⟨_, _, _, rfl⟩ := hostWrite_frame hx
    rfl
  case detach hx =>
    obtain ⟨_, -, -, -, -, -, rfl⟩ := execDetach_next hx
    rfl
  case lineConfigure hx =>
    obtain ⟨_, _, -, -, -, -, hu, rfl⟩ := execLineConfigure_next hx
    exact (lineConfigureStep_answers hu :)
  case transmitBytes hx =>
    obtain ⟨_, -, -, -, rfl⟩ := execTransmitBytes_next hx
    rfl
  case onReceiveInterrupt hx =>
    obtain ⟨-, -, -, _, _, hr, rfl⟩ := execOnReceiveInterrupt_next hx
    obtain ⟨⟨_, _, _, rfl⟩, -⟩ := regRead_frame hr
    rfl
  case readOneByte hx =>
    obtain ⟨_, -, -, -, rfl⟩ := execReadOneByte_next hx
    rfl
  case cancel hx =>
    obtain ⟨-, rfl⟩ := execCancel_next hx
    rfl
  case configureWrite hx => exact resumeLineConfigure_answers hx
  case detachEnd c h _ => exact resumeDetach_answers c h s
  case lock c => exact lockStep_answers c s
  case irqEnter => exact irqEnterStep_answers s
  case irqStep hx =>
    obtain ⟨⟨_, _, _, _, _, rfl⟩, -⟩ := irqStep_frame hx
    rfl
  case lineTx => exact lineTxStep_answers s
  case lineRx =>
    obtain ⟨_, _, _, ht⟩ := lineRxStep_frame s
    rw [ht]
  all_goals rfl

/-- A turn that answers InterruptedError is the D3 of the context it is answered to (R244). -/
theorem Turn.eq_interruptedStep {s t : State} {e : Event} {a : Agent} (ht : Turn s e t)
    (hanswer : t.answers = s.answers ++ [(a, .interruptedError)]) : ∃ c, e = .interrupted c ∧ t = interruptedStep c s := by
  by_cases hother : ∀ c, e ≠ .interrupted c
  · exact absurd hanswer (ht.interruptsNobody hother a)
  · obtain ⟨c, rfl⟩ := not_forall_not.mp hother
    cases ht
    exact ⟨c, rfl, rfl⟩

/-- Settles O47: the step is some turn of D3, and D3 answers only by ending the cancelled waiting record's call, with the ring untouched. -/
theorem interruptedErrorComesOnlyFromD3 : Obligations.InterruptedErrorComesOnlyFromD3 := by
  intro s t a hs hanswer
  obtain ⟨q, hturn⟩ := step_turn hs
  obtain ⟨c, hevent, rfl⟩ := hturn.eq_interruptedStep hanswer
  obtain ht | ⟨r, hr, hwaiting, hcancel, ht⟩ := interruptedStep_cases c { s with sched := q }
  all_goals rw [ht] at hanswer ⊢
  · exact absurd hanswer (interruptsNobody_of_same rfl a)
  · have hpair := List.append_cancel_left hanswer
    cases hpair
    exact ⟨rfl, c, r, hevent, rfl, hr, hwaiting, hcancel⟩

end Sys2Proof.Machine
end
